-- ==== Sys2Proof/Word.lean ====
section
/-! DEFINITION. The word types of the codec block: bytes, packets, identifiers, PGNs, sequence counters and ticks. -/

namespace Sys2Proof

/-- A byte is 8 bits (`20_memory.md` R40). -/
abbrev Byte := BitVec 8

/-- A request or response packet, or a buffer: a finite byte string, lowest offset first
(`00_scope.md` R15, `30_encoding.md` R70). -/
abbrev Packet := List Byte

/-- The packed 29-bit CAN identifier (`30_encoding.md` R60; `ID_WIDTH` of `00_scope.md` R5). -/
abbrev Ident := BitVec 29

/-- A Parameter Group Number: a 17-bit value (`30_encoding.md` R61). -/
abbrev Pgn := BitVec 17

/-- The 5-bit sequence counter `S` of a Fast Packet message (`30_encoding.md` R63). -/
abbrev SeqCounter := BitVec 5

/-- The time input `now` and the field `last`: 64 bits, unsigned (`TIME_WIDTH`, `00_scope.md` R9). -/
abbrev Ticks := BitVec 64

end Sys2Proof
end

