-- ==== Sys2Proof/Config.lean ====
section
/-! DEFINITION. What an implementation fixes: the open parameters of the spec, its numeric constants, and the free values. -/

namespace Sys2Proof.Config

/-- The admissible values of `ROUND_TIES` (`00_scope.md` R8): what `round` does half way between two integers. -/
inductive RoundTies where
  /-- half away from zero -/
  | away
  /-- half to the even integer -/
  | even
  /-- half toward plus infinity -/
  | up
deriving DecidableEq, Repr, Inhabited

/-- The four OPEN parameters (`00_scope.md` R6, R7, R8), in a form that holds every admissible choice and no other:
`FP_TIMEOUT` is `tickHz + timeoutMargin`, so that `FP_TIMEOUT >= TICK_HZ`, and a bounded `FP_SESSIONS` is one more than
the number stored, so that it is positive. -/
structure Params where
  /-- `TICK_HZ`: ticks of the time input in one second -/
  tickHz : Nat
  /-- by how many ticks `FP_TIMEOUT` exceeds one second -/
  timeoutMargin : Nat
  /-- `none`: `FP_SESSIONS` is `unbounded`; `some n`: the table holds `n + 1` sessions -/
  spareSessions : Option Nat
  /-- `ROUND_TIES` -/
  roundTies : RoundTies
deriving DecidableEq, Repr, Inhabited

/-- `FP_TIMEOUT`, in ticks (`00_scope.md` R6). -/
def Params.fpTimeout (c : Params) : Nat := c.tickHz + c.timeoutMargin

/-- `FP_SESSIONS` (`00_scope.md` R7): a positive number, or `none` for `unbounded`. -/
def Params.fpSessions (c : Params) : Option Nat := c.spareSessions.map (· + 1)

/-- The parameters of the machine at hand, fixed before reset and not changeable by any command (`10_state.md` R28, R30;
assumption 1). It has no body, so a theorem about the machine holds for every admissible choice. -/
opaque params : Params

/-- The parameter values that every test vector of the spec uses (`00_scope.md` R6, R7, R8). They are used in tests
only; the machine runs with `params`. -/
def vectorParams : Params := ⟨1000, 0, some 15, .away⟩

/-- Free value (`10_state.md` R29, `92_eei_decisions.md` D40; assumption 2): the byte that the session buffer opened as
the machine's `n`-th holds at position `p` before a frame has stored into it. It has no body: no claim can depend on
it. -/
opaque unstoredByte (n p : Nat) : Byte

/-- `FP_MAX_LEN`: the capacity of a Fast Packet message and the size of a session buffer (`00_scope.md` R5). -/
abbrev fpMaxLen : Nat := 55

/-- `GNSS_FIXED_LEN` (`00_scope.md` R5). -/
abbrev gnssFixedLen : Nat := 43

/-- `GNSS_MAX_REF` (`00_scope.md` R5, `43_pgn_codecs.md` R166). -/
abbrev gnssMaxRef : Nat := 3

/-- `PDU2_MIN` (`00_scope.md` R5). -/
abbrev pdu2Min : Nat := 240

/-- `BROADCAST` (`00_scope.md` R5). -/
abbrev broadcast : Byte := 0xFF#8

/-- `DEG2RAD`: the binary64 number nearest to pi/180, as an exact rational (`00_scope.md` R9, D17). -/
def deg2rad : ℚ := 5030569068109113 / 288230376151711744

/-- `MPS2KMH` (`00_scope.md` R9, D17). -/
def mps2kmh : ℚ := 18 / 5

end Sys2Proof.Config
end

