-- ==== Sys2Proof/Machine/Binary64.lean ====
section
/-! DEFINITION. Rounding and the binary64 boundary of packets (`00_scope.md` R12, R13; `41_field_scaler.md` R128, R129). -/

namespace Sys2Proof.Machine

open Sys2Proof.Config

/-- `round(q)` under a choice of `ROUND_TIES` (`00_scope.md` R12). -/
def roundTo (ties : RoundTies) (q : ℚ) : Int :=
  let f := ⌊q⌋
  let r := q - f
  if r < 1 / 2 then f
  else if 1 / 2 < r then f + 1
  else match ties with
    | .away => if 0 < q then f + 1 else f
    | .even => if f % 2 = 0 then f else f + 1
    | .up => f + 1

/-- `clamp(k, lo, hi)` (`00_scope.md` R12). -/
def clamp (k lo hi : Int) : Int := if k < lo then lo else if hi < k then hi else k

/-- What a binary64 pattern denotes (`00_scope.md` R13). -/
inductive F64 where
  | nan
  | posInf
  | negInf
  | rat (q : ℚ)
deriving DecidableEq, Repr

/-- The sign bit `b[63]` of a binary64 pattern (`00_scope.md` R13). -/
def f64Sign (b : BitVec 64) : Bool := b.getLsbD 63

/-- The exponent field `b[62:52]` (`00_scope.md` R13). -/
def f64Exp (b : BitVec 64) : Nat := (b.extractLsb' 52 11).toNat

/-- The fraction field `b[51:0]` (`00_scope.md` R13). -/
def f64Frac (b : BitVec 64) : Nat := (b.extractLsb' 0 52).toNat

/-- The magnitude of a finite pattern (`00_scope.md` R13): subnormal when the exponent field is 0. -/
def f64Mag (b : BitVec 64) : ℚ :=
  if f64Exp b = 0 then (f64Frac b : ℚ) * 2 ^ (-1074 : ℤ)
  else ((2 ^ 52 + f64Frac b : Nat) : ℚ) * 2 ^ ((f64Exp b : ℤ) - 1075)

/-- `f64val(b)` (`00_scope.md` R13); both zeros give the rational 0. -/
def f64val (b : BitVec 64) : F64 :=
  if f64Exp b = 0x7FF then
    if f64Frac b ≠ 0 then .nan else if f64Sign b then .negInf else .posInf
  else .rat (if f64Sign b then - f64Mag b else f64Mag b)

/-- The exponent of the unit in the last place of binary64 numbers of the size of `a > 0`: numbers in
`[2^k, 2^(k+1))` are spaced `2^(k-52)` apart, and never closer than `2^(-1074)` (`00_scope.md` R13). -/
def f64UlpExp (a : ℚ) : ℤ := max (Int.log 2 a - 52) (-1074)

/-- The lower 63 bits of the binary64 pattern nearest to `a > 0`, ties to the even fraction; a result past the largest
finite pattern is the pattern of infinity (`00_scope.md` R13). With `e` the exponent of the last place and `m` the
rounded multiple of it, the pattern is `(e + 1074) * 2^52 + m`: the hidden bit of a normal `m` and the carry of
`m = 2^53` both step the exponent field. -/
def f64MagBits (a : ℚ) : Nat :=
  let e := f64UlpExp a
  let m := roundTo .even (a / 2 ^ e)
  min ((e + 1074).toNat * 2 ^ 52 + m.toNat) (0x7FF * 2 ^ 52)

/-- `f64_of_rat(q)` (`00_scope.md` R13, D39). DEDUCED, unsafe (assumption 5): a negative value that rounds to zero keeps its
sign. -/
def f64OfRat (q : ℚ) : BitVec 64 :=
  if q = 0 then 0#64
  else if q < 0 then BitVec.ofNat 64 (2 ^ 63 + f64MagBits (-q))
  else BitVec.ofNat 64 (f64MagBits q)

end Sys2Proof.Machine
end

