-- ==== Sys2Proof/Machine/Bytes.lean ====
section
/-! DEFINITION. Byte order, two's complement and the byte-granular memory primitives (`00_scope.md` R11, R15). -/

namespace Sys2Proof.Machine

/-- The `n` little-endian bytes of `v`, the least significant first (`20_memory.md` R44); the part of `v` at and above
`2^(8n)` is not written. -/
def leBytes : Nat → Nat → Packet
  | 0, _ => []
  | n + 1, v => BitVec.ofNat 8 v :: leBytes n (v / 256)

/-- The number whose little-endian bytes are the given ones (`20_memory.md` R44). -/
def ofLe : Packet → Nat
  | [] => 0
  | b :: bs => b.toNat + 256 * ofLe bs

/-- `MemRead(B, addr, n)` (`00_scope.md` R15), for `addr + n <= len(B)`. -/
def memRead (B : Packet) (addr n : Nat) : Nat := ofLe ((B.drop addr).take n)

/-- `MemWrite(B, addr, n, v)` (`00_scope.md` R15), for `v < 2^(8n)` and `addr + n <= len(B)`. -/
def memWrite (B : Packet) (addr n v : Nat) : Packet := B.take addr ++ leBytes n v ++ B.drop (addr + n)

/-- `tc_w(k)`: the `w`-bit two's complement pattern of `k` (`00_scope.md` R11). -/
def tc (w : Nat) (k : Int) : Nat := (k % 2 ^ w).toNat

/-- `sext_w(v)`: the integer whose `w`-bit two's complement pattern is `v` (`00_scope.md` R11). -/
def sext (w : Nat) (v : Nat) : Int := if v < 2 ^ (w - 1) then (v : Int) else (v : Int) - 2 ^ w

/-- `zext_w(v)`: the value itself (`00_scope.md` R11). -/
def zext (v : Nat) : Int := v

end Sys2Proof.Machine
end

