-- ==== Sys2Proof/Syntax.lean ====
section
/-! DEFINITION. The 22 commands of command set v1 with their operands, one constructor per row of the opcode table. -/

namespace Sys2Proof

/-- A CanIdentifier (`40_can_identifier.md` R100); operand type `CANID` (`30_encoding.md` R71). -/
structure CanId where
  priority : BitVec 3
  reservedBit : BitVec 1
  dataPage : BitVec 1
  pduFormat : Byte
  pduSpecific : Byte
  sourceAddress : Byte
deriving DecidableEq, Repr

/-- Operand type `PHYS` (`30_encoding.md` R71): the `known` byte and a binary64 pattern. The pattern is present, and
ignored, when `known` is 0. -/
structure Phys where
  known : Bool
  bits : BitVec 64
deriving DecidableEq, Repr

/-- Operand types `RAW8OPT`, `RAW16OPT`, `RAW32OPT` (`30_encoding.md` R71), by their width. -/
structure RawOpt (w : Nat) where
  known : Bool
  value : BitVec w
deriving DecidableEq, Repr

/-- Operand type `DESC` (`30_encoding.md` R71): the descriptor of `FENC` and `FDEC`, with `scale` and `offset` as binary64
patterns. `width` is a size, 1 to 64 in a well-formed command. -/
structure Desc where
  isSigned : Bool
  hasSentinel : Bool
  width : Nat
  scale : BitVec 64
  offset : BitVec 64
deriving DecidableEq, Repr

/-- One reference-station record of the `PENC.GNSS` request (`30_encoding.md` R77). -/
structure StationArg where
  tid : RawOpt 16
  age : RawOpt 16
deriving DecidableEq, Repr

/-- The operands of `PENC.GNSS` (`30_encoding.md` R77). The operand `nref` is the number of `stations`. -/
structure GnssArgs where
  sid : Byte
  date : RawOpt 16
  tod : Phys
  lat : Phys
  lon : Phys
  alt : Phys
  fixtype : BitVec 4
  method : BitVec 4
  integ : Byte
  numsv : RawOpt 8
  hdop : RawOpt 16
  pdop : RawOpt 16
  geoid : RawOpt 32
  stations : List StationArg
deriving DecidableEq, Repr

/-- A command with its operands: one constructor per row of `opcode_table.json` (`30_encoding.md` R73 to R80, R85). -/
inductive Instr where
  /-- `IDBUILD` 0x10 (R73) -/
  | idbuild (pgn : Pgn) (priority : BitVec 3) (sa da : Byte)
  /-- `IDPACK` 0x11 (R74) -/
  | idpack (id : CanId)
  /-- `IDPARSE` 0x12 (R74) -/
  | idparse (raw : Ident)
  /-- `IDPGN` 0x13 (R74) -/
  | idpgn (id : CanId)
  /-- `FENC` 0x20 (R75) -/
  | fenc (desc : Desc) (value : Phys)
  /-- `FDEC` 0x21 (R75) -/
  | fdec (desc : Desc) (raw : BitVec 64)
  /-- `BINS` 0x28 (R76) -/
  | bins (pos : BitVec 16) (width : Nat) (raw : BitVec 64) (buf : Packet)
  /-- `BEXT` 0x29 (R76) -/
  | bext (pos : BitVec 16) (width : Nat) (buf : Packet)
  /-- `PENC.POSR` 0x30 (R77) -/
  | pencPosr (lat lon : Phys)
  /-- `PENC.COGSOG` 0x31 (R77) -/
  | pencCogsog (sid ref : Byte) (cog sog : Phys)
  /-- `PENC.GNSS` 0x32 (R77) -/
  | pencGnss (args : GnssArgs)
  /-- `PENC.VPOS` 0x33 (R77) -/
  | pencVpos (lat lon : Phys)
  /-- `PENC.VDS` 0x34 (R77) -/
  | pencVds (bearing speed : Phys) (pitch alt : RawOpt 16)
  /-- `PDEC.POSR` 0x38 (R78) -/
  | pdecPosr (payload : Packet)
  /-- `PDEC.COGSOG` 0x39 (R78) -/
  | pdecCogsog (payload : Packet)
  /-- `PDEC.GNSS` 0x3A (R78) -/
  | pdecGnss (payload : Packet)
  /-- `PDEC.VPOS` 0x3B (R78) -/
  | pdecVpos (payload : Packet)
  /-- `PDEC.VDS` 0x3C (R78) -/
  | pdecVds (payload : Packet)
  /-- `FPTX` 0x40 (R79); the operand `L` is the length of `payload` -/
  | fptx (id : Ident) (seq : SeqCounter) (payload : Packet)
  /-- `FPRX` 0x41 (R79); `data` has 8 bytes and `dlc` is 0 to 8 in a well-formed command -/
  | fprx (id : Ident) (dlc : Nat) (data : Packet) (now : Ticks)
  /-- `FPTICK` 0x42 (R79) -/
  | fptick (now : Ticks)
  /-- `RDCNT` 0x50 (R80) -/
  | rdcnt
deriving DecidableEq, Repr

end Sys2Proof
end

