-- ==== Sys2Proof/Machine/Operands.lean ====
section
/-! DEFINITION. Operands: their legal ranges, the typed values they stand for, and the layout of result fields
(`30_encoding.md` R66, R71, R72, R86). -/

namespace Sys2Proof.Machine

open Sys2Proof.Config

/-! ### Typed values -/

/-- A known physical input: a rational or an infinity (`00_scope.md` R14). -/
inductive PhysInput where
  | rat (q : ℚ)
  | posInf
  | negInf
deriving DecidableEq, Repr

/-- A `PHYS` operand of a request as `opt (Q or +Inf or -Inf)` (`30_encoding.md` R72, `00_scope.md` R14): unknown when
`known` is 0 or the value is a NaN. -/
def physIn (p : Phys) : Option PhysInput :=
  if p.known then
    match f64val p.bits with
    | .nan => none
    | .posInf => some .posInf
    | .negInf => some .negInf
    | .rat q => some (.rat q)
  else none

/-- An unsigned `RAWnOPT` operand as `opt Z` (`30_encoding.md` R72). -/
def rawIn {w : Nat} (r : RawOpt w) : Option Int := if r.known then some (r.value.toNat : Int) else none

/-- A `RAWnOPT` operand of a signed field as `opt Z` (`30_encoding.md` R72). -/
def rawInSigned {w : Nat} (r : RawOpt w) : Option Int := if r.known then some (sext w r.value.toNat) else none

/-- An integer operand is passed to a field as the rational of the same value (`43_pgn_codecs.md` R167). -/
def intNum (k : Option Int) : Option PhysInput := k.map fun n => .rat (n : ℚ)

/-- A field descriptor (`30_encoding.md` R66). -/
structure FieldDesc where
  pos : Nat
  width : Nat
  scale : ℚ
  offset : ℚ
  unit : ℚ
  isSigned : Bool
  hasSentinel : Bool
deriving DecidableEq, Repr

/-- The rational of a finite binary64 pattern; 0 for the patterns a well-formed `DESC` does not hold. -/
def f64Rat (b : BitVec 64) : ℚ :=
  match f64val b with
  | .rat q => q
  | _ => 0

/-- A `DESC` operand as a descriptor, with `unit = 1` and no position (`30_encoding.md` R72). -/
def descField (d : Desc) : FieldDesc :=
  { pos := 0, width := d.width, scale := f64Rat d.scale, offset := f64Rat d.offset, unit := 1,
    isSigned := d.isSigned, hasSentinel := d.hasSentinel }

/-! ### Legal ranges (`30_encoding.md` R71, R86 (e)) -/

/-- `width` is 1 to 64. -/
def widthOk (w : Nat) : Bool := decide (1 ≤ w) && decide (w ≤ 64)

/-- A `raw` operand has no bit set at or above `width`. -/
def rawFits (width : Nat) (raw : BitVec 64) : Bool := decide (raw.toNat < 2 ^ width)

/-- A `BUF` operand holds at most 55 bytes. -/
def bufOk (buf : Packet) : Bool := decide (buf.length ≤ fpMaxLen)

/-- The value is finite. -/
def f64Finite (b : BitVec 64) : Bool := decide (f64Exp b ≠ 0x7FF)

/-- A `DESC` operand: `width` 1 to 64, `scale` finite and greater than 0, `offset` finite. -/
def descOk (d : Desc) : Bool :=
  widthOk d.width && (f64Finite d.scale && decide (0 < f64Rat d.scale)) && f64Finite d.offset

/-- R86 (f): an unknown value is offered only to a field that has a sentinel. -/
def fencKnown (d : Desc) (v : Phys) : Bool := d.hasSentinel || (physIn v).isSome

/-- `dlc` is 0 to 8 and the packet carries 8 data bytes (`30_encoding.md` R79). -/
def frameOk (dlc : Nat) (data : Packet) : Bool := decide (dlc ≤ 8) && decide (data.length = 8)

/-- A length carried in one byte: `L` of `FPTX`, `nref` of `PENC.GNSS` (`30_encoding.md` R89). -/
def countOk (n : Nat) : Bool := decide (n ≤ 255)

/-! ### Result fields (`30_encoding.md` R71, R72) -/

/-- A `U8`, `U16`, `U32`, `U64`, `ID32` or `PGN24` result in `n` little-endian bytes. -/
def natOut (n v : Nat) : Packet := leBytes n v

/-- A `CANID` result. -/
def canIdOut (c : CanId) : Packet :=
  natOut 1 c.priority.toNat ++ natOut 1 c.reservedBit.toNat ++ natOut 1 c.dataPage.toNat ++
    [c.pduFormat, c.pduSpecific, c.sourceAddress]

/-- A `PHYS` result: `none` gives `avail = 0` and eight zero bytes. -/
def physOut : Option ℚ → Packet
  | none => 0x00#8 :: leBytes 8 0
  | some q => 0x01#8 :: leBytes 8 (f64OfRat q).toNat

/-- A `RAWnOPT` result of `n` value bytes: `none` gives `avail = 0` and zero bytes. -/
def rawOut (n : Nat) : Option Int → Packet
  | none => 0x00#8 :: leBytes n 0
  | some k => 0x01#8 :: leBytes n (tc (8 * n) k)

/-- A `BUF` result: the length byte and the bytes. -/
def bufOut (B : Packet) : Packet := BitVec.ofNat 8 B.length :: B

/-- A count reported in a `U16`, saturated at 65535 (`10_state.md` R27, `30_encoding.md` R79). -/
def sat16 (n : Nat) : Nat := min n 65535

end Sys2Proof.Machine
end

