-- ==== Sys2Proof/WellFormed.lean ====
section
/-! DEFINITION. Which commands are well formed: the operand ranges of `30_encoding.md` R86 (e) and (f) that the operand
types do not already say. -/

namespace Sys2Proof

open Sys2Proof.Machine

/-- The operands are in the ranges their format states (`30_encoding.md` R71, R86 (e) and (f)). Each check is a named
function of `Machine/Operands.lean`. -/
def Instr.wellFormed : Instr → Bool
  | .idbuild _ _ _ _ => true
  | .idpack _ => true
  | .idparse _ => true
  | .idpgn _ => true
  | .fenc desc value => descOk desc && fencKnown desc value
  | .fdec desc raw => descOk desc && rawFits desc.width raw
  | .bins _ width raw buf => widthOk width && rawFits width raw && bufOk buf
  | .bext _ width buf => widthOk width && bufOk buf
  | .pencPosr _ _ => true
  | .pencCogsog _ _ _ _ => true
  | .pencGnss args => countOk args.stations.length
  | .pencVpos _ _ => true
  | .pencVds _ _ _ _ => true
  | .pdecPosr payload => bufOk payload
  | .pdecCogsog payload => bufOk payload
  | .pdecGnss payload => bufOk payload
  | .pdecVpos payload => bufOk payload
  | .pdecVds payload => bufOk payload
  | .fptx _ _ payload => countOk payload.length
  | .fprx _ dlc data _ => frameOk dlc data
  | .fptick _ => true
  | .rdcnt => true

end Sys2Proof
end

