-- ==== Sys2Proof/Decode.lean ====
section
/-! DEFINITION. The decoder of request packets, total on every byte string and rejecting by name, and after it the
encoder (`30_encoding.md` Part B). A decoder is written operand by operand in the order of its format table, so the
offsets of R73 to R80 are the running sums of the operand sizes. -/

namespace Sys2Proof

open Sys2Proof.Machine

/-- Why a byte string is not a command. Every reason is answered `IllegalCommand` (`30_encoding.md` R86); the names are
the items of that rule. -/
inductive Reject where
  /-- (a) the empty byte string -/
  | emptyRequest
  /-- (b) byte 0 is none of the 22 opcodes -/
  | unknownOpcode (op : Byte)
  /-- (c) fewer bytes than the format gives -/
  | tooShort
  /-- (c) more bytes than the format gives -/
  | trailingBytes
  /-- (d), (e) a bit that must be 0 is set: the operand does not fit its width -/
  | reservedBits
  /-- (e), (f) an operand is outside the range its format states -/
  | operandRange
deriving DecidableEq, Repr

/-! ### Operand readers: each answers the operand and the bytes after it -/

/-- A little-endian operand of `n` bytes whose value is below `2^w`; the bits at and above `w` must be 0
(`30_encoding.md` R70, R71). -/
def readBits (n w : Nat) (bs : Packet) : Except Reject (BitVec w × Packet) :=
  if bs.length < n then .error .tooShort
  else if ofLe (bs.take n) < 2 ^ w then .ok (BitVec.ofNat w (ofLe (bs.take n)), bs.drop n)
  else .error .reservedBits

/-- A one-byte size: `width`, `dlc`, and the length bytes of R89. -/
def readNat (bs : Packet) : Except Reject (Nat × Packet) := do
  let (b, bs) ← readBits 1 8 bs
  .ok (b.toNat, bs)

/-- A `known` byte: 0 or 1 (R71). -/
def readFlag (bs : Packet) : Except Reject (Bool × Packet) := do
  let (b, bs) ← readBits 1 1 bs
  .ok (b == 1#1, bs)

/-- `n` bytes as they stand. -/
def readBytes (n : Nat) (bs : Packet) : Except Reject (Packet × Packet) :=
  if bs.length < n then .error .tooShort else .ok (bs.take n, bs.drop n)

/-- Operand type `CANID` (R71). -/
def readCanId (bs : Packet) : Except Reject (CanId × Packet) := do
  let (priority, bs) ← readBits 1 3 bs
  let (reservedBit, bs) ← readBits 1 1 bs
  let (dataPage, bs) ← readBits 1 1 bs
  let (pduFormat, bs) ← readBits 1 8 bs
  let (pduSpecific, bs) ← readBits 1 8 bs
  let (sourceAddress, bs) ← readBits 1 8 bs
  .ok (⟨priority, reservedBit, dataPage, pduFormat, pduSpecific, sourceAddress⟩, bs)

/-- Operand type `PHYS` (R71). -/
def readPhys (bs : Packet) : Except Reject (Phys × Packet) := do
  let (known, bs) ← readFlag bs
  let (bits, bs) ← readBits 8 64 bs
  .ok (⟨known, bits⟩, bs)

/-- Operand types `RAW8OPT`, `RAW16OPT`, `RAW32OPT` (R71), by their number of value bytes. -/
def readRaw (n : Nat) (bs : Packet) : Except Reject (RawOpt (8 * n) × Packet) := do
  let (known, bs) ← readFlag bs
  let (value, bs) ← readBits n (8 * n) bs
  .ok (⟨known, value⟩, bs)

/-- Operand type `DESC` (R71): `flags` bit 0 is `signed`, bit 1 `has_sentinel`, bits 7:2 must be 0. -/
def readDesc (bs : Packet) : Except Reject (Desc × Packet) := do
  let (flags, bs) ← readBits 1 2 bs
  let (width, bs) ← readNat bs
  let (scale, bs) ← readBits 8 64 bs
  let (offset, bs) ← readBits 8 64 bs
  .ok (⟨flags.getLsbD 0, flags.getLsbD 1, width, scale, offset⟩, bs)

/-- Operand type `BUF` (R71): a length byte and so many bytes. -/
def readBuf (bs : Packet) : Except Reject (Packet × Packet) := do
  let (n, bs) ← readNat bs
  readBytes n bs

/-- `n` station records of `PENC.GNSS` (R77). -/
def readStations : Nat → Packet → Except Reject (List StationArg × Packet)
  | 0, bs => .ok ([], bs)
  | n + 1, bs => do
    let (tid, bs) ← readRaw 2 bs
    let (age, bs) ← readRaw 2 bs
    let (rest, bs) ← readStations n bs
    .ok (⟨tid, age⟩ :: rest, bs)

/-- The operands of `PENC.GNSS` (R77). -/
def readGnss (bs : Packet) : Except Reject (GnssArgs × Packet) := do
  let (sid, bs) ← readBits 1 8 bs
  let (date, bs) ← readRaw 2 bs
  let (tod, bs) ← readPhys bs
  let (lat, bs) ← readPhys bs
  let (lon, bs) ← readPhys bs
  let (alt, bs) ← readPhys bs
  let (fixtype, bs) ← readBits 1 4 bs
  let (method, bs) ← readBits 1 4 bs
  let (integ, bs) ← readBits 1 8 bs
  let (numsv, bs) ← readRaw 1 bs
  let (hdop, bs) ← readRaw 2 bs
  let (pdop, bs) ← readRaw 2 bs
  let (geoid, bs) ← readRaw 4 bs
  let (nref, bs) ← readNat bs
  let (stations, bs) ← readStations nref bs
  .ok (⟨sid, date, tod, lat, lon, alt, fixtype, method, integ, numsv, hdop, pdop, geoid, stations⟩, bs)

/-! ### The formats -/

/-- The end of a request: no byte is left (R86 (c)) and the operands are in range (R86 (e), (f)). -/
def finish (i : Instr) (bs : Packet) : Except Reject Instr :=
  if bs.isEmpty then
    if i.wellFormed then .ok i else .error .operandRange
  else .error .trailingBytes

/-- Format `B`, `IDBUILD` (R73). -/
def readIdbuild (bs : Packet) : Except Reject Instr := do
  let (pgn, bs) ← readBits 3 17 bs
  let (priority, bs) ← readBits 1 3 bs
  let (sa, bs) ← readBits 1 8 bs
  let (da, bs) ← readBits 1 8 bs
  finish (.idbuild pgn priority sa da) bs

/-- Format `C`, `IDPACK` and `IDPGN` (R74). -/
def readFormatC (make : CanId → Instr) (bs : Packet) : Except Reject Instr := do
  let (id, bs) ← readCanId bs
  finish (make id) bs

/-- Format `I`, `IDPARSE` (R74). -/
def readIdparse (bs : Packet) : Except Reject Instr := do
  let (raw, bs) ← readBits 4 29 bs
  finish (.idparse raw) bs

/-- Format `F`, `FENC` (R75). -/
def readFenc (bs : Packet) : Except Reject Instr := do
  let (desc, bs) ← readDesc bs
  let (value, bs) ← readPhys bs
  finish (.fenc desc value) bs

/-- Format `G`, `FDEC` (R75). -/
def readFdec (bs : Packet) : Except Reject Instr := do
  let (desc, bs) ← readDesc bs
  let (raw, bs) ← readBits 8 64 bs
  finish (.fdec desc raw) bs

/-- Format `P`, `BINS` (R76). -/
def readBins (bs : Packet) : Except Reject Instr := do
  let (pos, bs) ← readBits 2 16 bs
  let (width, bs) ← readNat bs
  let (raw, bs) ← readBits 8 64 bs
  let (buf, bs) ← readBuf bs
  finish (.bins pos width raw buf) bs

/-- Format `Q`, `BEXT` (R76). -/
def readBext (bs : Packet) : Except Reject Instr := do
  let (pos, bs) ← readBits 2 16 bs
  let (width, bs) ← readNat bs
  let (buf, bs) ← readBuf bs
  finish (.bext pos width buf) bs

/-- Formats `E1` and `E4`, `PENC.POSR` and `PENC.VPOS` (R77). -/
def readTwoPhys (make : Phys → Phys → Instr) (bs : Packet) : Except Reject Instr := do
  let (lat, bs) ← readPhys bs
  let (lon, bs) ← readPhys bs
  finish (make lat lon) bs

/-- Format `E2`, `PENC.COGSOG` (R77). -/
def readCogsog (bs : Packet) : Except Reject Instr := do
  let (sid, bs) ← readBits 1 8 bs
  let (ref, bs) ← readBits 1 8 bs
  let (cog, bs) ← readPhys bs
  let (sog, bs) ← readPhys bs
  finish (.pencCogsog sid ref cog sog) bs

/-- Format `E3`, `PENC.GNSS` (R77). -/
def readPencGnss (bs : Packet) : Except Reject Instr := do
  let (args, bs) ← readGnss bs
  finish (.pencGnss args) bs

/-- Format `E5`, `PENC.VDS` (R77). -/
def readVds (bs : Packet) : Except Reject Instr := do
  let (bearing, bs) ← readPhys bs
  let (speed, bs) ← readPhys bs
  let (pitch, bs) ← readRaw 2 bs
  let (alt, bs) ← readRaw 2 bs
  finish (.pencVds bearing speed pitch alt) bs

/-- Format `D`, the five payload decoders (R78). -/
def readPayload (make : Packet → Instr) (bs : Packet) : Except Reject Instr := do
  let (payload, bs) ← readBuf bs
  finish (make payload) bs

/-- Format `T`, `FPTX` (R79). -/
def readFptx (bs : Packet) : Except Reject Instr := do
  let (id, bs) ← readBits 4 29 bs
  let (seq, bs) ← readBits 1 5 bs
  let (payload, bs) ← readBuf bs
  finish (.fptx id seq payload) bs

/-- Format `R`, `FPRX` (R79). -/
def readFprx (bs : Packet) : Except Reject Instr := do
  let (id, bs) ← readBits 4 29 bs
  let (dlc, bs) ← readNat bs
  let (data, bs) ← readBytes 8 bs
  let (now, bs) ← readBits 8 64 bs
  finish (.fprx id dlc data now) bs

/-- Format `K`, `FPTICK` (R79). -/
def readFptick (bs : Packet) : Except Reject Instr := do
  let (now, bs) ← readBits 8 64 bs
  finish (.fptick now) bs

/-- The operands of the command that opcode `op` selects (R85): only the 22 exact values are commands. -/
def decodeOperands (op : Byte) (bs : Packet) : Except Reject Instr :=
  match op.toNat with
  | 0x10 => readIdbuild bs
  | 0x11 => readFormatC .idpack bs
  | 0x12 => readIdparse bs
  | 0x13 => readFormatC .idpgn bs
  | 0x20 => readFenc bs
  | 0x21 => readFdec bs
  | 0x28 => readBins bs
  | 0x29 => readBext bs
  | 0x30 => readTwoPhys .pencPosr bs
  | 0x31 => readCogsog bs
  | 0x32 => readPencGnss bs
  | 0x33 => readTwoPhys .pencVpos bs
  | 0x34 => readVds bs
  | 0x38 => readPayload .pdecPosr bs
  | 0x39 => readPayload .pdecCogsog bs
  | 0x3A => readPayload .pdecGnss bs
  | 0x3B => readPayload .pdecVpos bs
  | 0x3C => readPayload .pdecVds bs
  | 0x40 => readFptx bs
  | 0x41 => readFprx bs
  | 0x42 => readFptick bs
  | 0x50 => finish .rdcnt bs
  | _ => .error (.unknownOpcode op)

/-- The command a request packet spells, or why it spells none (`30_encoding.md` R70, R86): total on byte strings. -/
def decode : Packet → Except Reject Instr
  | [] => .error .emptyRequest
  | op :: bs => decodeOperands op bs

/-! ### The encoder -/

/-- Byte 0 of a command's request (R85). -/
def opcode : Instr → Byte
  | .idbuild .. => 0x10#8
  | .idpack .. => 0x11#8
  | .idparse .. => 0x12#8
  | .idpgn .. => 0x13#8
  | .fenc .. => 0x20#8
  | .fdec .. => 0x21#8
  | .bins .. => 0x28#8
  | .bext .. => 0x29#8
  | .pencPosr .. => 0x30#8
  | .pencCogsog .. => 0x31#8
  | .pencGnss .. => 0x32#8
  | .pencVpos .. => 0x33#8
  | .pencVds .. => 0x34#8
  | .pdecPosr .. => 0x38#8
  | .pdecCogsog .. => 0x39#8
  | .pdecGnss .. => 0x3A#8
  | .pdecVpos .. => 0x3B#8
  | .pdecVds .. => 0x3C#8
  | .fptx .. => 0x40#8
  | .fprx .. => 0x41#8
  | .fptick .. => 0x42#8
  | .rdcnt => 0x50#8

/-- An operand in `n` little-endian bytes (R70). -/
def writeBits (n : Nat) {w : Nat} (v : BitVec w) : Packet := leBytes n v.toNat

/-- A one-byte size. -/
def writeNat (n : Nat) : Packet := leBytes 1 n

/-- A `known` byte (R71). -/
def writeFlag (b : Bool) : Packet := leBytes 1 b.toNat

/-- Operand type `CANID` (R71). -/
def writeCanId (c : CanId) : Packet :=
  writeBits 1 c.priority ++ writeBits 1 c.reservedBit ++ writeBits 1 c.dataPage ++ writeBits 1 c.pduFormat ++
    writeBits 1 c.pduSpecific ++ writeBits 1 c.sourceAddress

/-- Operand type `PHYS` (R71). -/
def writePhys (p : Phys) : Packet := writeFlag p.known ++ writeBits 8 p.bits

/-- Operand types `RAW8OPT`, `RAW16OPT`, `RAW32OPT` (R71), by their number of value bytes. -/
def writeRaw (n : Nat) (r : RawOpt (8 * n)) : Packet := writeFlag r.known ++ writeBits n r.value

/-- Operand type `DESC` (R71). -/
def writeDesc (d : Desc) : Packet :=
  leBytes 1 (d.isSigned.toNat + 2 * d.hasSentinel.toNat) ++ writeNat d.width ++ writeBits 8 d.scale ++
    writeBits 8 d.offset

/-- Operand type `BUF` (R71). -/
def writeBuf (buf : Packet) : Packet := writeNat buf.length ++ buf

/-- The station records of `PENC.GNSS` (R77). -/
def writeStations : List StationArg → Packet
  | [] => []
  | st :: rest => writeRaw 2 st.tid ++ writeRaw 2 st.age ++ writeStations rest

/-- The operands of `PENC.GNSS` (R77). -/
def writeGnss (a : GnssArgs) : Packet :=
  writeBits 1 a.sid ++ writeRaw 2 a.date ++ writePhys a.tod ++ writePhys a.lat ++ writePhys a.lon ++ writePhys a.alt ++
    writeBits 1 a.fixtype ++ writeBits 1 a.method ++ writeBits 1 a.integ ++ writeRaw 1 a.numsv ++ writeRaw 2 a.hdop ++
    writeRaw 2 a.pdop ++ writeRaw 4 a.geoid ++ writeNat a.stations.length ++ writeStations a.stations

/-- The bytes of a command's operands, in the order of its format table (R73 to R80). -/
def encodeOperands : Instr → Packet
  | .idbuild pgn priority sa da => writeBits 3 pgn ++ writeBits 1 priority ++ writeBits 1 sa ++ writeBits 1 da
  | .idpack id => writeCanId id
  | .idparse raw => writeBits 4 raw
  | .idpgn id => writeCanId id
  | .fenc desc value => writeDesc desc ++ writePhys value
  | .fdec desc raw => writeDesc desc ++ writeBits 8 raw
  | .bins pos width raw buf => writeBits 2 pos ++ writeNat width ++ writeBits 8 raw ++ writeBuf buf
  | .bext pos width buf => writeBits 2 pos ++ writeNat width ++ writeBuf buf
  | .pencPosr lat lon => writePhys lat ++ writePhys lon
  | .pencCogsog sid ref cog sog => writeBits 1 sid ++ writeBits 1 ref ++ writePhys cog ++ writePhys sog
  | .pencGnss args => writeGnss args
  | .pencVpos lat lon => writePhys lat ++ writePhys lon
  | .pencVds bearing speed pitch alt => writePhys bearing ++ writePhys speed ++ writeRaw 2 pitch ++ writeRaw 2 alt
  | .pdecPosr payload => writeBuf payload
  | .pdecCogsog payload => writeBuf payload
  | .pdecGnss payload => writeBuf payload
  | .pdecVpos payload => writeBuf payload
  | .pdecVds payload => writeBuf payload
  | .fptx id seq payload => writeBits 4 id ++ writeBits 1 seq ++ writeBuf payload
  | .fprx id dlc data now => writeBits 4 id ++ writeNat dlc ++ data ++ writeBits 8 now
  | .fptick now => writeBits 8 now
  | .rdcnt => []

/-- The request packet of a command (`30_encoding.md` R70, R73 to R80). -/
def encode (i : Instr) : Packet := opcode i :: encodeOperands i

/-! ### The length of a request -/

/-- The length that the format of the request's opcode gives (R73 to R80), read with R89 from the byte at `at_ k` for the
five variable-length formats; `none` for the opcodes that select no command. -/
def requestLength (at_ : Nat → Nat) : Option Nat :=
  match at_ 0 with
  | 0x10 => some 7
  | 0x11 => some 7
  | 0x12 => some 5
  | 0x13 => some 7
  | 0x20 => some 28
  | 0x21 => some 27
  | 0x28 => some (13 + at_ 12)
  | 0x29 => some (5 + at_ 4)
  | 0x30 => some 19
  | 0x31 => some 21
  | 0x32 => some (58 + 6 * at_ 57)
  | 0x33 => some 19
  | 0x34 => some 25
  | 0x38 => some (2 + at_ 1)
  | 0x39 => some (2 + at_ 1)
  | 0x3A => some (2 + at_ 1)
  | 0x3B => some (2 + at_ 1)
  | 0x3C => some (2 + at_ 1)
  | 0x40 => some (7 + at_ 6)
  | 0x41 => some 22
  | 0x42 => some 9
  | 0x50 => some 1
  | _ => none

/-- The request whose bits are `w` in the numbering of `opcode_table.json` (the first byte holds bits 7..0), with every
bit at and above `nbits` zero, as long as its format gives (assumption 9). -/
def tableRequest (nbits w : Nat) : Packet :=
  let v := w % 2 ^ nbits
  match requestLength fun k => v / 256 ^ k % 256 with
  | some n => leBytes (max n (nbits / 8)) v
  | none => leBytes (nbits / 8) v

/-- The command the decoder reads from that request. -/
def decodeTableWord (nbits w : Nat) : Option Instr :=
  match decode (tableRequest nbits w) with
  | .ok i => some i
  | .error _ => none

end Sys2Proof
end

