-- ==== Sys2Proof/Machine/Flags.lean ====
section
/-! DEFINITION. The outcome codes of responses. The block keeps no flag between commands (`10_state.md` R22); what a
processor would put in flags is the status byte and, for `FPRX`, the disposition byte of each response. -/

namespace Sys2Proof.Machine

/-- The statuses (`60_exceptions.md` R260). `outOfSequence` and `sessionTimeout` are kinds of the source that no command
ever returns (R264); they are here for the correspondence with it. -/
inductive Status where
  | ok
  | invalidAddressing
  | malformedPayload
  | payloadTooLarge
  | outOfSequence
  | sessionTimeout
  | illegalCommand
deriving DecidableEq, Repr

/-- The status byte (`60_exceptions.md` R260). -/
def statusCode : Status → Byte
  | .ok => 0x00#8
  | .invalidAddressing => 0x01#8
  | .malformedPayload => 0x02#8
  | .payloadTooLarge => 0x03#8
  | .outOfSequence => 0x04#8
  | .sessionTimeout => 0x05#8
  | .illegalCommand => 0x7F#8

/-- What `FPRX` did with a frame (`44_fast_packet.md` R210). -/
inductive Disposition where
  | accepted
  | complete
  | dropOutOfSequence
  | dropNoSession
  | dropBadDlc
  | dropBadLen
  | dropIndexRange
  | dropDuplicate
  | dropTableFull
deriving DecidableEq, Repr

/-- The disposition byte (`44_fast_packet.md` R210). -/
def dispositionCode : Disposition → Byte
  | .accepted => 0x00#8
  | .complete => 0x01#8
  | .dropOutOfSequence => 0x10#8
  | .dropNoSession => 0x11#8
  | .dropBadDlc => 0x12#8
  | .dropBadLen => 0x13#8
  | .dropIndexRange => 0x14#8
  | .dropDuplicate => 0x15#8
  | .dropTableFull => 0x16#8

/-- Whether the disposition is one of the `DROP_*` values, which count in `DROPPED` (`10_state.md` R26). -/
def isDrop : Disposition → Bool
  | .accepted => false
  | .complete => false
  | .dropOutOfSequence => true
  | .dropNoSession => true
  | .dropBadDlc => true
  | .dropBadLen => true
  | .dropIndexRange => true
  | .dropDuplicate => true
  | .dropTableFull => true

end Sys2Proof.Machine
end

