-- ==== Sys2Proof/Machine/State.lean ====
section
/-! DEFINITION. The state of the machine, the reasons a step can stop, and the state after reset. -/

namespace Sys2Proof.Machine

/-- A reassembly session (`10_state.md` R24). -/
structure Session where
  /-- the packed identifier the session belongs to: the key of the table -/
  key : Ident
  /-- the sequence counter of the frame 0 that opened it -/
  seq : SeqCounter
  /-- the length `L` of that frame 0 -/
  len : Byte
  /-- bit `i` is 1 exactly when frame index `i` has been stored -/
  seen : BitVec 8
  /-- 55 bytes; `buf[p]` is payload byte `p` once the frame that carries it has been stored -/
  buf : Packet
  /-- the time of the last command that stored a frame into it -/
  last : Ticks
deriving DecidableEq, Repr

/-- One action of the host (`00_scope.md` R18): to present a request packet, or to apply reset between commands
(`70_reset_and_hazards.md` R301). -/
inductive HostAction where
  | request (packet : Packet)
  | reset
deriving DecidableEq, Repr

/-- Reasons for a step to stop with a fault: there are none. The spec gives every command, in every state, a response
(`20_memory.md` R54, `93_implementation_defined.md` Part 1), so no rule of the model raises a fault. -/
inductive Fault where
deriving DecidableEq, Repr

/-- Reasons for an instruction to have no meaning. -/
inductive Refusal where
  /-- Raised by an arm of `exec` for an instruction that has no meaning yet; safe, because no claim is made about it. No
  arm of this model raises it. -/
  | notModelled (mnemonic : String)
deriving DecidableEq, Repr

/-- The state. `sess` and `dropped` are the block's whole state (`10_state.md` R23 to R28). The other three fields are the
model's own: the two packet streams between host and block (assumption 3) and the counter that numbers the session buffers for
their free values (assumption 2). -/
structure State where
  /-- `SESS`: the reassembly table, a finite map kept as the list of its sessions in strictly rising order of key
  (assumption 4) -/
  sess : List Session
  /-- `DROPPED`: the counter of received frames that `FPRX` discarded -/
  dropped : BitVec 32
  /-- what the host will do, next action first -/
  inbox : List HostAction
  /-- the responses given so far, the latest last -/
  responses : List Packet
  /-- how many session buffers have been opened -/
  opened : Nat
deriving DecidableEq, Repr

/-- The machine after reset (`10_state.md` R32, `70_reset_and_hazards.md` R300): no session and a zero counter. The host has
lined up nothing and has been given nothing, and no session buffer has been opened (assumptions 2 and 3). -/
def State.reset : State := { sess := [], dropped := 0#32, inbox := [], responses := [], opened := 0 }

end Sys2Proof.Machine
end

