-- ==== Sys2Proof/Machine/Ops.lean ====
section
/-! DEFINITION. The named operations over the state: answering a command, failing, dropping a frame, the session table,
the expiry sweep and reset. -/

namespace Sys2Proof.Machine

open Sys2Proof.Config

/-! ### Responses -/

/-- The block gives a response. -/
def State.respond (s : State) (p : Packet) : State := { s with responses := s.responses ++ [p] }

/-- `raise <Kind>` (`00_scope.md` R16): the shared entry of every failure. The response is the one status byte and nothing
else happens: nothing is saved, no state changes, and the block is ready for the next command (`60_exceptions.md` R267,
R273, R274). There is no return from a failure, because nothing was entered (R275). -/
def State.raise (s : State) (st : Status) : State := s.respond [statusCode st]

/-- `return <fields>` (`00_scope.md` R16): status `OK` and the result fields. -/
def State.returnOk (s : State) (fields : Packet) : State := s.respond (statusCode .ok :: fields)

/-- One command gives exactly one response (`00_scope.md` R16). -/
def State.answer (s : State) : Except Status Packet → State
  | .ok fields => s.returnOk fields
  | .error st => s.raise st

/-! ### The session table `SESS` (`10_state.md` R23) -/

/-- The key order of the table's canonical form: strictly rising keys, so at most one session per key and one list per
map. -/
def tableWf (t : List Session) : Bool := decide (t.Pairwise fun a b => a.key < b.key)

/-- `SESS[k]`, or `none` when `k` is not in `dom(SESS)`. -/
def lookupSession (k : Ident) : List Session → Option Session
  | [] => none
  | x :: t => if x.key = k then some x else lookupSession k t

/-- `delete SESS[k]`. -/
def deleteSession (k : Ident) (t : List Session) : List Session := t.filter fun x => !decide (x.key = k)

/-- `SESS[s.key] <- s`: creates the session or replaces the old one of its key. -/
def storeSession (sn : Session) : List Session → List Session
  | [] => [sn]
  | x :: t =>
    if sn.key < x.key then sn :: x :: t
    else if sn.key = x.key then sn :: t
    else x :: storeSession sn t

/-- Whether `n` sessions fill the table (`44_fast_packet.md` R217); never when `FP_SESSIONS` is `unbounded`. -/
def tableFull (c : Params) (n : Nat) : Bool :=
  match c.fpSessions with
  | none => false
  | some cap => decide (cap ≤ n)

/-! ### Time and the expiry sweep (`44_fast_packet.md` R213) -/

/-- The age of a session; 0 when the host's time went backwards. -/
def age (now last : Ticks) : Nat := if last.toNat ≤ now.toNat then now.toNat - last.toNat else 0

/-- A session is removed when more than `FP_TIMEOUT` ticks have passed since a frame was last stored into it. -/
def expired (c : Params) (now : Ticks) (sn : Session) : Bool := decide (c.fpTimeout < age now sn.last)

/-- The table after `sweep(now)`. -/
def sweep (c : Params) (now : Ticks) (t : List Session) : List Session := t.filter fun x => !expired c now x

/-- `nexp`: how many sessions `sweep(now)` removes. -/
def sweepCount (c : Params) (now : Ticks) (t : List Session) : Nat := t.countP (expired c now)

/-- The sweep as the first action of `FPRX` and `FPTICK`. -/
def State.sweep (c : Params) (now : Ticks) (s : State) : State := { s with sess := Machine.sweep c now s.sess }

/-! ### The counter `DROPPED` (`10_state.md` R26) -/

/-- `min(DROPPED + 1, 2^32 - 1)`. -/
def bump (d : BitVec 32) : BitVec 32 := if d = 0xFFFFFFFF#32 then d else d + 1#32

/-- The effect of `drop <Reason>` on the state (`44_fast_packet.md` R210). -/
def State.countDrop (s : State) : State := { s with dropped := bump s.dropped }

/-- `ACTIVE` (`10_state.md` R27), before saturation: the number of sessions present. -/
def State.active (s : State) : Nat := s.sess.length

/-! ### Reset and the host's actions -/

/-- Reset, an action of the host between commands (`70_reset_and_hazards.md` R301, R302): the block's state becomes that of
R300 whatever it was, every partly reassembled message is lost silently, and no response is given. The streams are the
host's, and the buffers already numbered keep their numbers (assumption 10). -/
def State.applyReset (s : State) : State := { s with sess := State.reset.sess, dropped := State.reset.dropped }

/-- The state with the host's first action taken from its stream. -/
def State.popInbox (s : State) : State := { s with inbox := s.inbox.tail }

/-- The state with one more action put first in the host's stream. -/
def State.pushInbox (s : State) (a : HostAction) : State := { s with inbox := a :: s.inbox }

end Sys2Proof.Machine
end

