-- ==== Sys2Proof/Machine/Scaler.lean ====
section
/-! DEFINITION. The Fixed-Point Field Codec: `fenc` and `fdec`, and the commands `FENC` and `FDEC` (`41_field_scaler.md`). A
code is a natural number below `2^width`. -/

namespace Sys2Proof.Machine

open Sys2Proof.Config

/-- `lo(d)` (`41_field_scaler.md` R122). -/
def loOf (d : FieldDesc) : Int := if d.isSigned then -(2 ^ (d.width - 1)) else 0

/-- `top(d)` (`41_field_scaler.md` R122). -/
def topOf (d : FieldDesc) : Int := if d.isSigned then 2 ^ (d.width - 1) - 1 else 2 ^ d.width - 1

/-- `hi(d)` (`41_field_scaler.md` R122): one short of the sentinel when the field has one. -/
def hiOf (d : FieldDesc) : Int := if d.hasSentinel then topOf d - 1 else topOf d

/-- `sent(d)`, the sentinel code (`41_field_scaler.md` R121). -/
def sentinel (d : FieldDesc) : Nat := if d.isSigned then 2 ^ (d.width - 1) - 1 else 2 ^ d.width - 1

/-- The exact quotient that the scaler rounds (`41_field_scaler.md` R123). -/
def quotient (d : FieldDesc) (q : ℚ) : ℚ := (q * d.unit - d.offset) / d.scale

/-- The integer that `fenc` chooses for a known value (`41_field_scaler.md` R123, R124). -/
def fencInt (ties : RoundTies) (d : FieldDesc) : PhysInput → Int
  | .posInf => hiOf d
  | .negInf => loOf d
  | .rat q => clamp (roundTo ties (quotient d q)) (loOf d) (hiOf d)

/-- The code of an integer in the field's range (`41_field_scaler.md` R123). -/
def codeOf (d : FieldDesc) (k : Int) : Nat := if d.isSigned then tc d.width k else k.toNat

/-- `fenc(d, v)` (`41_field_scaler.md` R123). -/
def fenc (ties : RoundTies) (d : FieldDesc) : Option PhysInput → Nat
  | none => sentinel d
  | some v => codeOf d (fencInt ties d v)

/-- The integer that a code stands for, or `none` for the sentinel (`41_field_scaler.md` R125): the sentinel is recognised
before scale and offset are applied. -/
def fdecInt (d : FieldDesc) (c : Nat) : Option Int :=
  if d.hasSentinel && decide (c = sentinel d) then none
  else some (if d.isSigned then sext d.width c else zext c)

/-- The physical value of an integer code (`41_field_scaler.md` R125). -/
def unscale (d : FieldDesc) (k : Int) : ℚ := ((k : ℚ) * d.scale + d.offset) / d.unit

/-- `fdec(d, c)` (`41_field_scaler.md` R125). -/
def fdec (d : FieldDesc) (c : Nat) : Option ℚ := (fdecInt d c).map (unscale d)

/-- The command `FENC` on typed values (R123). -/
def fencCommand (ties : RoundTies) (d : FieldDesc) (v : Option PhysInput) : Except Status Nat :=
  if v.isNone && !d.hasSentinel then .error .illegalCommand else .ok (fenc ties d v)

/-- `FENC` (R123, R75). -/
def execFenc (desc : Desc) (value : Phys) (s : State) : Host.Outcome State Fault Refusal :=
  .next (s.answer ((fencCommand params.roundTies (descField desc) (physIn value)).map (natOut 8)))

/-- `FDEC` (R125, R75). -/
def execFdec (desc : Desc) (raw : BitVec 64) (s : State) : Host.Outcome State Fault Refusal :=
  .next (s.returnOk (physOut (fdec (descField desc) raw.toNat)))

end Sys2Proof.Machine
end

