-- ==== Sys2Proof/Machine/BitPacker.lean ====
section
/-! DEFINITION. The payload bit-packer: `BitRead`, `BitWrite`, the field accesses, and the commands `BINS` and `BEXT`
(`42_bit_packer.md`). -/

namespace Sys2Proof.Machine

open Sys2Proof.Config

/-- Bit position `n` of a buffer: bit `n mod 8` of byte `n div 8` (`42_bit_packer.md` R140). -/
def getBit (B : Packet) (n : Nat) : Bool := (B.getD (n / 8) 0#8).getLsbD (n % 8)

/-- The byte with its bit `i` set to `v`. -/
def byteWithBit (b : Byte) (i : Nat) (v : Bool) : Byte := if v then b ||| 1#8 <<< i else b &&& ~~~(1#8 <<< i)

/-- The buffer with bit position `n` set to `v`, of the same length. -/
def setBit (B : Packet) (n : Nat) (v : Bool) : Packet :=
  B.set (n / 8) (byteWithBit (B.getD (n / 8) 0#8) (n % 8) v)

/-- `BitRead(B, p, w)` (`42_bit_packer.md` R140): the sum of the field's bits, each at its place. -/
def bitRead (B : Packet) (p : Nat) : Nat → Nat
  | 0 => 0
  | w + 1 => bitRead B p w + (getBit B (p + w)).toNat * 2 ^ w

/-- `BitWrite(B, p, w, v)` (`42_bit_packer.md` R141): bit `i` of `v` to position `p + i`, for each `i < w`. -/
def bitWrite (B : Packet) (p : Nat) : Nat → Nat → Packet
  | 0, _ => B
  | w + 1, v => setBit (bitWrite B p w v) (p + w) (v.testBit w)

/-- `put(B, d, v)` (`42_bit_packer.md` R144). -/
def putField (ties : RoundTies) (B : Packet) (d : FieldDesc) (v : Option PhysInput) : Packet :=
  bitWrite B d.pos d.width (fenc ties d v)

/-- `get(B, d)` (`42_bit_packer.md` R144). -/
def getField (B : Packet) (d : FieldDesc) : Option ℚ := fdec d (bitRead B d.pos d.width)

/-- `get(B, d)` for a field that holds an integer code (scale 1, offset 0, unit 1; `43_pgn_codecs.md` R153, R168). -/
def getInt (B : Packet) (d : FieldDesc) : Option Int := (getField B d).map fun q => ⌊q⌋

/-- `putraw(B, d, c)` (`42_bit_packer.md` R144). -/
def putRaw (B : Packet) (d : FieldDesc) (c : Nat) : Packet := bitWrite B d.pos d.width c

/-- `getraw(B, d)` (`42_bit_packer.md` R144). -/
def getRaw (B : Packet) (d : FieldDesc) : Nat := bitRead B d.pos d.width

/-- Whether the field lies wholly inside the buffer (`42_bit_packer.md` R142, R143). -/
def fieldInside (pos width : Nat) (buf : Packet) : Bool := decide (pos + width ≤ 8 * buf.length)

/-- `BINS` on typed values (R142). -/
def bins (pos width raw : Nat) (buf : Packet) : Except Status Packet :=
  if fieldInside pos width buf then .ok (bitWrite buf pos width raw) else .error .malformedPayload

/-- `BEXT` on typed values (R143). -/
def bext (pos width : Nat) (buf : Packet) : Except Status Nat :=
  if fieldInside pos width buf then .ok (bitRead buf pos width) else .error .malformedPayload

/-- `BINS` (R142, R76). -/
def execBins (pos : BitVec 16) (width : Nat) (raw : BitVec 64) (buf : Packet) (s : State) :
    Host.Outcome State Fault Refusal :=
  .next (s.answer ((bins pos.toNat width raw.toNat buf).map bufOut))

/-- `BEXT` (R143, R76). -/
def execBext (pos : BitVec 16) (width : Nat) (buf : Packet) (s : State) : Host.Outcome State Fault Refusal :=
  .next (s.answer ((bext pos.toNat width buf).map (natOut 8)))

end Sys2Proof.Machine
end

