-- ==== Sys2Proof/Machine/FastPacket.lean ====
section
/-! DEFINITION. The Fast Packet framer and reassembler: `FPTX`, `FPRX`, `FPTICK` (`44_fast_packet.md`). -/

namespace Sys2Proof.Machine

open Sys2Proof.Config

/-- One CAN frame: an identifier and its data bytes (`44_fast_packet.md` R203). -/
structure Frame where
  id : Ident
  data : Packet
deriving DecidableEq, Repr

/-! ### Transmit -/

/-- `N(L)`: the number of continuation frames (`44_fast_packet.md` R201). -/
def contCount (L : Nat) : Nat := L / 7

/-- `pad(p)`: payload byte `p`, or 0xFF at and beyond the length (`44_fast_packet.md` R203). -/
def padByte (payload : Packet) (p : Nat) : Byte := payload.getD p 0xFF#8

/-- `n` padded payload bytes from offset `b`. -/
def padBytes (payload : Packet) (b n : Nat) : Packet := (List.range n).map fun j => padByte payload (b + j)

/-- The header byte (`30_encoding.md` R63): `S` in bits 4:0, the frame index in bits 7:5. -/
def headerByte (S : SeqCounter) (i : Nat) : Byte := S.zeroExtend 8 ||| BitVec.ofNat 8 i <<< 5

/-- The payload offset of the first data byte of continuation frame `i` (`44_fast_packet.md` R218). -/
def contOffset (i : Nat) : Nat := 6 + 7 * (i - 1)

/-- Frame 0 (`30_encoding.md` R64). -/
def headerFrame (S : SeqCounter) (payload : Packet) : Packet :=
  headerByte S 0 :: BitVec.ofNat 8 payload.length :: padBytes payload 0 6

/-- Continuation frame `i` (`30_encoding.md` R65). -/
def contFrame (S : SeqCounter) (payload : Packet) (i : Nat) : Packet :=
  headerByte S i :: padBytes payload (contOffset i) 7

/-- `FPTX` on typed values (`44_fast_packet.md` R203, R202): the frames in the order they are to be sent. -/
def fptx (id : Ident) (S : SeqCounter) (payload : Packet) : Except Status (List Frame) :=
  let L := payload.length
  if L = 0 then .error .malformedPayload
  else if fpMaxLen < L then .error .payloadTooLarge
  else .ok (⟨id, headerFrame S payload⟩ ::
    (List.range (contCount L)).map fun j => ⟨id, contFrame S payload (j + 1)⟩)

/-- The frame records of an `FPTX` response (`30_encoding.md` R79). -/
def framesOut : List Frame → Packet
  | [] => []
  | f :: rest => natOut 4 f.id.toNat ++ f.data ++ framesOut rest

/-- The result fields of `FPTX` (`30_encoding.md` R79). -/
def fptxOut (fs : List Frame) : Packet := natOut 1 fs.length ++ framesOut fs

/-! ### Receive -/

/-- Bytes of a frame stored at payload offset `off`; a byte that maps at or beyond `len` is padding and is ignored
(`20_memory.md` R43, `44_fast_packet.md` R218 (e); assumption 15). -/
def storeBytes (len : Nat) : Packet → Nat → Packet → Packet
  | buf, _, [] => buf
  | buf, off, b :: bs => storeBytes len (if off < len then buf.set off b else buf) (off + 1) bs

/-- The content of a session buffer before any frame is stored: free values (`10_state.md` R29; assumption 2). -/
def freshBuf (n : Nat) : Packet := (List.range fpMaxLen).map (unstoredByte n)

/-- Bit `i` of the `seen` mask. -/
def seenBit (i : Nat) : BitVec 8 := 1#8 <<< i

/-- The `seen` mask of a complete message: frame indices 0 to `N(len)` (`44_fast_packet.md` R219). -/
def fullMask (len : Byte) : Nat := 2 ^ (contCount len.toNat + 1) - 1

/-- Whether every required frame index is present (`44_fast_packet.md` R219). -/
def sessionComplete (sn : Session) : Bool := decide (sn.seen.toNat = fullMask sn.len)

/-- `idx`, bits 7:5 of byte 0 (`44_fast_packet.md` R212). -/
def frameIndex (data : Packet) : Nat := ((data.getD 0 0#8).extractLsb' 5 3).toNat

/-- `S`, bits 4:0 of byte 0 (`44_fast_packet.md` R212). -/
def frameSeq (data : Packet) : SeqCounter := (data.getD 0 0#8).extractLsb' 0 5

/-- `L`, byte 1 of a frame 0 (`30_encoding.md` R64). -/
def frameLen (data : Packet) : Byte := data.getD 1 0#8

/-- The session that a frame 0 opens; its buffer is the machine's `n`-th (`44_fast_packet.md` R214). -/
def openSession (id : Ident) (data : Packet) (now : Ticks) (n : Nat) : Session :=
  { key := id, seq := frameSeq data, len := frameLen data, seen := seenBit 0,
    buf := storeBytes (frameLen data).toNat (freshBuf n) 0 ((data.drop 2).take 6), last := now }

/-- A session after continuation frame `idx` is stored (`44_fast_packet.md` R214, R218 (e)). -/
def extendSession (sn : Session) (data : Packet) (now : Ticks) : Session :=
  { sn with
    buf := storeBytes sn.len.toNat sn.buf (contOffset (frameIndex data)) ((data.drop 1).take 7)
    seen := sn.seen ||| seenBit (frameIndex data)
    last := now }

/-- A frame 0 against the swept table `t`: the session it opens, or why it is dropped (`44_fast_packet.md` R214, R215,
R217). -/
def acceptFirst (c : Params) (t : List Session) (id : Ident) (data : Packet) (now : Ticks) (n : Nat) :
    Except Disposition Session :=
  let L := (frameLen data).toNat
  if L = 0 ∨ fpMaxLen < L then .error .dropBadLen
  else if (lookupSession id t).isNone && tableFull c t.length then .error .dropTableFull
  else .ok (openSession id data now n)

/-- A continuation frame against the swept table `t`: the session with the frame stored, or why it is dropped
(`44_fast_packet.md` R214, R218). -/
def acceptCont (t : List Session) (id : Ident) (data : Packet) (now : Ticks) : Except Disposition Session :=
  match lookupSession id t with
  | none => .error .dropNoSession
  | some sn =>
    if sn.seq ≠ frameSeq data then .error .dropOutOfSequence
    else if contCount sn.len.toNat < frameIndex data then .error .dropIndexRange
    else if sn.seen.getLsbD (frameIndex data) then .error .dropDuplicate
    else .ok (extendSession sn data now)

/-- A frame against the swept table, in the normative order of checks (`44_fast_packet.md` R214, R212, R216): the session to
store, or the reason to drop. -/
def acceptFrame (c : Params) (t : List Session) (id : Ident) (dlc : Nat) (data : Packet) (now : Ticks) (n : Nat) :
    Except Disposition Session :=
  if dlc ≠ 8 then .error .dropBadDlc
  else if frameIndex data = 0 then acceptFirst c t id data now n
  else acceptCont t id data now

/-- The results of `FPRX` (`44_fast_packet.md` R214). -/
structure FprxResult where
  disp : Disposition
  nexp : Nat
  id : Ident
  payload : Packet
deriving DecidableEq, Repr

/-- `SESS[sn.key] <- sn`. -/
def State.putSession (s : State) (sn : Session) : State := { s with sess := storeSession sn s.sess }

/-- `delete SESS[k]`. -/
def State.dropSession (s : State) (k : Ident) : State := { s with sess := deleteSession k s.sess }

/-- The number of the next session buffer: a frame 0 uses one up. -/
def State.countOpened (s : State) (data : Packet) : State :=
  { s with opened := if frameIndex data = 0 then s.opened + 1 else s.opened }

/-- Completion after a stored frame (`44_fast_packet.md` R219): the state in which session `sn` has been stored, and the
payload if that completes the message, whose session is deleted in the same command. -/
def finishFrame (s : State) (sn : Session) (nexp : Nat) (id : Ident) : State × FprxResult :=
  if sessionComplete sn then (s.dropSession id, ⟨.complete, nexp, id, sn.buf.take sn.len.toNat⟩)
  else (s, ⟨.accepted, nexp, id, []⟩)

/-- `FPRX` on typed values (`44_fast_packet.md` R214): the sweep first, then the frame. -/
def fprx (c : Params) (id : Ident) (dlc : Nat) (data : Packet) (now : Ticks) (s : State) : State × FprxResult :=
  let nexp := sweepCount c now s.sess
  let s1 := s.sweep c now
  match acceptFrame c s1.sess id dlc data now s1.opened with
  | .error d => (s1.countDrop, ⟨d, nexp, id, []⟩)
  | .ok sn => finishFrame ((s1.putSession sn).countOpened data) sn nexp id

/-- The result fields of `FPRX` (`30_encoding.md` R79). -/
def fprxOut (r : FprxResult) : Packet :=
  [dispositionCode r.disp] ++ natOut 2 (sat16 r.nexp) ++ natOut 4 r.id.toNat ++ bufOut r.payload

/-- `FPTICK` on typed values (`44_fast_packet.md` R222). -/
def fptick (c : Params) (now : Ticks) (s : State) : State × Nat := (s.sweep c now, sweepCount c now s.sess)

/-- `FPTX` (R203, `30_encoding.md` R79). -/
def execFptx (id : Ident) (seq : SeqCounter) (payload : Packet) (s : State) : Host.Outcome State Fault Refusal :=
  .next (s.answer ((fptx id seq payload).map fptxOut))

/-- `FPRX` (R214, `30_encoding.md` R79): status always `OK`. -/
def execFprx (id : Ident) (dlc : Nat) (data : Packet) (now : Ticks) (s : State) : Host.Outcome State Fault Refusal :=
  let r := fprx params id dlc data now s
  .next (r.1.returnOk (fprxOut r.2))

/-- `FPTICK` (R222, `30_encoding.md` R79). -/
def execFptick (now : Ticks) (s : State) : Host.Outcome State Fault Refusal :=
  let r := fptick params now s
  .next (r.1.returnOk (natOut 2 (sat16 r.2)))

end Sys2Proof.Machine
end

