-- ==== Sys2Proof/Machine/Identifier.lean ====
section
/-! DEFINITION. The CAN Identifier Codec: `IDBUILD`, `IDPACK`, `IDPARSE`, `IDPGN` (`40_can_identifier.md`). -/

namespace Sys2Proof.Machine

open Sys2Proof.Config

/-- PDU2 (broadcast, group extension) when `pdu_format >= 240`, else PDU1 (`30_encoding.md` R62). -/
def isPdu2 (pf : Byte) : Bool := decide (pdu2Min ≤ pf.toNat)

/-- `dest(c)`: the effective destination (`40_can_identifier.md` R100). -/
def dest (c : CanId) : Byte := if isPdu2 c.pduFormat then broadcast else c.pduSpecific

/-- `IDBUILD` on typed values (`40_can_identifier.md` R102). -/
def idbuild (pgn : Pgn) (priority : BitVec 3) (sa da : Byte) : Except Status CanId :=
  let pf := pgn.extractLsb' 8 8
  let make (ps : Byte) : CanId :=
    { priority := priority, reservedBit := 0#1, dataPage := pgn.extractLsb' 16 1, pduFormat := pf, pduSpecific := ps,
      sourceAddress := sa }
  if isPdu2 pf then
    if da ≠ broadcast then .error .invalidAddressing else .ok (make (pgn.extractLsb' 0 8))
  else .ok (make da)

/-- `IDPACK` on typed values (`40_can_identifier.md` R103, R101). -/
def idpack (c : CanId) : Ident :=
  c.priority.zeroExtend 29 <<< 26 ||| c.reservedBit.zeroExtend 29 <<< 25 ||| c.dataPage.zeroExtend 29 <<< 24 |||
    c.pduFormat.zeroExtend 29 <<< 16 ||| c.pduSpecific.zeroExtend 29 <<< 8 ||| c.sourceAddress.zeroExtend 29

/-- `IDPARSE` on typed values (`40_can_identifier.md` R104). -/
def idparse (raw : Ident) : CanId :=
  { priority := raw.extractLsb' 26 3, reservedBit := raw.extractLsb' 25 1, dataPage := raw.extractLsb' 24 1,
    pduFormat := raw.extractLsb' 16 8, pduSpecific := raw.extractLsb' 8 8, sourceAddress := raw.extractLsb' 0 8 }

/-- `IDPGN` on typed values (`40_can_identifier.md` R105). -/
def idpgn (c : CanId) : Pgn × Byte :=
  let high : Pgn := c.dataPage.zeroExtend 17 <<< 16 ||| c.pduFormat.zeroExtend 17 <<< 8
  if isPdu2 c.pduFormat then (high ||| c.pduSpecific.zeroExtend 17, broadcast) else (high, c.pduSpecific)

/-- The result fields of `IDPGN` (`30_encoding.md` R74). -/
def idpgnOut (r : Pgn × Byte) : Packet := natOut 3 r.1.toNat ++ [r.2]

/-- `IDBUILD` (R102, R73). -/
def execIdbuild (pgn : Pgn) (priority : BitVec 3) (sa da : Byte) (s : State) : Host.Outcome State Fault Refusal :=
  .next (s.answer ((idbuild pgn priority sa da).map canIdOut))

/-- `IDPACK` (R103, R74). -/
def execIdpack (id : CanId) (s : State) : Host.Outcome State Fault Refusal :=
  .next (s.returnOk (natOut 4 (idpack id).toNat))

/-- `IDPARSE` (R104, R74). -/
def execIdparse (raw : Ident) (s : State) : Host.Outcome State Fault Refusal :=
  .next (s.returnOk (canIdOut (idparse raw)))

/-- `IDPGN` (R105, R74). -/
def execIdpgn (id : CanId) (s : State) : Host.Outcome State Fault Refusal :=
  .next (s.returnOk (idpgnOut (idpgn id)))

end Sys2Proof.Machine
end

