-- ==== Sys2Proof/Machine/PgnCodecs.lean ====
section
/-! DEFINITION. The PGN Payload Codecs: the constant table of field descriptors and the five encoders and five decoders
(`43_pgn_codecs.md`). -/

namespace Sys2Proof.Machine

open Sys2Proof.Config

/-! ### The field descriptor table (`43_pgn_codecs.md` R152) -/

/-- A `phys` field: it has a sentinel. -/
def physField (pos width : Nat) (isSigned : Bool) (scale offset unit : ℚ) : FieldDesc :=
  { pos := pos, width := width, scale := scale, offset := offset, unit := unit, isSigned := isSigned, hasSentinel := true }

/-- A `rawopt` field: an integer code, scale 1 and offset 0, with a sentinel (`43_pgn_codecs.md` R153). -/
def rawOptField (pos width : Nat) (isSigned : Bool) : FieldDesc :=
  { pos := pos, width := width, scale := 1, offset := 0, unit := 1, isSigned := isSigned, hasSentinel := true }

/-- A `raw` or `const` field: bits copied as they are, no sentinel. -/
def rawField (pos width : Nat) : FieldDesc :=
  { pos := pos, width := width, scale := 1, offset := 0, unit := 1, isSigned := false, hasSentinel := false }

/-- `posr.lat` -/
def posrLat : FieldDesc := physField 0 32 true (1 / 10 ^ 7) 0 1
/-- `posr.lon` -/
def posrLon : FieldDesc := physField 32 32 true (1 / 10 ^ 7) 0 1
/-- `cs.sid` -/
def csSid : FieldDesc := rawField 0 8
/-- `cs.ref` -/
def csRef : FieldDesc := rawField 8 8
/-- `cs.cog` -/
def csCog : FieldDesc := physField 16 16 false (1 / 10 ^ 4) 0 deg2rad
/-- `cs.sog` -/
def csSog : FieldDesc := physField 32 16 false (1 / 10 ^ 2) 0 1
/-- `cs.rsv` -/
def csRsv : FieldDesc := rawField 48 16
/-- `g.sid` -/
def gSid : FieldDesc := rawField 0 8
/-- `g.date` -/
def gDate : FieldDesc := rawOptField 8 16 false
/-- `g.tod` -/
def gTod : FieldDesc := physField 24 32 false (1 / 10 ^ 4) 0 1
/-- `g.lat` -/
def gLat : FieldDesc := physField 56 64 true (1 / 10 ^ 16) 0 1
/-- `g.lon` -/
def gLon : FieldDesc := physField 120 64 true (1 / 10 ^ 16) 0 1
/-- `g.alt` -/
def gAlt : FieldDesc := physField 184 64 true (1 / 10 ^ 6) 0 1
/-- `g.fixtype` -/
def gFixtype : FieldDesc := rawField 248 4
/-- `g.method` -/
def gMethod : FieldDesc := rawField 252 4
/-- `g.integ` -/
def gInteg : FieldDesc := rawField 256 8
/-- `g.numsv` -/
def gNumsv : FieldDesc := rawOptField 264 8 false
/-- `g.hdop` -/
def gHdop : FieldDesc := rawOptField 272 16 false
/-- `g.pdop` -/
def gPdop : FieldDesc := rawOptField 288 16 false
/-- `g.geoid` -/
def gGeoid : FieldDesc := rawOptField 304 32 true
/-- `g.nref` -/
def gNref : FieldDesc := rawField 336 8
/-- `g.st[j].tid` -/
def gTid (j : Nat) : FieldDesc := rawOptField (344 + 32 * j) 16 false
/-- `g.st[j].age` -/
def gAge (j : Nat) : FieldDesc := rawOptField (360 + 32 * j) 16 false
/-- `vp.lat` -/
def vpLat : FieldDesc := physField 0 32 false (1 / 10 ^ 7) (-210) 1
/-- `vp.lon` -/
def vpLon : FieldDesc := physField 32 32 false (1 / 10 ^ 7) (-210) 1
/-- `vd.bearing` -/
def vdBearing : FieldDesc := physField 0 16 false (1 / 128) 0 1
/-- `vd.speed` -/
def vdSpeed : FieldDesc := physField 16 16 false (1 / 256) 0 mps2kmh
/-- `vd.pitch` -/
def vdPitch : FieldDesc := rawOptField 32 16 false
/-- `vd.alt` -/
def vdAlt : FieldDesc := rawOptField 48 16 false

/-- The buffer an encoder starts from: bytes of 0xFF (`43_pgn_codecs.md` R151). -/
def blank (n : Nat) : Packet := List.replicate n 0xFF#8

/-! ### Typed records -/

/-- What `PDEC.COGSOG` returns (R161). -/
structure CogsogResult where
  sid : Byte
  ref : Byte
  cog : Option ℚ
  sog : Option ℚ
deriving DecidableEq, Repr

/-- The typed operands of `PENC.GNSS` (R167); `nref` is the number of `stations`, each a pair of `tid` and `age`. -/
structure GnssValues where
  sid : Byte
  date : Option Int
  tod : Option PhysInput
  lat : Option PhysInput
  lon : Option PhysInput
  alt : Option PhysInput
  fixtype : BitVec 4
  method : BitVec 4
  integ : Byte
  numsv : Option Int
  hdop : Option Int
  pdop : Option Int
  geoid : Option Int
  stations : List (Option Int × Option Int)
deriving DecidableEq, Repr

/-- What `PDEC.GNSS` returns (R168): `nref` is byte 42 itself. -/
structure GnssResult where
  sid : Byte
  date : Option Int
  tod : Option ℚ
  lat : Option ℚ
  lon : Option ℚ
  alt : Option ℚ
  fixtype : BitVec 4
  method : BitVec 4
  integ : Byte
  numsv : Option Int
  hdop : Option Int
  pdop : Option Int
  geoid : Option Int
  nref : Byte
  stations : List (Option Int × Option Int)
deriving DecidableEq, Repr

/-- What `PDEC.VDS` returns (R176). -/
structure VdsResult where
  bearing : Option ℚ
  speed : Option ℚ
  pitch : Option Int
  alt : Option Int
deriving DecidableEq, Repr

/-! ### Encoders on typed values -/

/-- `PENC.POSR` (`43_pgn_codecs.md` R156). -/
def pencPosr (t : RoundTies) (lat lon : Option PhysInput) : Packet :=
  let P := blank 8
  let P := putField t P posrLat lat
  putField t P posrLon lon

/-- `PENC.COGSOG` (R159). -/
def pencCogsog (t : RoundTies) (sid ref : Byte) (cog sog : Option PhysInput) : Packet :=
  let P := blank 8
  let P := putRaw P csSid sid.toNat
  let P := putRaw P csRef ref.toNat
  let P := putField t P csCog cog
  let P := putField t P csSog sog
  putRaw P csRsv 0xFFFF

/-- The station records of `PENC.GNSS`, from record `j` on (R167). -/
def putStations (t : RoundTies) : Packet → Nat → List (Option Int × Option Int) → Packet
  | P, _, [] => P
  | P, j, st :: rest =>
    putStations t (putField t (putField t P (gTid j) (intNum st.1)) (gAge j) (intNum st.2)) (j + 1) rest

/-- `PENC.GNSS` (R167). -/
def pencGnss (t : RoundTies) (v : GnssValues) : Except Status Packet :=
  let nref := v.stations.length
  if gnssMaxRef < nref then .error .payloadTooLarge
  else
    let P := blank (gnssFixedLen + 4 * nref)
    let P := putRaw P gSid v.sid.toNat
    let P := putField t P gDate (intNum v.date)
    let P := putField t P gTod v.tod
    let P := putField t P gLat v.lat
    let P := putField t P gLon v.lon
    let P := putField t P gAlt v.alt
    let P := putRaw P gFixtype v.fixtype.toNat
    let P := putRaw P gMethod v.method.toNat
    let P := putRaw P gInteg v.integ.toNat
    let P := putField t P gNumsv (intNum v.numsv)
    let P := putField t P gHdop (intNum v.hdop)
    let P := putField t P gPdop (intNum v.pdop)
    let P := putField t P gGeoid (intNum v.geoid)
    let P := putRaw P gNref nref
    .ok (putStations t P 0 v.stations)

/-- `PENC.VPOS` (R171). -/
def pencVpos (t : RoundTies) (lat lon : Option PhysInput) : Packet :=
  let P := blank 8
  let P := putField t P vpLat lat
  putField t P vpLon lon

/-- `PENC.VDS` (R175). -/
def pencVds (t : RoundTies) (bearing speed : Option PhysInput) (pitch alt : Option Int) : Packet :=
  let P := blank 8
  let P := putField t P vdBearing bearing
  let P := putField t P vdSpeed speed
  let P := putField t P vdPitch (intNum pitch)
  putField t P vdAlt (intNum alt)

/-! ### Decoders on typed values: the length check comes first (R154) -/

/-- `PDEC.POSR` (R160): latitude and longitude. -/
def pdecPosr (P : Packet) : Except Status (Option ℚ × Option ℚ) :=
  if P.length ≠ 8 then .error .malformedPayload else .ok (getField P posrLat, getField P posrLon)

/-- `PDEC.COGSOG` (R161); the reserved word is not examined. -/
def pdecCogsog (P : Packet) : Except Status CogsogResult :=
  if P.length ≠ 8 then .error .malformedPayload
  else .ok { sid := BitVec.ofNat 8 (getRaw P csSid), ref := BitVec.ofNat 8 (getRaw P csRef), cog := getField P csCog,
             sog := getField P csSog }

/-- How many station records byte 42 announces; `none` when it announces more than a payload can hold (R166). -/
def stationCount (r : Nat) : Option Nat := if r ≤ gnssMaxRef then some r else if r = 0xFF then some 0 else none

/-- The result fields of `PDEC.GNSS` with `n` station records (R168). -/
def gnssFields (P : Packet) (n : Nat) : GnssResult :=
  { sid := BitVec.ofNat 8 (getRaw P gSid), date := getInt P gDate, tod := getField P gTod, lat := getField P gLat,
    lon := getField P gLon, alt := getField P gAlt, fixtype := BitVec.ofNat 4 (getRaw P gFixtype),
    method := BitVec.ofNat 4 (getRaw P gMethod), integ := BitVec.ofNat 8 (getRaw P gInteg), numsv := getInt P gNumsv,
    hdop := getInt P gHdop, pdop := getInt P gPdop, geoid := getInt P gGeoid, nref := BitVec.ofNat 8 (getRaw P gNref),
    stations := (List.range n).map fun j => (getInt P (gTid j), getInt P (gAge j)) }

/-- `PDEC.GNSS` (R168). -/
def pdecGnss (P : Packet) : Except Status GnssResult :=
  if P.length < gnssFixedLen then .error .malformedPayload
  else match stationCount (getRaw P gNref) with
    | none => .error .malformedPayload
    | some n => if P.length ≠ gnssFixedLen + 4 * n then .error .malformedPayload else .ok (gnssFields P n)

/-- `PDEC.VPOS` (R172): latitude and longitude. -/
def pdecVpos (P : Packet) : Except Status (Option ℚ × Option ℚ) :=
  if P.length ≠ 8 then .error .malformedPayload else .ok (getField P vpLat, getField P vpLon)

/-- `PDEC.VDS` (R176). -/
def pdecVds (P : Packet) : Except Status VdsResult :=
  if P.length ≠ 8 then .error .malformedPayload
  else .ok { bearing := getField P vdBearing, speed := getField P vdSpeed, pitch := getInt P vdPitch,
             alt := getInt P vdAlt }

/-! ### Packets: typed operands and result fields (`30_encoding.md` R72, R77, R78) -/

/-- The typed operands of a `PENC.GNSS` request; `geoid` is the signed one (R72). -/
def gnssIn (a : GnssArgs) : GnssValues :=
  { sid := a.sid, date := rawIn a.date, tod := physIn a.tod, lat := physIn a.lat, lon := physIn a.lon,
    alt := physIn a.alt, fixtype := a.fixtype, method := a.method, integ := a.integ, numsv := rawIn a.numsv,
    hdop := rawIn a.hdop, pdop := rawIn a.pdop, geoid := rawInSigned a.geoid,
    stations := a.stations.map fun st => (rawIn st.tid, rawIn st.age) }

/-- The result fields of `PDEC.POSR` and `PDEC.VPOS` (R78). -/
def positionOut (r : Option ℚ × Option ℚ) : Packet := physOut r.1 ++ physOut r.2

/-- The result fields of `PDEC.COGSOG` (R78). -/
def cogsogOut (r : CogsogResult) : Packet := [r.sid, r.ref] ++ physOut r.cog ++ physOut r.sog

/-- The station records of a `PDEC.GNSS` response (R78). -/
def stationsOut : List (Option Int × Option Int) → Packet
  | [] => []
  | st :: rest => rawOut 2 st.1 ++ rawOut 2 st.2 ++ stationsOut rest

/-- The result fields of `PDEC.GNSS` (R78). -/
def gnssOut (r : GnssResult) : Packet :=
  [r.sid] ++ rawOut 2 r.date ++ physOut r.tod ++ physOut r.lat ++ physOut r.lon ++ physOut r.alt ++
    natOut 1 r.fixtype.toNat ++ natOut 1 r.method.toNat ++ [r.integ] ++ rawOut 1 r.numsv ++ rawOut 2 r.hdop ++
    rawOut 2 r.pdop ++ rawOut 4 r.geoid ++ [r.nref] ++ stationsOut r.stations

/-- The result fields of `PDEC.VDS` (R78). -/
def vdsOut (r : VdsResult) : Packet := physOut r.bearing ++ physOut r.speed ++ rawOut 2 r.pitch ++ rawOut 2 r.alt

/-- `PENC.POSR` (R156, R77). -/
def execPencPosr (lat lon : Phys) (s : State) : Host.Outcome State Fault Refusal :=
  .next (s.returnOk (bufOut (pencPosr params.roundTies (physIn lat) (physIn lon))))

/-- `PENC.COGSOG` (R159, R77). -/
def execPencCogsog (sid ref : Byte) (cog sog : Phys) (s : State) : Host.Outcome State Fault Refusal :=
  .next (s.returnOk (bufOut (pencCogsog params.roundTies sid ref (physIn cog) (physIn sog))))

/-- `PENC.GNSS` (R167, R77). -/
def execPencGnss (args : GnssArgs) (s : State) : Host.Outcome State Fault Refusal :=
  .next (s.answer ((pencGnss params.roundTies (gnssIn args)).map bufOut))

/-- `PENC.VPOS` (R171, R77). -/
def execPencVpos (lat lon : Phys) (s : State) : Host.Outcome State Fault Refusal :=
  .next (s.returnOk (bufOut (pencVpos params.roundTies (physIn lat) (physIn lon))))

/-- `PENC.VDS` (R175, R77). -/
def execPencVds (bearing speed : Phys) (pitch alt : RawOpt 16) (s : State) : Host.Outcome State Fault Refusal :=
  .next (s.returnOk (bufOut (pencVds params.roundTies (physIn bearing) (physIn speed) (rawIn pitch) (rawIn alt))))

/-- `PDEC.POSR` (R160, R78). -/
def execPdecPosr (payload : Packet) (s : State) : Host.Outcome State Fault Refusal :=
  .next (s.answer ((pdecPosr payload).map positionOut))

/-- `PDEC.COGSOG` (R161, R78). -/
def execPdecCogsog (payload : Packet) (s : State) : Host.Outcome State Fault Refusal :=
  .next (s.answer ((pdecCogsog payload).map cogsogOut))

/-- `PDEC.GNSS` (R168, R78). -/
def execPdecGnss (payload : Packet) (s : State) : Host.Outcome State Fault Refusal :=
  .next (s.answer ((pdecGnss payload).map gnssOut))

/-- `PDEC.VPOS` (R172, R78). -/
def execPdecVpos (payload : Packet) (s : State) : Host.Outcome State Fault Refusal :=
  .next (s.answer ((pdecVpos payload).map positionOut))

/-- `PDEC.VDS` (R176, R78). -/
def execPdecVds (payload : Packet) (s : State) : Host.Outcome State Fault Refusal :=
  .next (s.answer ((pdecVds payload).map vdsOut))

end Sys2Proof.Machine
end

