-- ==== Sys2Proof/Machine/System.lean ====
section
/-! DEFINITION. The system command `RDCNT` (`45_system.md` R240). -/

namespace Sys2Proof.Machine

/-- `RDCNT` on typed values: `DROPPED` and `ACTIVE`, saturated; it changes nothing and does not sweep (R240). -/
def rdcnt (s : State) : BitVec 32 × Nat := (s.dropped, sat16 s.active)

/-- The result fields of `RDCNT` (`30_encoding.md` R80). -/
def rdcntOut (r : BitVec 32 × Nat) : Packet := natOut 4 r.1.toNat ++ natOut 2 r.2

/-- `RDCNT` (R240, `30_encoding.md` R80). -/
def execRdcnt (s : State) : Host.Outcome State Fault Refusal := .next (s.returnOk (rdcntOut (rdcnt s)))

end Sys2Proof.Machine
end

