-- ==== Sys2Proof/Machine/Dispatch.lean ====
section
/-! DEFINITION. Which meaning each command has: one arm per row of the opcode table. -/

namespace Sys2Proof.Machine

def exec (i : Instr) (s : State) : Host.Outcome State Fault Refusal :=
  match i with
  | .idbuild pgn priority sa da => Sys2Proof.Machine.execIdbuild pgn priority sa da s
  | .idpack id => Sys2Proof.Machine.execIdpack id s
  | .idparse raw => Sys2Proof.Machine.execIdparse raw s
  | .idpgn id => Sys2Proof.Machine.execIdpgn id s
  | .fenc desc value => Sys2Proof.Machine.execFenc desc value s
  | .fdec desc raw => Sys2Proof.Machine.execFdec desc raw s
  | .bins pos width raw buf => Sys2Proof.Machine.execBins pos width raw buf s
  | .bext pos width buf => Sys2Proof.Machine.execBext pos width buf s
  | .pencPosr lat lon => Sys2Proof.Machine.execPencPosr lat lon s
  | .pencCogsog sid ref cog sog => Sys2Proof.Machine.execPencCogsog sid ref cog sog s
  | .pencGnss args => Sys2Proof.Machine.execPencGnss args s
  | .pencVpos lat lon => Sys2Proof.Machine.execPencVpos lat lon s
  | .pencVds bearing speed pitch alt => Sys2Proof.Machine.execPencVds bearing speed pitch alt s
  | .pdecPosr payload => Sys2Proof.Machine.execPdecPosr payload s
  | .pdecCogsog payload => Sys2Proof.Machine.execPdecCogsog payload s
  | .pdecGnss payload => Sys2Proof.Machine.execPdecGnss payload s
  | .pdecVpos payload => Sys2Proof.Machine.execPdecVpos payload s
  | .pdecVds payload => Sys2Proof.Machine.execPdecVds payload s
  | .fptx id seq payload => Sys2Proof.Machine.execFptx id seq payload s
  | .fprx id dlc data now => Sys2Proof.Machine.execFprx id dlc data now s
  | .fptick now => Sys2Proof.Machine.execFptick now s
  | .rdcnt => Sys2Proof.Machine.execRdcnt s

end Sys2Proof.Machine
end

