-- ==== Sys2Proof/Machine/Step.lean ====
section
/-! DEFINITION. One step of the machine: the host's next action (`00_scope.md` R18, R19). -/

namespace Sys2Proof.Machine

/-- One step is one whole action of the host. A request packet is decoded and its command executed, and a packet that
spells no command is answered `IllegalCommand` before anything runs (`30_encoding.md` R86); reset is applied
(`70_reset_and_hazards.md` R301); with no action lined up the block is idle and holds its state (`60_exceptions.md` R284;
assumption 3). -/
def step (s : State) : Host.Outcome State Fault Refusal :=
  match s.inbox with
  | [] => .next s
  | .reset :: _ => .next s.popInbox.applyReset
  | .request packet :: _ =>
    match decode packet with
    | .ok i => exec i s.popInbox
    | .error _ => .next (s.popInbox.raise .illegalCommand)

/-- `s` with the request that a table word stands for presented next by the host (assumption 9). -/
def State.withFetchWord (s : State) (nbits w : Nat) : State := s.pushInbox (.request (tableRequest nbits w))

end Sys2Proof.Machine
end

