-- ==== Sys2Proof/Machine/HostSequences.lean ====
section
/-! DEFINITION. The three host-level sequences `TXMSG`, `RXFRAME` and `TSSPLIT` over the typed commands, and the host duties
they rest on (`45_system.md` R241 to R243, `43_pgn_codecs.md` R177, `70_reset_and_hazards.md` R307, R311). They have no opcode:
they are what a host does with the commands (`30_encoding.md` R91), so the step does not run them (assumption 11). -/

namespace Sys2Proof.Machine

open Sys2Proof.Config

/-- The values of one message, for one of the five PGNs: the operands of its encoder. -/
inductive Message where
  | posr (lat lon : Option PhysInput)
  | cogsog (sid ref : Byte) (cog sog : Option PhysInput)
  | gnss (values : GnssValues)
  | vpos (lat lon : Option PhysInput)
  | vds (bearing speed : Option PhysInput) (pitch alt : Option Int)
deriving DecidableEq, Repr

/-- The PGN of a message (`30_encoding.md` R61). -/
def messagePgn : Message → Pgn
  | .posr _ _ => 129025#17
  | .cogsog _ _ _ _ => 129026#17
  | .gnss _ => 129029#17
  | .vpos _ _ => 65267#17
  | .vds _ _ _ _ => 65256#17

/-- `PENC.<pgn>(values)`. -/
def encodeMessage (t : RoundTies) : Message → Except Status Packet
  | .posr lat lon => .ok (pencPosr t lat lon)
  | .cogsog sid ref cog sog => .ok (pencCogsog t sid ref cog sog)
  | .gnss v => pencGnss t v
  | .vpos lat lon => .ok (pencVpos t lat lon)
  | .vds bearing speed pitch alt => .ok (pencVds t bearing speed pitch alt)

/-- `TXMSG.<pgn>(values, priority, sa, S)` (`45_system.md` R241): the frames to hand to the transport, in order. The host
stops at the first command that fails. -/
def txmsg (t : RoundTies) (m : Message) (priority : BitVec 3) (sa : Byte) (S : SeqCounter) :
    Except Status (List Frame) := do
  let P ← encodeMessage t m
  let c ← idbuild (messagePgn m) priority sa broadcast
  if P.length ≤ 8 then .ok [⟨idpack c, P⟩] else fptx (idpack c) S P

/-- The values of a decoded message. -/
inductive Delivered where
  | posr (lat lon : Option ℚ)
  | cogsog (r : CogsogResult)
  | gnss (r : GnssResult)
  | vpos (lat lon : Option ℚ)
  | vds (r : VdsResult)
deriving DecidableEq, Repr

/-- The decoder that `RXFRAME` applies to a payload of a PGN; a decoder that fails delivers nothing, and there is no codec
for any other PGN (`45_system.md` R242). -/
def decodeMessage (pgn : Pgn) (P : Packet) : Option Delivered :=
  if pgn = 129029#17 then (pdecGnss P).toOption.map .gnss
  else if pgn = 129025#17 then (pdecPosr P).toOption.map fun r => .posr r.1 r.2
  else if pgn = 129026#17 then (pdecCogsog P).toOption.map .cogsog
  else if pgn = 65267#17 then (pdecVpos P).toOption.map fun r => .vpos r.1 r.2
  else if pgn = 65256#17 then (pdecVds P).toOption.map .vds
  else none

/-- One result delivered to the host's collaborator (`45_system.md` R242). -/
structure Delivery where
  id : CanId
  pgn : Pgn
  value : Delivered
deriving DecidableEq, Repr

/-- The host clears bits 31:29 of an identifier word (`70_reset_and_hazards.md` R307). -/
def clearFlagBits (raw : BitVec 32) : Ident := raw.extractLsb' 0 29

/-- `RXFRAME(raw, dlc, data, now)` (`45_system.md` R242): only frames of the one Fast Packet PGN are offered to `FPRX`. -/
def rxframe (c : Params) (raw : BitVec 32) (dlc : Nat) (data : Packet) (now : Ticks) (s : State) :
    State × Option Delivery :=
  let word := clearFlagBits raw
  let id := idparse word
  let pgn := (idpgn id).1
  let deliver (P : Packet) : Option Delivery := (decodeMessage pgn P).map fun v => ⟨id, pgn, v⟩
  if pgn = 129029#17 then
    let r := fprx c word dlc data now s
    (r.1, if r.2.disp = .complete then deliver r.2.payload else none)
  else (s, deliver (data.take dlc))

/-- `RXFRAME` for the frames of one transmission, each with its time, one by one and in order (`45_system.md` R244): the
final state and what was delivered. -/
def rxframes (c : Params) : List (Frame × Ticks) → State → State × List Delivery
  | [], s => (s, [])
  | (f, now) :: rest, s =>
    let r := rxframe c (f.id.zeroExtend 32) f.data.length f.data now s
    let q := rxframes c rest r.1
    (q.1, r.2.toList ++ q.2)

/-- `TSSPLIT(t)` (`45_system.md` R243): whole days, and seconds since midnight. -/
def tssplit (t : ℚ) : Int × ℚ :=
  let date := ⌊t / 86400⌋
  (date, t - 86400 * date)

/-- The inverse of `TSSPLIT` on receipt (`45_system.md` R243). -/
def tsjoin (date : Int) (tod : ℚ) : ℚ := 86400 * date + tod

/-- The host advances the sequence counter modulo 32 after each Fast Packet message (`70_reset_and_hazards.md` R311). -/
def nextSeq (S : SeqCounter) : SeqCounter := S + 1

/-- A NavigationFix (`43_pgn_codecs.md` R177), with the timestamp in seconds since the epoch. -/
structure NavigationFix where
  latitudeDeg : ℚ
  longitudeDeg : ℚ
  altitudeM : ℚ
  speedOverGroundMps : ℚ
  courseOverGroundDeg : ℚ
  timestamp : ℚ
  sequenceId : Byte
deriving DecidableEq, Repr

/-- The operands that a NavigationFix feeds, by PGN (`43_pgn_codecs.md` R177). The bytes and nibbles it has no member for are
the host's, and its optional codes are unknown. -/
def fixPosr (f : NavigationFix) : Message := .posr (some (.rat f.latitudeDeg)) (some (.rat f.longitudeDeg))

/-- The same for PGN 129026. -/
def fixCogsog (f : NavigationFix) (ref : Byte) : Message :=
  .cogsog f.sequenceId ref (some (.rat f.courseOverGroundDeg)) (some (.rat f.speedOverGroundMps))

/-- The same for PGN 129029, with no reference station. -/
def fixGnss (f : NavigationFix) (fixtype method : BitVec 4) (integ : Byte) : Message :=
  .gnss { sid := f.sequenceId, date := some (tssplit f.timestamp).1, tod := some (.rat (tssplit f.timestamp).2),
          lat := some (.rat f.latitudeDeg), lon := some (.rat f.longitudeDeg), alt := some (.rat f.altitudeM),
          fixtype := fixtype, method := method, integ := integ, numsv := none, hdop := none, pdop := none,
          geoid := none, stations := [] }

/-- The same for PGN 65267. -/
def fixVpos (f : NavigationFix) : Message := .vpos (some (.rat f.latitudeDeg)) (some (.rat f.longitudeDeg))

/-- The same for PGN 65256: altitude is not passed, because the operand is a code of unknown scale (R175). -/
def fixVds (f : NavigationFix) : Message :=
  .vds (some (.rat f.courseOverGroundDeg)) (some (.rat f.speedOverGroundMps)) none none

end Sys2Proof.Machine
end

