-- ==== Sys2Proof/Safety.lean ====
section
/-! DEFINITION. What a good state is, a legal request, and a faithful run, in the terms that statements use. Where a term
restates the spec it is written from the rule's own words and byte offsets, not from the model's functions. -/

namespace Sys2Proof.Machine

open Sys2Proof.Config

/-- What holds of every live session (`10_state.md` R24, R31). -/
structure SessionOk (sn : Session) : Prop where
  len_pos : 1 ≤ sn.len.toNat
  len_le : sn.len.toNat ≤ fpMaxLen
  buf_len : sn.buf.length = fpMaxLen
  seen_first : sn.seen.getLsbD 0 = true
  seen_range : ∀ i, contCount sn.len.toNat < i → sn.seen.getLsbD i = false
  not_complete : sessionComplete sn = false

/-- What holds of the session table (`10_state.md` R23, R31) under parameters `c`. -/
structure TableInv (c : Params) (t : List Session) : Prop where
  rising : tableWf t = true
  sessions : ∀ sn ∈ t, SessionOk sn
  capacity : ∀ cap, c.fpSessions = some cap → t.length ≤ cap

/-- The invariant of the machine (`10_state.md` R31). -/
def Inv (s : State) : Prop := TableInv params s.sess

/-- The index of the frame that carries payload byte `p` (`44_fast_packet.md` R220): 0 for bytes 0 to 5, then one more every
seven bytes. -/
def frameOf (p : Nat) : Nat := (p + 1) / 7

/-- Payload byte `p` of a session has been stored: it is below the length and its frame has been seen (`10_state.md` R24,
R29). -/
def storedAt (sn : Session) (p : Nat) : Prop := p < sn.len.toNat ∧ sn.seen.getLsbD (frameOf p) = true

/-- The stored bytes of the session are those of the message `P` (`10_state.md` R31). -/
def HoldsMessage (sn : Session) (P : Packet) : Prop :=
  sn.len.toNat = P.length ∧ ∀ p, storedAt sn p → sn.buf[p]? = P[p]?

/-- Two sessions that differ at most in bytes no frame has stored (`10_state.md` R29). -/
def SameStored (a b : Session) : Prop :=
  a.key = b.key ∧ a.seq = b.seq ∧ a.len = b.len ∧ a.seen = b.seen ∧ a.last = b.last ∧
    ∀ p, storedAt a p → a.buf[p]? = b.buf[p]?

/-- Two states that differ at most in the free bytes of session buffers and in how those are numbered (`10_state.md` R29,
assumption 2). -/
def SameUpToFree (s t : State) : Prop :=
  List.Forall₂ SameStored s.sess t.sess ∧ s.dropped = t.dropped ∧ s.inbox = t.inbox ∧ s.responses = t.responses

/-- `FPRX` for frames of identifier `id`, each 8 bytes with its time, one after the other: the final state and the
results. -/
def offerFrames (c : Params) (id : Ident) : List (Packet × Ticks) → State → State × List FprxResult
  | [], s => (s, [])
  | (data, now) :: rest, s =>
    let r := fprx c id 8 data now s
    let q := offerFrames c id rest r.1
    (q.1, r.2 :: q.2)

/-- Times that do not decrease and let no session expire between one frame and the next: each at most `FP_TIMEOUT` after
the one before (`44_fast_packet.md` R213, R223). -/
def steadyTimes (c : Params) (times : List Ticks) : Prop :=
  times.IsChain fun a b => a.toNat ≤ b.toNat ∧ b.toNat - a.toNat ≤ c.fpTimeout

/-- The last response that the block has given. -/
def lastResponse (s : State) : Packet := s.responses.getLast?.getD []

/-! ### Legal requests, by byte offset (`30_encoding.md` R71, R73 to R80, R86) -/

/-- The byte at offset `k`. -/
def byteAt (p : Packet) (k : Nat) : Nat := (p.getD k 0#8).toNat

/-- The binary64 pattern at offset `k`. -/
def patternAt (p : Packet) (k : Nat) : BitVec 64 := BitVec.ofNat 64 (memRead p k 8)

/-- A legal `CANID` at offset `k` (R71). -/
def legalCanIdAt (p : Packet) (k : Nat) : Prop := byteAt p k ≤ 7 ∧ byteAt p (k + 1) ≤ 1 ∧ byteAt p (k + 2) ≤ 1

/-- A legal `DESC` at offset `k` (R71). -/
def legalDescAt (p : Packet) (k : Nat) : Prop :=
  byteAt p k < 4 ∧ (1 ≤ byteAt p (k + 1) ∧ byteAt p (k + 1) ≤ 64) ∧
    (∃ q, f64val (patternAt p (k + 2)) = .rat q ∧ 0 < q) ∧ ∃ q, f64val (patternAt p (k + 10)) = .rat q

/-- A `width` operand in range at offset `k`. -/
def legalWidthAt (p : Packet) (k : Nat) : Prop := 1 ≤ byteAt p k ∧ byteAt p k ≤ 64

/-- No bit that must be 0 is set and every operand is in its range, for a packet of the right length (R86 (b), (d), (e),
(f)). -/
def legalOperands (p : Packet) : Prop :=
  match byteAt p 0 with
  | 0x10 => memRead p 1 3 < 2 ^ 17 ∧ byteAt p 4 ≤ 7
  | 0x11 => legalCanIdAt p 1
  | 0x12 => memRead p 1 4 < 2 ^ 29
  | 0x13 => legalCanIdAt p 1
  | 0x20 => legalDescAt p 1 ∧ byteAt p 19 ≤ 1 ∧
      (byteAt p 1 / 2 % 2 = 1 ∨ (byteAt p 19 = 1 ∧ f64val (patternAt p 20) ≠ .nan))
  | 0x21 => legalDescAt p 1 ∧ memRead p 19 8 < 2 ^ byteAt p 2
  | 0x28 => legalWidthAt p 3 ∧ memRead p 4 8 < 2 ^ byteAt p 3 ∧ byteAt p 12 ≤ 55
  | 0x29 => legalWidthAt p 3 ∧ byteAt p 4 ≤ 55
  | 0x30 => byteAt p 1 ≤ 1 ∧ byteAt p 10 ≤ 1
  | 0x31 => byteAt p 3 ≤ 1 ∧ byteAt p 12 ≤ 1
  | 0x32 => (byteAt p 2 ≤ 1 ∧ byteAt p 5 ≤ 1 ∧ byteAt p 14 ≤ 1 ∧ byteAt p 23 ≤ 1 ∧ byteAt p 32 ≤ 1) ∧
      (byteAt p 41 ≤ 15 ∧ byteAt p 42 ≤ 15) ∧
      (byteAt p 44 ≤ 1 ∧ byteAt p 46 ≤ 1 ∧ byteAt p 49 ≤ 1 ∧ byteAt p 52 ≤ 1) ∧
      ∀ j, j < byteAt p 57 → byteAt p (58 + 6 * j) ≤ 1 ∧ byteAt p (61 + 6 * j) ≤ 1
  | 0x33 => byteAt p 1 ≤ 1 ∧ byteAt p 10 ≤ 1
  | 0x34 => byteAt p 1 ≤ 1 ∧ byteAt p 10 ≤ 1 ∧ byteAt p 19 ≤ 1 ∧ byteAt p 22 ≤ 1
  | 0x38 => byteAt p 1 ≤ 55
  | 0x39 => byteAt p 1 ≤ 55
  | 0x3A => byteAt p 1 ≤ 55
  | 0x3B => byteAt p 1 ≤ 55
  | 0x3C => byteAt p 1 ≤ 55
  | 0x40 => memRead p 1 4 < 2 ^ 29 ∧ byteAt p 5 ≤ 31
  | 0x41 => memRead p 1 4 < 2 ^ 29 ∧ byteAt p 5 ≤ 8
  | 0x42 => True
  | 0x50 => True
  | _ => False

/-- A well-formed request (R86): the length its format gives, and legal operands. -/
def LegalRequest (p : Packet) : Prop := p ≠ [] ∧ requestLength (byteAt p) = some p.length ∧ legalOperands p

/-- A `PHYS` operand stands at offset `k`. -/
def physAt (p : Packet) (k : Nat) (v : Phys) : Prop := v.known.toNat = byteAt p k ∧ v.bits.toNat = memRead p (k + 1) 8

/-- A `RAWnOPT` operand of `n` value bytes stands at offset `k`. -/
def rawAt (p : Packet) (k n : Nat) {w : Nat} (v : RawOpt w) : Prop :=
  v.known.toNat = byteAt p k ∧ v.value.toNat = memRead p (k + 1) n

/-- A `CANID` operand stands at offset `k`. -/
def canIdAt (p : Packet) (k : Nat) (c : CanId) : Prop :=
  c.priority.toNat = byteAt p k ∧ c.reservedBit.toNat = byteAt p (k + 1) ∧ c.dataPage.toNat = byteAt p (k + 2) ∧
    c.pduFormat.toNat = byteAt p (k + 3) ∧ c.pduSpecific.toNat = byteAt p (k + 4) ∧
    c.sourceAddress.toNat = byteAt p (k + 5)

/-- A `DESC` operand stands at offset `k`. -/
def descAt (p : Packet) (k : Nat) (d : Desc) : Prop :=
  d.isSigned.toNat + 2 * d.hasSentinel.toNat = byteAt p k ∧ d.width = byteAt p (k + 1) ∧
    d.scale.toNat = memRead p (k + 2) 8 ∧ d.offset.toNat = memRead p (k + 10) 8

/-- A `BUF` operand stands at offset `k`, to the end of the packet. -/
def bufAt (p : Packet) (k : Nat) (b : Packet) : Prop := b.length = byteAt p k ∧ b = p.drop (k + 1)

/-- The operands of a command stand at the offsets that the format tables give (R73 to R80). -/
def operandsAt (p : Packet) : Instr → Prop
  | .idbuild pgn priority sa da =>
      byteAt p 0 = 0x10 ∧ pgn.toNat = memRead p 1 3 ∧ priority.toNat = byteAt p 4 ∧ sa.toNat = byteAt p 5 ∧
        da.toNat = byteAt p 6
  | .idpack id => byteAt p 0 = 0x11 ∧ canIdAt p 1 id
  | .idparse raw => byteAt p 0 = 0x12 ∧ raw.toNat = memRead p 1 4
  | .idpgn id => byteAt p 0 = 0x13 ∧ canIdAt p 1 id
  | .fenc desc value => byteAt p 0 = 0x20 ∧ descAt p 1 desc ∧ physAt p 19 value
  | .fdec desc raw => byteAt p 0 = 0x21 ∧ descAt p 1 desc ∧ raw.toNat = memRead p 19 8
  | .bins pos width raw buf =>
      byteAt p 0 = 0x28 ∧ pos.toNat = memRead p 1 2 ∧ width = byteAt p 3 ∧ raw.toNat = memRead p 4 8 ∧ bufAt p 12 buf
  | .bext pos width buf => byteAt p 0 = 0x29 ∧ pos.toNat = memRead p 1 2 ∧ width = byteAt p 3 ∧ bufAt p 4 buf
  | .pencPosr lat lon => byteAt p 0 = 0x30 ∧ physAt p 1 lat ∧ physAt p 10 lon
  | .pencCogsog sid ref cog sog =>
      byteAt p 0 = 0x31 ∧ sid.toNat = byteAt p 1 ∧ ref.toNat = byteAt p 2 ∧ physAt p 3 cog ∧ physAt p 12 sog
  | .pencGnss a =>
      byteAt p 0 = 0x32 ∧ a.sid.toNat = byteAt p 1 ∧ rawAt p 2 2 a.date ∧ physAt p 5 a.tod ∧ physAt p 14 a.lat ∧
        physAt p 23 a.lon ∧ physAt p 32 a.alt ∧ a.fixtype.toNat = byteAt p 41 ∧ a.method.toNat = byteAt p 42 ∧
        a.integ.toNat = byteAt p 43 ∧ rawAt p 44 1 a.numsv ∧ rawAt p 46 2 a.hdop ∧ rawAt p 49 2 a.pdop ∧
        rawAt p 52 4 a.geoid ∧ a.stations.length = byteAt p 57 ∧
        ∀ j st, a.stations[j]? = some st → rawAt p (58 + 6 * j) 2 st.tid ∧ rawAt p (61 + 6 * j) 2 st.age
  | .pencVpos lat lon => byteAt p 0 = 0x33 ∧ physAt p 1 lat ∧ physAt p 10 lon
  | .pencVds bearing speed pitch alt =>
      byteAt p 0 = 0x34 ∧ physAt p 1 bearing ∧ physAt p 10 speed ∧ rawAt p 19 2 pitch ∧ rawAt p 22 2 alt
  | .pdecPosr payload => byteAt p 0 = 0x38 ∧ bufAt p 1 payload
  | .pdecCogsog payload => byteAt p 0 = 0x39 ∧ bufAt p 1 payload
  | .pdecGnss payload => byteAt p 0 = 0x3A ∧ bufAt p 1 payload
  | .pdecVpos payload => byteAt p 0 = 0x3B ∧ bufAt p 1 payload
  | .pdecVds payload => byteAt p 0 = 0x3C ∧ bufAt p 1 payload
  | .fptx id seq payload =>
      byteAt p 0 = 0x40 ∧ id.toNat = memRead p 1 4 ∧ seq.toNat = byteAt p 5 ∧ bufAt p 6 payload
  | .fprx id dlc data now =>
      byteAt p 0 = 0x41 ∧ id.toNat = memRead p 1 4 ∧ dlc = byteAt p 5 ∧ data = (p.drop 6).take 8 ∧
        now.toNat = memRead p 14 8
  | .fptick now => byteAt p 0 = 0x42 ∧ now.toNat = memRead p 1 8
  | .rdcnt => byteAt p 0 = 0x50

/-! ### Statuses (`60_exceptions.md` R266) -/

/-- The status bytes a command can return besides `OK` and `IllegalCommand` (R266). -/
def statusesOf : Instr → List Byte
  | .idbuild .. => [0x01#8]
  | .idpack .. => []
  | .idparse .. => []
  | .idpgn .. => []
  | .fenc .. => []
  | .fdec .. => []
  | .bins .. => [0x02#8]
  | .bext .. => [0x02#8]
  | .pencPosr .. => []
  | .pencCogsog .. => []
  | .pencGnss .. => [0x03#8]
  | .pencVpos .. => []
  | .pencVds .. => []
  | .pdecPosr .. => [0x02#8]
  | .pdecCogsog .. => [0x02#8]
  | .pdecGnss .. => [0x02#8]
  | .pdecVpos .. => [0x02#8]
  | .pdecVds .. => [0x02#8]
  | .fptx .. => [0x02#8, 0x03#8]
  | .fprx .. => []
  | .fptick .. => []
  | .rdcnt => []

/-- The pure commands (`20_memory.md` R48): all but `FPRX`, `FPTICK` and `RDCNT`. -/
def isPure : Instr → Bool
  | .fprx .. => false
  | .fptick .. => false
  | .rdcnt => false
  | _ => true

/-! ### Receiving -/

/-- The response of `FPRX` (`30_encoding.md` R79). -/
def fprxReply (disp : Byte) (nexp : Nat) (id : Ident) (payload : Packet) : Packet :=
  0x00#8 :: disp :: (leBytes 2 (min nexp 65535) ++ leBytes 4 id.toNat ++ BitVec.ofNat 8 payload.length :: payload)

/-- What a dropped frame leaves (`44_fast_packet.md` R210): the sweep's removals, one more in `DROPPED` unless it is
saturated, and the response; nothing else. -/
def afterDrop (s : State) (id : Ident) (now : Ticks) (disp : Byte) : State :=
  { s with
    sess := sweep params now s.sess
    dropped := BitVec.ofNat 32 (min (s.dropped.toNat + 1) (2 ^ 32 - 1))
    responses := s.responses ++ [fprxReply disp (s.sess.length - (sweep params now s.sess).length) id []] }

/-- The host's requests that offer frames of identifier `id`, each 8 bytes with its time, one after the other. -/
def offers (id : Ident) (frames : List (Packet × Ticks)) : List HostAction :=
  frames.map fun f => .request (encode (.fprx id 8 f.1 f.2))

/-- `FPRX` for 8-byte frames of any identifiers, each with its time, one after the other: the final state and the results,
each with its frame's identifier. -/
def offerAll (c : Params) : List (Ident × Packet × Ticks) → State → State × List (Ident × FprxResult)
  | [], s => (s, [])
  | (id, data, now) :: rest, s =>
    let r := fprx c id 8 data now s
    let q := offerAll c rest r.1
    (q.1, (id, r.2) :: q.2)

/-! ### Values that come back (`43_pgn_codecs.md` R178 (a)) -/

/-- `r` is what `v` becomes on its way through field `d`: an unknown stays unknown, and a value in the field's numeric range
comes back within half a count. -/
def Recovered (t : RoundTies) (d : FieldDesc) (v : Option PhysInput) (r : Option ℚ) : Prop :=
  (v = none → r = none) ∧
    ∀ q, v = some (.rat q) → loOf d ≤ roundTo t (quotient d q) → roundTo t (quotient d q) ≤ hiOf d →
      ∃ q', r = some q' ∧ |q' - q| ≤ d.scale / d.unit / 2

/-- The same for an integer code, which comes back exactly. -/
def RecoveredCode (d : FieldDesc) (v r : Option Int) : Prop :=
  (v = none → r = none) ∧ ∀ k, v = some k → loOf d ≤ k → k ≤ hiOf d → r = some k

/-- The values of a message come back, for `PDEC.GNSS` (R168, R178 (a)). -/
def RecoveredGnss (t : RoundTies) (v : GnssValues) (r : GnssResult) : Prop :=
  (r.sid = v.sid ∧ r.fixtype = v.fixtype ∧ r.method = v.method ∧ r.integ = v.integ ∧
    r.nref.toNat = v.stations.length) ∧
    (Recovered t gTod v.tod r.tod ∧ Recovered t gLat v.lat r.lat ∧ Recovered t gLon v.lon r.lon ∧
      Recovered t gAlt v.alt r.alt) ∧
    (RecoveredCode gDate v.date r.date ∧ RecoveredCode gNumsv v.numsv r.numsv ∧ RecoveredCode gHdop v.hdop r.hdop ∧
      RecoveredCode gPdop v.pdop r.pdop ∧ RecoveredCode gGeoid v.geoid r.geoid) ∧
    r.stations.length = v.stations.length ∧
    ∀ j a b, v.stations[j]? = some a → r.stations[j]? = some b →
      RecoveredCode (gTid j) a.1 b.1 ∧ RecoveredCode (gAge j) a.2 b.2

/-- What is delivered for a message has the message's values (`45_system.md` R244). -/
def RecoveredMessage (t : RoundTies) : Message → Delivered → Prop
  | .posr lat lon, .posr lat' lon' => Recovered t posrLat lat lat' ∧ Recovered t posrLon lon lon'
  | .cogsog sid ref cog sog, .cogsog r =>
      r.sid = sid ∧ r.ref = ref ∧ Recovered t csCog cog r.cog ∧ Recovered t csSog sog r.sog
  | .gnss v, .gnss r => RecoveredGnss t v r
  | .vpos lat lon, .vpos lat' lon' => Recovered t vpLat lat lat' ∧ Recovered t vpLon lon lon'
  | .vds bearing speed pitch alt, .vds r =>
      Recovered t vdBearing bearing r.bearing ∧ Recovered t vdSpeed speed r.speed ∧
        RecoveredCode vdPitch pitch r.pitch ∧ RecoveredCode vdAlt alt r.alt
  | _, _ => False

/-- The message can be framed: a GNSS message has at most three reference stations (`43_pgn_codecs.md` R166). -/
def messageFits : Message → Bool
  | .gnss v => decide (v.stations.length ≤ gnssMaxRef)
  | _ => true

end Sys2Proof.Machine
end

