-- ==== Sys2Proof/Certificates/Slice0/Obligations.lean ====
section
/-! DEFINITION. The statements for the provers: each says what rules of the spec say of the machine. A statement whose name
ends in `Completes` says where its command answers, and with what. -/

section

open Sys2Proof Sys2Proof.Machine Sys2Proof.Config

/-! ### Encodings (`30_encoding.md` Part B) -/

/-- Every well-formed command is read back from its request, with every operand at every value. -/
def Obligations.DecodeInvertsEncode : Prop :=
  ∀ i : Instr, i.wellFormed = true → decode (encode i) = .ok i

/-- Every request that is accepted spells one well-formed command and no bit of it is dropped. -/
def Obligations.EncodeInvertsDecode : Prop :=
  ∀ (p : Packet) (i : Instr), decode p = .ok i → i.wellFormed = true ∧ encode i = p

/-- R86: the legal requests are accepted; every other byte string is answered `IllegalCommand` and changes nothing. -/
def Obligations.IllegalRequestsExactly : Prop :=
  ∀ p : Packet,
    (LegalRequest p → ∃ i : Instr, decode p = .ok i ∧ i.wellFormed = true) ∧
    (¬ LegalRequest p → ∀ (s : State) (rest : List HostAction), s.inbox = .request p :: rest →
      step s = .next ({ s with inbox := rest }.respond [0x7F#8]))

/-- R73 to R80: every operand of an accepted request stands at the byte offset of its format table. -/
def Obligations.OperandsStandAtTheirOffsets : Prop :=
  ∀ (p : Packet) (i : Instr), decode p = .ok i → operandsAt p i

/-- A few request packets of `95_test_vectors.md`, one for each unit: V4, V19, V77, V204 (its legal neighbour), V134,
V154 and V150. -/
def Obligations.SpecPacketsDecode : Prop :=
  decode [0x10#8, 0x00#8, 0xEF#8, 0x00#8, 0x06#8, 0x80#8, 0x26#8] = .ok (.idbuild 0x0EF00#17 6#3 0x80#8 0x26#8) ∧
  decode [0x12#8, 0x00#8, 0x00#8, 0x00#8, 0x02#8] = .ok (.idparse 0x02000000#29) ∧
  decode [0x29#8, 0x04#8, 0x00#8, 0x0C#8, 0x04#8, 0xC0#8, 0xAB#8, 0x00#8, 0x00#8] =
    .ok (.bext 4#16 12 [0xC0#8, 0xAB#8, 0x00#8, 0x00#8]) ∧
  decode [0x38#8, 0x02#8, 0x58#8, 0xB9#8] = .ok (.pdecPosr [0x58#8, 0xB9#8]) ∧
  decode [0x40#8, 0x23#8, 0x05#8, 0xF8#8, 0x0D#8, 0x03#8, 0x01#8, 0xA0#8] = .ok (.fptx 0x0DF80523#29 3#5 [0xA0#8]) ∧
  decode [0x42#8, 0xD0#8, 0x07#8, 0x00#8, 0x00#8, 0x00#8, 0x00#8, 0x00#8, 0x00#8] = .ok (.fptick 2000#64) ∧
  decode [0x50#8] = .ok .rdcnt

/-! ### The step -/

/-- A step runs the command that the host's next request spells, and takes that request from the host's stream. -/
def Obligations.StepRunsDecodedCommand : Prop :=
  ∀ (s : State) (p : Packet) (rest : List HostAction) (i : Instr), s.inbox = .request p :: rest → decode p = .ok i →
    step s = exec i { s with inbox := rest }

/-- R16: one request gives exactly one response, in every state; its status byte is one that R266 allows the command. -/
def Obligations.OneResponsePerRequest : Prop :=
  ∀ (s : State) (p : Packet) (rest : List HostAction), s.inbox = .request p :: rest →
    ∃ (t : State) (status : Byte) (fields : Packet), step s = .next t ∧ t.inbox = rest ∧
      t.responses = s.responses ++ [status :: fields] ∧ (status ≠ 0x00#8 → fields = []) ∧
      (status = 0x00#8 ∨ status = 0x7F#8 ∨ ∃ i : Instr, decode p = .ok i ∧ status ∈ statusesOf i)

/-- R300, R301: reset empties the table and clears the counter, whatever the state was. That it gives no
response and leaves the host's streams is the form this model gives the host (assumptions 3 and 10). -/
def Obligations.ResetClearsTableAndCounter : Prop :=
  (State.reset.sess = [] ∧ State.reset.dropped = 0#32 ∧ State.reset.active = 0) ∧
  ∀ (s : State) (rest : List HostAction), s.inbox = .reset :: rest →
    step s = .next { s with inbox := rest, sess := [], dropped := 0#32 }

/-! ### Failures (`60_exceptions.md`) -/

/-- R261: `InvalidAddressing` is raised by `IDBUILD` alone, exactly when the PGN is PDU2 and the destination is not
broadcast. -/
def Obligations.InvalidAddressingExactly : Prop :=
  ∀ (i : Instr) (s : State), exec i s = .next (s.respond [0x01#8]) ↔
    ∃ (pgn : Pgn) (priority : BitVec 3) (sa da : Byte), i = .idbuild pgn priority sa da ∧
      240 ≤ pgn.toNat / 256 % 256 ∧ da ≠ 0xFF#8

/-- R262: the commands and conditions that raise `MalformedPayload`. -/
def Obligations.MalformedPayloadExactly : Prop :=
  ∀ (i : Instr) (s : State), exec i s = .next (s.respond [0x02#8]) ↔
    (∃ P : Packet, (i = .pdecPosr P ∨ i = .pdecCogsog P ∨ i = .pdecVpos P ∨ i = .pdecVds P) ∧ P.length ≠ 8) ∨
    (∃ P : Packet, i = .pdecGnss P ∧
      (P.length < 43 ∨ (4 ≤ byteAt P 42 ∧ byteAt P 42 ≤ 254) ∨
        P.length ≠ 43 + 4 * (if byteAt P 42 = 255 then 0 else byteAt P 42))) ∨
    (∃ (pos : BitVec 16) (width : Nat) (raw : BitVec 64) (buf : Packet), i = .bins pos width raw buf ∧
      8 * buf.length < pos.toNat + width) ∨
    (∃ (pos : BitVec 16) (width : Nat) (buf : Packet), i = .bext pos width buf ∧
      8 * buf.length < pos.toNat + width) ∨
    ∃ (id : Ident) (seq : SeqCounter), i = .fptx id seq []

/-- R263: the commands and conditions that raise `PayloadTooLarge`. -/
def Obligations.PayloadTooLargeExactly : Prop :=
  ∀ (i : Instr) (s : State), exec i s = .next (s.respond [0x03#8]) ↔
    (∃ (id : Ident) (seq : SeqCounter) (payload : Packet), i = .fptx id seq payload ∧ 55 < payload.length) ∨
    ∃ args : GnssArgs, i = .pencGnss args ∧ 3 < args.stations.length

/-- R48, R273: a pure command reads no state and writes none, whatever its status: the same request has the same response in
every state, and only the response is new. The other three commands never fail. -/
def Obligations.FailuresLeaveNoTrace : Prop :=
  ∀ i : Instr,
    (isPure i = true → ∃ r : Packet, ∀ s : State, exec i s = .next (s.respond r)) ∧
    (isPure i = false → ∀ s : State, ∃ (t : State) (fields : Packet), exec i s = .next t ∧
      t.responses = s.responses ++ [0x00#8 :: fields] ∧ t.inbox = s.inbox)

/-! ### CAN Identifier Codec (`40_can_identifier.md`) -/

/-- R102: `IDBUILD`, with the fields of the PGN by division: the PDU1 and the PDU2 identifier, and the destination it
refuses. -/
def Obligations.IdbuildCompletes : Prop :=
  ∀ (pgn : Pgn) (priority : BitVec 3) (sa da : Byte) (s : State),
    (pgn.toNat / 256 % 256 < 240 →
      exec (.idbuild pgn priority sa da) s = .next (s.respond [0x00#8, BitVec.ofNat 8 priority.toNat, 0x00#8,
        BitVec.ofNat 8 (pgn.toNat / 65536), BitVec.ofNat 8 (pgn.toNat / 256 % 256), da, sa])) ∧
    (240 ≤ pgn.toNat / 256 % 256 → da = 0xFF#8 →
      exec (.idbuild pgn priority sa da) s = .next (s.respond [0x00#8, BitVec.ofNat 8 priority.toNat, 0x00#8,
        BitVec.ofNat 8 (pgn.toNat / 65536), BitVec.ofNat 8 (pgn.toNat / 256 % 256), BitVec.ofNat 8 (pgn.toNat % 256), sa])) ∧
    (240 ≤ pgn.toNat / 256 % 256 → da ≠ 0xFF#8 →
      exec (.idbuild pgn priority sa da) s = .next (s.respond [0x01#8]))

/-- R103, R60: `IDPACK` gives the weighted sum of the fields, in four little-endian bytes. -/
def Obligations.IdpackCompletes : Prop :=
  ∀ (c : CanId) (s : State),
    exec (.idpack c) s = .next (s.respond (0x00#8 :: leBytes 4 (c.priority.toNat * 2 ^ 26 + c.reservedBit.toNat * 2 ^ 25 +
      c.dataPage.toNat * 2 ^ 24 + c.pduFormat.toNat * 2 ^ 16 + c.pduSpecific.toNat * 2 ^ 8 + c.sourceAddress.toNat)))

/-- R104: `IDPARSE` gives the fields of the packed form. -/
def Obligations.IdparseCompletes : Prop :=
  ∀ (raw : Ident) (s : State),
    exec (.idparse raw) s = .next (s.respond [0x00#8, BitVec.ofNat 8 (raw.toNat / 2 ^ 26), BitVec.ofNat 8 (raw.toNat / 2 ^ 25 % 2),
      BitVec.ofNat 8 (raw.toNat / 2 ^ 24 % 2), BitVec.ofNat 8 (raw.toNat / 2 ^ 16), BitVec.ofNat 8 (raw.toNat / 2 ^ 8),
      BitVec.ofNat 8 raw.toNat])

/-- R105: `IDPGN` gives the PGN and the effective destination. -/
def Obligations.IdpgnCompletes : Prop :=
  ∀ (c : CanId) (s : State),
    exec (.idpgn c) s = .next (s.respond (0x00#8 ::
      (if 240 ≤ c.pduFormat.toNat then
        leBytes 3 (c.dataPage.toNat * 65536 + c.pduFormat.toNat * 256 + c.pduSpecific.toNat) ++ [0xFF#8]
      else leBytes 3 (c.dataPage.toNat * 65536 + c.pduFormat.toNat * 256) ++ [c.pduSpecific])))

/-- R106 (a) to (f): the round trips of identifiers and of PGNs. -/
def Obligations.IdentifierRoundTrips : Prop :=
  (∀ c : CanId, idparse (idpack c) = c) ∧
  (∀ raw : Ident, idpack (idparse raw) = raw) ∧
  (∀ (pgn : Pgn) (priority : BitVec 3) (sa da : Byte) (c : CanId), idbuild pgn priority sa da = .ok c →
    idparse (idpack c) = c) ∧
  (∀ (pgn : Pgn) (priority : BitVec 3) (sa : Byte), 240 ≤ pgn.toNat / 256 % 256 →
    ∃ c : CanId, idbuild pgn priority sa 0xFF#8 = .ok c ∧ idpgn c = (pgn, 0xFF#8)) ∧
  (∀ (pgn : Pgn) (priority : BitVec 3) (sa da : Byte), pgn.toNat / 256 % 256 < 240 → pgn.toNat % 256 = 0 →
    ∃ c : CanId, idbuild pgn priority sa da = .ok c ∧ idpgn c = (pgn, da)) ∧
  (∀ (pgn : Pgn) (priority : BitVec 3) (sa da : Byte), pgn.toNat / 256 % 256 < 240 → pgn.toNat % 256 ≠ 0 →
    ∃ c : CanId, idbuild pgn priority sa da = .ok c ∧
      idpgn c = (BitVec.ofNat 17 (pgn.toNat - pgn.toNat % 256), da))

/-! ### Fixed-Point Field Codec (`41_field_scaler.md`) and the packet boundary (`00_scope.md` R12, R13) -/

/-- R123, R124: `FENC` clamps to the range of R122 and encodes an unknown as the sentinel; an unknown for a field that has
no sentinel is illegal. -/
def Obligations.FencCompletes : Prop :=
  (∀ (d : Desc) (v : Phys) (s : State), physIn v = none → d.hasSentinel = false →
    exec (.fenc d v) s = .next (s.respond [0x7F#8])) ∧
  ∀ (d : Desc) (v : Phys) (s : State), (Instr.fenc d v).wellFormed = true →
    let lo : Int := if d.isSigned then -(2 ^ (d.width - 1)) else 0
    let top : Int := if d.isSigned then 2 ^ (d.width - 1) - 1 else 2 ^ d.width - 1
    let hi : Int := if d.hasSentinel then top - 1 else top
    let k : Int :=
      match physIn v with
      | none => top
      | some .posInf => hi
      | some .negInf => lo
      | some (.rat q) => max lo (min hi (roundTo params.roundTies ((q - f64Rat d.offset) / f64Rat d.scale)))
    exec (.fenc d v) s = .next (s.respond (0x00#8 :: leBytes 8 (k % 2 ^ d.width).toNat))

/-- R125: `FDEC` recognises the sentinel first and else scales the code, read with its sign. -/
def Obligations.FdecCompletes : Prop :=
  ∀ (d : Desc) (raw : BitVec 64) (s : State), (Instr.fdec d raw).wellFormed = true →
    let sent : Nat := if d.isSigned then 2 ^ (d.width - 1) - 1 else 2 ^ d.width - 1
    let k : Int := if d.isSigned ∧ 2 ^ (d.width - 1) ≤ raw.toNat then (raw.toNat : Int) - 2 ^ d.width else raw.toNat
    exec (.fdec d raw) s = .next (s.respond (0x00#8 ::
      (if d.hasSentinel ∧ raw.toNat = sent then 0x00#8 :: leBytes 8 0
      else 0x01#8 :: leBytes 8 (f64OfRat ((k : ℚ) * f64Rat d.scale + f64Rat d.offset)).toNat)))

/-- R126 (a) to (f): the laws of the scaler, for every descriptor. -/
def Obligations.ScalerLaws : Prop :=
  ∀ (t : RoundTies) (d : FieldDesc), 1 ≤ d.width → 0 < d.scale → 0 < d.unit →
    (d.hasSentinel = true → fenc t d none = sentinel d ∧ fdec d (sentinel d) = none) ∧
    (d.hasSentinel = true → ∀ v : PhysInput, fenc t d (some v) ≠ sentinel d) ∧
    (∀ q : ℚ, loOf d ≤ roundTo t (quotient d q) → roundTo t (quotient d q) ≤ hiOf d →
      ∃ q' : ℚ, fdec d (fenc t d (some (.rat q))) = some q' ∧ |q' - q| ≤ d.scale / d.unit / 2) ∧
    (∀ q : ℚ, (hiOf d < roundTo t (quotient d q) → fenc t d (some (.rat q)) = codeOf d (hiOf d)) ∧
      (roundTo t (quotient d q) < loOf d → fenc t d (some (.rat q)) = codeOf d (loOf d))) ∧
    (∀ c : Nat, c < 2 ^ d.width → fenc t d ((fdec d c).map .rat) = c) ∧
    (∀ q₁ q₂ : ℚ, q₁ ≤ q₂ → fencInt t d (.rat q₁) ≤ fencInt t d (.rat q₂))

/-- R12: `round` answers the nearest integer, and a tie goes as `ROUND_TIES` says. -/
def Obligations.RoundGoesToNearest : Prop :=
  ∀ (t : RoundTies) (q : ℚ), |(roundTo t q : ℚ) - q| ≤ 1 / 2 ∧
    ∀ k : Int, (|(k : ℚ) - q| < 1 / 2 → roundTo t q = k) ∧
      (q = (k : ℚ) + 1 / 2 →
        roundTo .away q = (if 0 < q then k + 1 else k) ∧ roundTo .up q = k + 1 ∧
        roundTo .even q = (if k % 2 = 0 then k else k + 1))

/-- R128: the table of roundings. The quotient of the last row is that of the source's course example. -/
def Obligations.RoundingTable : Prop :=
  (∀ t : RoundTies, roundTo t 0 = 0 ∧ roundTo t (24999 / 10000) = 2 ∧ roundTo t (-25001 / 10000) = -3 ∧
    roundTo t (61733 / 1000) = 62 ∧ roundTo t (45 * deg2rad * 10 ^ 4) = 7854 ∧ roundTo t (3 / 2) = 2) ∧
  (roundTo .away (1 / 2) = 1 ∧ roundTo .even (1 / 2) = 0 ∧ roundTo .up (1 / 2) = 1) ∧
  (roundTo .away (-1 / 2) = -1 ∧ roundTo .even (-1 / 2) = 0 ∧ roundTo .up (-1 / 2) = 0) ∧
  (roundTo .away (-3 / 2) = -2 ∧ roundTo .even (-3 / 2) = -2 ∧ roundTo .up (-3 / 2) = -1) ∧
  (roundTo .away (5 / 2) = 3 ∧ roundTo .even (5 / 2) = 2 ∧ roundTo .up (5 / 2) = 3) ∧
  (roundTo .away (-5 / 2) = -3 ∧ roundTo .even (-5 / 2) = -2 ∧ roundTo .up (-5 / 2) = -2)

/-- R13: a finite binary64 number that is not zero is written back to the pattern it was read from; zero is written as the
all-zero pattern. -/
def Obligations.Binary64RoundTrip : Prop :=
  f64OfRat 0 = 0#64 ∧ ∀ (b : BitVec 64) (q : ℚ), f64val b = .rat q → q ≠ 0 → f64OfRat q = b

/-- R13: `f64_of_rat` answers the nearest binary64 number, ties to the one with the even fraction, and an infinity from
`2^1024 - 2^970` on. -/
def Obligations.Binary64IsNearest : Prop :=
  ∀ q : ℚ,
    (|q| < 2 ^ 1024 - 2 ^ 970 → ∃ r : ℚ, f64val (f64OfRat q) = .rat r ∧
      ∀ (b : BitVec 64) (r' : ℚ), f64val b = .rat r' →
        |r - q| ≤ |r' - q| ∧ (|r - q| = |r' - q| → r' ≠ r → f64Frac (f64OfRat q) % 2 = 0)) ∧
    (2 ^ 1024 - 2 ^ 970 ≤ q → f64val (f64OfRat q) = .posInf) ∧
    (q ≤ -(2 ^ 1024 - 2 ^ 970) → f64val (f64OfRat q) = .negInf)

/-! ### Bit-packer (`42_bit_packer.md`) and byte order (`00_scope.md` R15, `20_memory.md` R44) -/

/-- R15, R44: what the byte-granular memory primitives read and write: the byte at the lowest offset is the least
significant. -/
def Obligations.MemoryIsLittleEndian : Prop :=
  (∀ (B : Packet) (a n : Nat), a + n ≤ B.length →
    memRead B a n = ((List.range n).map fun k => byteAt B (a + k) * 2 ^ (8 * k)).sum) ∧
  (∀ (B : Packet) (a n v : Nat), a + n ≤ B.length → v < 2 ^ (8 * n) →
    (memWrite B a n v).length = B.length ∧
    ∀ p : Nat, byteAt (memWrite B a n v) p = if a ≤ p ∧ p < a + n then v / 2 ^ (8 * (p - a)) % 256 else byteAt B p)

/-- R140, R141: on whole bytes the bit primitives are the byte primitives. -/
def Obligations.BitAccessIsByteAccess : Prop :=
  ∀ (B : Packet) (a n : Nat), a + n ≤ B.length →
    bitRead B (8 * a) (8 * n) = memRead B a n ∧
    ∀ v : Nat, v < 2 ^ (8 * n) → bitWrite B (8 * a) (8 * n) v = memWrite B a n v

/-- R145 (a) to (d): the laws of the bit primitives. -/
def Obligations.BitFieldLaws : Prop :=
  ∀ (B : Packet) (p w v : Nat), p + w ≤ 8 * B.length → v < 2 ^ w →
    bitRead (bitWrite B p w v) p w = v ∧
    bitWrite B p w (bitRead B p w) = B ∧
    (∀ p₂ w₂ v₂ : Nat, p₂ + w₂ ≤ 8 * B.length → v₂ < 2 ^ w₂ → p₂ + w₂ ≤ p ∨ p + w ≤ p₂ →
      bitRead (bitWrite B p w v) p₂ w₂ = bitRead B p₂ w₂ ∧
      bitWrite (bitWrite B p w v) p₂ w₂ v₂ = bitWrite (bitWrite B p₂ w₂ v₂) p w v) ∧
    (bitWrite B p w v).length = B.length

/-- R142: `BINS` changes the bits of the field and no other, and keeps the length; a field that does not lie inside the
buffer is malformed. -/
def Obligations.BinsCompletes : Prop :=
  (∀ (pos : BitVec 16) (width : Nat) (raw : BitVec 64) (buf : Packet) (s : State), 8 * buf.length < pos.toNat + width →
    exec (.bins pos width raw buf) s = .next (s.respond [0x02#8])) ∧
  ∀ (pos : BitVec 16) (width : Nat) (raw : BitVec 64) (buf : Packet) (s : State), pos.toNat + width ≤ 8 * buf.length →
    ∃ buf' : Packet, exec (.bins pos width raw buf) s =
        .next (s.respond (0x00#8 :: BitVec.ofNat 8 buf.length :: buf')) ∧ buf'.length = buf.length ∧
      ∀ m : Nat, m < 8 * buf.length → (buf'.getD (m / 8) 0#8).getLsbD (m % 8) =
        if pos.toNat ≤ m ∧ m < pos.toNat + width then raw.toNat.testBit (m - pos.toNat)
        else (buf.getD (m / 8) 0#8).getLsbD (m % 8)

/-- R143: `BEXT` gives the sum of the field's bits, each at its place; a field that does not lie inside the buffer is
malformed. -/
def Obligations.BextCompletes : Prop :=
  (∀ (pos : BitVec 16) (width : Nat) (buf : Packet) (s : State), 8 * buf.length < pos.toNat + width →
    exec (.bext pos width buf) s = .next (s.respond [0x02#8])) ∧
  ∀ (pos : BitVec 16) (width : Nat) (buf : Packet) (s : State), pos.toNat + width ≤ 8 * buf.length →
    exec (.bext pos width buf) s = .next (s.respond (0x00#8 :: leBytes 8
      ((List.range width).map fun i =>
        ((buf.getD ((pos.toNat + i) / 8) 0#8).getLsbD ((pos.toNat + i) % 8)).toNat * 2 ^ i).sum))

/-! ### PGN Payload Codecs (`43_pgn_codecs.md`); a field is given by its row of R152 -/

/-- R156, R171: the two position encoders. -/
def Obligations.PencPositionCompletes : Prop :=
  ∀ (lat lon : Phys) (s : State),
    exec (.pencPosr lat lon) s = .next (s.respond (0x00#8 :: 8#8 ::
      (leBytes 4 (fenc params.roundTies ⟨0, 32, 1 / 10 ^ 7, 0, 1, true, true⟩ (physIn lat)) ++
        leBytes 4 (fenc params.roundTies ⟨32, 32, 1 / 10 ^ 7, 0, 1, true, true⟩ (physIn lon))))) ∧
    exec (.pencVpos lat lon) s = .next (s.respond (0x00#8 :: 8#8 ::
      (leBytes 4 (fenc params.roundTies ⟨0, 32, 1 / 10 ^ 7, -210, 1, false, true⟩ (physIn lat)) ++
        leBytes 4 (fenc params.roundTies ⟨32, 32, 1 / 10 ^ 7, -210, 1, false, true⟩ (physIn lon)))))

/-- R159: the course and speed encoder; bytes 6 and 7 are the constant 0xFFFF. -/
def Obligations.PencCogsogCompletes : Prop :=
  ∀ (sid ref : Byte) (cog sog : Phys) (s : State),
    exec (.pencCogsog sid ref cog sog) s = .next (s.respond (0x00#8 :: 8#8 :: sid :: ref ::
      (leBytes 2 (fenc params.roundTies ⟨16, 16, 1 / 10 ^ 4, 0, 5030569068109113 / 2 ^ 58, false, true⟩ (physIn cog)) ++
        leBytes 2 (fenc params.roundTies ⟨32, 16, 1 / 10 ^ 2, 0, 1, false, true⟩ (physIn sog)) ++ [0xFF#8, 0xFF#8])))

/-- R175: the direction and speed encoder; pitch and altitude are codes. -/
def Obligations.PencVdsCompletes : Prop :=
  ∀ (bearing speed : Phys) (pitch alt : RawOpt 16) (s : State),
    let code (r : RawOpt 16) : Nat := if r.known then min r.value.toNat 0xFFFE else 0xFFFF
    exec (.pencVds bearing speed pitch alt) s = .next (s.respond (0x00#8 :: 8#8 ::
      (leBytes 2 (fenc params.roundTies ⟨0, 16, 1 / 128, 0, 1, false, true⟩ (physIn bearing)) ++
        leBytes 2 (fenc params.roundTies ⟨16, 16, 1 / 256, 0, 18 / 5, false, true⟩ (physIn speed)) ++
        leBytes 2 (code pitch) ++ leBytes 2 (code alt))))

/-- R167: the GNSS encoder with up to three reference stations; more are too large. -/
def Obligations.PencGnssCompletes : Prop :=
  (∀ (a : GnssArgs) (s : State), 3 < a.stations.length → exec (.pencGnss a) s = .next (s.respond [0x03#8])) ∧
  ∀ (a : GnssArgs) (s : State), a.stations.length ≤ 3 →
    let code8 (r : RawOpt 8) : Nat := if r.known then min r.value.toNat 0xFE else 0xFF
    let code16 (r : RawOpt 16) : Nat := if r.known then min r.value.toNat 0xFFFE else 0xFFFF
    let geoid : Nat :=
      if a.geoid.known then (if a.geoid.value.toNat = 0x7FFFFFFF then 0x7FFFFFFE else a.geoid.value.toNat)
      else 0x7FFFFFFF
    exec (.pencGnss a) s = .next (s.respond (0x00#8 :: BitVec.ofNat 8 (43 + 4 * a.stations.length) :: a.sid ::
      (leBytes 2 (code16 a.date) ++
        leBytes 4 (fenc params.roundTies ⟨24, 32, 1 / 10 ^ 4, 0, 1, false, true⟩ (physIn a.tod)) ++
        leBytes 8 (fenc params.roundTies ⟨56, 64, 1 / 10 ^ 16, 0, 1, true, true⟩ (physIn a.lat)) ++
        leBytes 8 (fenc params.roundTies ⟨120, 64, 1 / 10 ^ 16, 0, 1, true, true⟩ (physIn a.lon)) ++
        leBytes 8 (fenc params.roundTies ⟨184, 64, 1 / 10 ^ 6, 0, 1, true, true⟩ (physIn a.alt)) ++
        BitVec.ofNat 8 (a.fixtype.toNat + 16 * a.method.toNat) :: a.integ ::
        (leBytes 1 (code8 a.numsv) ++ leBytes 2 (code16 a.hdop) ++ leBytes 2 (code16 a.pdop) ++ leBytes 4 geoid ++
          BitVec.ofNat 8 a.stations.length ::
          a.stations.flatMap fun st => leBytes 2 (code16 st.tid) ++ leBytes 2 (code16 st.age)))))

/-- R160, R172: the two position decoders on a payload of 8 bytes, and on one of another length. -/
def Obligations.PdecPositionCompletes : Prop :=
  (∀ (P : Packet) (s : State), P.length ≠ 8 →
    exec (.pdecPosr P) s = .next (s.respond [0x02#8]) ∧ exec (.pdecVpos P) s = .next (s.respond [0x02#8])) ∧
  ∀ (P : Packet) (s : State), P.length = 8 →
    exec (.pdecPosr P) s = .next (s.respond (0x00#8 ::
      (physOut (fdec ⟨0, 32, 1 / 10 ^ 7, 0, 1, true, true⟩ (memRead P 0 4)) ++
        physOut (fdec ⟨32, 32, 1 / 10 ^ 7, 0, 1, true, true⟩ (memRead P 4 4))))) ∧
    exec (.pdecVpos P) s = .next (s.respond (0x00#8 ::
      (physOut (fdec ⟨0, 32, 1 / 10 ^ 7, -210, 1, false, true⟩ (memRead P 0 4)) ++
        physOut (fdec ⟨32, 32, 1 / 10 ^ 7, -210, 1, false, true⟩ (memRead P 4 4)))))

/-- R161, R176: the two course and speed decoders on a payload of 8 bytes, and on one of another length. `PDEC.COGSOG` does
not examine bytes 6 and 7; a pitch or altitude code equal to the sentinel comes back as unavailable. -/
def Obligations.PdecCourseSpeedCompletes : Prop :=
  (∀ (P : Packet) (s : State), P.length ≠ 8 →
    exec (.pdecCogsog P) s = .next (s.respond [0x02#8]) ∧ exec (.pdecVds P) s = .next (s.respond [0x02#8])) ∧
  ∀ (P : Packet) (s : State), P.length = 8 →
    let code (c : Nat) : Packet := if c = 0xFFFF then [0x00#8, 0x00#8, 0x00#8] else 0x01#8 :: leBytes 2 c
    exec (.pdecCogsog P) s = .next (s.respond (0x00#8 :: P.getD 0 0#8 :: P.getD 1 0#8 ::
      (physOut (fdec ⟨16, 16, 1 / 10 ^ 4, 0, 5030569068109113 / 2 ^ 58, false, true⟩ (memRead P 2 2)) ++
        physOut (fdec ⟨32, 16, 1 / 10 ^ 2, 0, 1, false, true⟩ (memRead P 4 2))))) ∧
    exec (.pdecVds P) s = .next (s.respond (0x00#8 ::
      (physOut (fdec ⟨0, 16, 1 / 128, 0, 1, false, true⟩ (memRead P 0 2)) ++
        physOut (fdec ⟨16, 16, 1 / 256, 0, 18 / 5, false, true⟩ (memRead P 2 2)) ++
        code (memRead P 4 2) ++ code (memRead P 6 2))))

/-- R168: the GNSS decoder on a payload of the length that its byte 42 announces, and on any other. -/
def Obligations.PdecGnssCompletes : Prop :=
  (∀ (P : Packet) (s : State), (P.length < 43 ∨ (4 ≤ byteAt P 42 ∧ byteAt P 42 ≤ 254) ∨
      P.length ≠ 43 + 4 * (if byteAt P 42 = 255 then 0 else byteAt P 42)) →
    exec (.pdecGnss P) s = .next (s.respond [0x02#8])) ∧
  ∀ (P : Packet) (n : Nat) (s : State), P.length = 43 + 4 * n →
    (byteAt P 42 ≤ 3 ∧ n = byteAt P 42) ∨ (byteAt P 42 = 255 ∧ n = 0) →
    let code (w c : Nat) : Packet := if c = 256 ^ w - 1 then 0x00#8 :: leBytes w 0 else 0x01#8 :: leBytes w c
    let geoid (c : Nat) : Packet := if c = 0x7FFFFFFF then 0x00#8 :: leBytes 4 0 else 0x01#8 :: leBytes 4 c
    exec (.pdecGnss P) s = .next (s.respond (0x00#8 :: P.getD 0 0#8 ::
      (code 2 (memRead P 1 2) ++
        physOut (fdec ⟨24, 32, 1 / 10 ^ 4, 0, 1, false, true⟩ (memRead P 3 4)) ++
        physOut (fdec ⟨56, 64, 1 / 10 ^ 16, 0, 1, true, true⟩ (memRead P 7 8)) ++
        physOut (fdec ⟨120, 64, 1 / 10 ^ 16, 0, 1, true, true⟩ (memRead P 15 8)) ++
        physOut (fdec ⟨184, 64, 1 / 10 ^ 6, 0, 1, true, true⟩ (memRead P 23 8)) ++
        BitVec.ofNat 8 (byteAt P 31 % 16) :: BitVec.ofNat 8 (byteAt P 31 / 16) :: P.getD 32 0#8 ::
        (code 1 (memRead P 33 1) ++ code 2 (memRead P 34 2) ++ code 2 (memRead P 36 2) ++ geoid (memRead P 38 4) ++
          P.getD 42 0#8 ::
          (List.range n).flatMap fun j => code 2 (memRead P (43 + 4 * j) 2) ++ code 2 (memRead P (45 + 4 * j) 2)))))

/-- R178 (a), (c) for the four short PGNs: decoding an encoded payload gives the values back. -/
def Obligations.ShortPayloadsComeBack : Prop :=
  ∀ t : RoundTies,
    (∀ lat lon : Option PhysInput, (pencPosr t lat lon).length = 8 ∧
      ∃ lat' lon' : Option ℚ, pdecPosr (pencPosr t lat lon) = .ok (lat', lon') ∧
        Recovered t posrLat lat lat' ∧ Recovered t posrLon lon lon') ∧
    (∀ (sid ref : Byte) (cog sog : Option PhysInput), (pencCogsog t sid ref cog sog).length = 8 ∧
      ∃ r : CogsogResult, pdecCogsog (pencCogsog t sid ref cog sog) = .ok r ∧ r.sid = sid ∧ r.ref = ref ∧
        Recovered t csCog cog r.cog ∧ Recovered t csSog sog r.sog) ∧
    (∀ lat lon : Option PhysInput, (pencVpos t lat lon).length = 8 ∧
      ∃ lat' lon' : Option ℚ, pdecVpos (pencVpos t lat lon) = .ok (lat', lon') ∧
        Recovered t vpLat lat lat' ∧ Recovered t vpLon lon lon') ∧
    ∀ (bearing speed : Option PhysInput) (pitch alt : Option Int), (pencVds t bearing speed pitch alt).length = 8 ∧
      ∃ r : VdsResult, pdecVds (pencVds t bearing speed pitch alt) = .ok r ∧ Recovered t vdBearing bearing r.bearing ∧
        Recovered t vdSpeed speed r.speed ∧ RecoveredCode vdPitch pitch r.pitch ∧ RecoveredCode vdAlt alt r.alt

/-- R178 (a), (c) for PGN 129029. -/
def Obligations.GnssPayloadComesBack : Prop :=
  ∀ (t : RoundTies) (v : GnssValues), v.stations.length ≤ 3 →
    ∃ (P : Packet) (r : GnssResult), pencGnss t v = .ok P ∧ P.length = 43 + 4 * v.stations.length ∧
      pdecGnss P = .ok r ∧ RecoveredGnss t v r

/-- R178 (b): encoding what was decoded gives the payload back, but for the reserved word of PGN 129026 and an `nref` of
255. -/
def Obligations.DecodedPayloadsReencode : Prop :=
  ∀ (t : RoundTies) (P : Packet),
    (∀ lat lon : Option ℚ, pdecPosr P = .ok (lat, lon) → pencPosr t (lat.map .rat) (lon.map .rat) = P) ∧
    (∀ r : CogsogResult, pdecCogsog P = .ok r →
      pencCogsog t r.sid r.ref (r.cog.map .rat) (r.sog.map .rat) = P.take 6 ++ [0xFF#8, 0xFF#8]) ∧
    (∀ r : GnssResult, pdecGnss P = .ok r → r.nref ≠ 0xFF#8 →
      pencGnss t ⟨r.sid, r.date, r.tod.map .rat, r.lat.map .rat, r.lon.map .rat, r.alt.map .rat, r.fixtype, r.method,
        r.integ, r.numsv, r.hdop, r.pdop, r.geoid, r.stations⟩ = .ok P) ∧
    (∀ lat lon : Option ℚ, pdecVpos P = .ok (lat, lon) → pencVpos t (lat.map .rat) (lon.map .rat) = P) ∧
    ∀ r : VdsResult, pdecVds P = .ok r → pencVds t (r.bearing.map .rat) (r.speed.map .rat) r.pitch r.alt = P

/-! ### Fast Packet (`44_fast_packet.md`) -/

/-- R201: `L div 7` is the source's `ceil((L - 6) / 7)` for every length byte, and fits the 3-bit index up to 55 only. -/
def Obligations.ContinuationFrameCount : Prop :=
  ∀ L : Nat, L ≤ 255 → (contCount L : Int) = ⌈((L : ℚ) - 6) / 7⌉ ∧ (contCount L ≤ 7 ↔ L ≤ 55)

/-- R203: the frames of `FPTX`, byte by byte; the two lengths it refuses (R202). -/
def Obligations.FptxCompletes : Prop :=
  (∀ (id : Ident) (S : SeqCounter) (P : Packet) (s : State),
    (P.length = 0 → exec (.fptx id S P) s = .next (s.respond [0x02#8])) ∧
    (55 < P.length → exec (.fptx id S P) s = .next (s.respond [0x03#8]))) ∧
  ∀ (id : Ident) (S : SeqCounter) (P : Packet) (s : State), 1 ≤ P.length → P.length ≤ 55 →
    let pad (p : Nat) : Byte := P.getD p 0xFF#8
    exec (.fptx id S P) s = .next (s.respond (0x00#8 :: BitVec.ofNat 8 (1 + P.length / 7) ::
      (List.range (1 + P.length / 7)).flatMap fun i => leBytes 4 id.toNat ++ BitVec.ofNat 8 (S.toNat + 32 * i) ::
        (if i = 0 then BitVec.ofNat 8 P.length :: (List.range 6).map pad
        else (List.range 7).map fun j => pad (6 + 7 * (i - 1) + j))))

/-- R213: the sweep removes exactly the sessions whose last frame is more than `FP_TIMEOUT` ticks old, in a table of any
order, and counts them; `FP_TIMEOUT` is at least one second (R6). -/
def Obligations.SweepRemovesExactlyTheExpired : Prop :=
  ∀ (c : Params) (now : Ticks) (t : List Session),
    (∀ sn : Session, sn ∈ sweep c now t ↔
      sn ∈ t ∧ ¬ (sn.last.toNat ≤ now.toNat ∧ c.fpTimeout < now.toNat - sn.last.toNat)) ∧
    (sweep c now t).Sublist t ∧ sweepCount c now t + (sweep c now t).length = t.length ∧ c.tickHz ≤ c.fpTimeout


/-- R216, R215 (b): a frame with fewer than 8 data bytes is dropped, whatever its bytes; and a frame 0 whose length byte is 0
or above 55. A live session of the identifier is left as it was. -/
def Obligations.GarbledFramesAreDropped : Prop :=
  ∀ (id : Ident) (dlc : Nat) (data : Packet) (now : Ticks) (s : State),
    (dlc < 8 → exec (.fprx id dlc data now) s = .next (afterDrop s id now 0x12#8)) ∧
    (byteAt data 0 / 32 = 0 → byteAt data 1 = 0 ∨ 55 < byteAt data 1 →
      exec (.fprx id 8 data now) s = .next (afterDrop s id now 0x13#8))

/-- R217: a frame 0 of a legal length for a key with no session is dropped exactly when the swept table is full; nothing is
evicted. -/
def Obligations.FullTableDropsNewKeys : Prop :=
  ∀ (c : Params) (id : Ident) (data : Packet) (now : Ticks) (s : State), byteAt data 0 / 32 = 0 → 1 ≤ byteAt data 1 →
    byteAt data 1 ≤ 55 → lookupSession id (sweep c now s.sess) = none →
    ((∃ cap : Nat, c.fpSessions = some cap ∧ cap ≤ (sweep c now s.sess).length) ↔
      (fprx c id 8 data now s).2.disp = .dropTableFull) ∧
    ((fprx c id 8 data now s).2.disp = .dropTableFull →
      (fprx c id 8 data now s).1 = { s with sess := sweep c now s.sess, dropped := bump s.dropped })

/-- R218 (a) to (d): the four reasons to drop a continuation frame, in the normative order. -/
def Obligations.ContinuationFrameIsDropped : Prop :=
  ∀ (id : Ident) (data : Packet) (now : Ticks) (s : State), byteAt data 0 / 32 ≠ 0 →
    (lookupSession id (sweep params now s.sess) = none →
      exec (.fprx id 8 data now) s = .next (afterDrop s id now 0x11#8)) ∧
    ∀ sn : Session, lookupSession id (sweep params now s.sess) = some sn →
      (sn.seq.toNat ≠ byteAt data 0 % 32 → exec (.fprx id 8 data now) s = .next (afterDrop s id now 0x10#8)) ∧
      (sn.seq.toNat = byteAt data 0 % 32 → sn.len.toNat / 7 < byteAt data 0 / 32 →
        exec (.fprx id 8 data now) s = .next (afterDrop s id now 0x14#8)) ∧
      (sn.seq.toNat = byteAt data 0 % 32 → byteAt data 0 / 32 ≤ sn.len.toNat / 7 →
        sn.seen.getLsbD (byteAt data 0 / 32) = true →
        exec (.fprx id 8 data now) s = .next (afterDrop s id now 0x15#8))

/-- R215: a frame 0 with a length of 7 to 55, for a key that has a session or finds room, starts a session, whatever stood
there; the sessions of other keys are those the sweep left. -/
def Obligations.FirstFrameStartsSession : Prop :=
  ∀ (id : Ident) (data : Packet) (now : Ticks) (s : State), data.length = 8 → byteAt data 0 / 32 = 0 →
    7 ≤ byteAt data 1 → byteAt data 1 ≤ 55 →
    (lookupSession id (sweep params now s.sess) ≠ none ∨
      ∀ cap : Nat, params.fpSessions = some cap → (sweep params now s.sess).length < cap) →
    ∃ (t : State) (sn : Session), exec (.fprx id 8 data now) s = .next t ∧
      t.responses = s.responses ++ [fprxReply 0x00#8 (s.sess.length - (sweep params now s.sess).length) id []] ∧
      t.dropped = s.dropped ∧ t.inbox = s.inbox ∧
      lookupSession id t.sess = some sn ∧ sn.key = id ∧ sn.seq.toNat = byteAt data 0 % 32 ∧
      sn.len.toNat = byteAt data 1 ∧ sn.seen = 1#8 ∧ sn.last = now ∧ sn.buf.length = 55 ∧
      (∀ j : Nat, j < 6 → sn.buf[j]? = data[2 + j]?) ∧
      ∀ k : Ident, k ≠ id → lookupSession k t.sess = lookupSession k (sweep params now s.sess)

/-- R215 (c): a frame 0 with a length of 1 to 6 completes its message at once and leaves no session for its key. -/
def Obligations.ShortMessageCompletes : Prop :=
  ∀ (id : Ident) (data : Packet) (now : Ticks) (s : State), data.length = 8 → byteAt data 0 / 32 = 0 →
    1 ≤ byteAt data 1 → byteAt data 1 ≤ 6 →
    (lookupSession id (sweep params now s.sess) ≠ none ∨
      ∀ cap : Nat, params.fpSessions = some cap → (sweep params now s.sess).length < cap) →
    ∃ t : State, exec (.fprx id 8 data now) s = .next t ∧
      t.responses = s.responses ++ [fprxReply 0x01#8 (s.sess.length - (sweep params now s.sess).length) id
        ((data.drop 2).take (byteAt data 1))] ∧
      t.dropped = s.dropped ∧ t.inbox = s.inbox ∧ lookupSession id t.sess = none ∧
      ∀ k : Ident, k ≠ id → lookupSession k t.sess = lookupSession k (sweep params now s.sess)

/-- R218 (e), R219: a continuation frame that none of R218 (a) to (d) drops is stored; if a frame is still missing the
message waits, and else it is delivered and its session deleted. -/
def Obligations.ContinuationFrameIsStored : Prop :=
  ∀ (id : Ident) (data : Packet) (now : Ticks) (s : State) (sn : Session), Inv s → data.length = 8 →
    byteAt data 0 / 32 ≠ 0 → lookupSession id (sweep params now s.sess) = some sn →
    sn.seq.toNat = byteAt data 0 % 32 → byteAt data 0 / 32 ≤ sn.len.toNat / 7 →
    sn.seen.getLsbD (byteAt data 0 / 32) = false →
    let idx := byteAt data 0 / 32
    let seen' := sn.seen.toNat + 2 ^ idx
    ∃ (t : State) (buf' : Packet), buf'.length = 55 ∧
      (∀ p : Nat, buf'[p]? = if 6 + 7 * (idx - 1) ≤ p ∧ p < 6 + 7 * idx ∧ p < sn.len.toNat
        then data[1 + (p - (6 + 7 * (idx - 1)))]? else sn.buf[p]?) ∧
      exec (.fprx id 8 data now) s = .next t ∧ t.dropped = s.dropped ∧ t.inbox = s.inbox ∧ t.opened = s.opened ∧
      (∀ k : Ident, k ≠ id → lookupSession k t.sess = lookupSession k (sweep params now s.sess)) ∧
      (seen' ≠ 2 ^ (sn.len.toNat / 7 + 1) - 1 →
        t.responses = s.responses ++ [fprxReply 0x00#8 (s.sess.length - (sweep params now s.sess).length) id []] ∧
        lookupSession id t.sess = some { sn with buf := buf', seen := BitVec.ofNat 8 seen', last := now }) ∧
      (seen' = 2 ^ (sn.len.toNat / 7 + 1) - 1 →
        t.responses = s.responses ++ [fprxReply 0x01#8 (s.sess.length - (sweep params now s.sess).length) id
          (buf'.take sn.len.toNat)] ∧
        lookupSession id t.sess = none)

/-- R272: a continuation frame for a session that has expired but is not yet swept meets no session. -/
def Obligations.ExpiryComesBeforeTheFrame : Prop :=
  ∀ (c : Params) (id : Ident) (data : Packet) (now : Ticks) (s : State) (sn : Session), TableInv c s.sess →
    lookupSession id s.sess = some sn → sn.last.toNat + c.fpTimeout < now.toNat → byteAt data 0 / 32 ≠ 0 →
    (fprx c id 8 data now s).2.disp = .dropNoSession ∧ 1 ≤ (fprx c id 8 data now s).2.nexp ∧
      lookupSession id (fprx c id 8 data now s).1.sess = none

/-- R222: `FPTICK` removes the expired sessions, answers their number, saturated, and changes nothing else; a request of its
opcode is accepted only with the eight bytes of `now`. -/
def Obligations.FptickCompletes : Prop :=
  (∀ (rest : Packet) (i : Instr), decode (0x42#8 :: rest) = .ok i → rest.length = 8 ∧ ∃ now : Ticks, i = .fptick now) ∧
  ∀ (now : Ticks) (s : State), ∃ t : State, exec (.fptick now) s = .next t ∧
    (∀ sn : Session, sn ∈ t.sess ↔
      sn ∈ s.sess ∧ ¬ (sn.last.toNat ≤ now.toNat ∧ params.fpTimeout < now.toNat - sn.last.toNat)) ∧
    t.sess.Sublist s.sess ∧ t.dropped = s.dropped ∧ t.inbox = s.inbox ∧ t.opened = s.opened ∧
    t.responses = s.responses ++ [0x00#8 :: leBytes 2 (min (s.sess.length - t.sess.length) 65535)]

/-- R240: `RDCNT` answers the counter and the number of sessions, saturated, and changes nothing; a request of its opcode is
accepted only if it holds nothing else. -/
def Obligations.RdcntCompletes : Prop :=
  (∀ (rest : Packet) (i : Instr), decode (0x50#8 :: rest) = .ok i → rest = [] ∧ i = .rdcnt) ∧
  ∀ s : State, exec .rdcnt s = .next (s.respond (0x00#8 ::
    (leBytes 4 s.dropped.toNat ++ leBytes 2 (min s.sess.length 65535))))

/-- R279: `DROPPED` is 0 after reset, goes up by one, saturating, with each `FPRX` whose disposition is a drop, and no other
command changes it; `RDCNT` reads it. -/
def Obligations.DroppedCountsDrops : Prop :=
  State.reset.dropped = 0#32 ∧
  (∀ s : State, ∃ t : State, exec .rdcnt s = .next t ∧ ((lastResponse t).drop 1).take 4 = leBytes 4 s.dropped.toNat) ∧
  (∀ (i : Instr) (s t : State), exec i s = .next t →
    (∀ (id : Ident) (dlc : Nat) (data : Packet) (now : Ticks), i ≠ .fprx id dlc data now) → t.dropped = s.dropped) ∧
  ∀ (id : Ident) (dlc : Nat) (data : Packet) (now : Ticks) (s t : State), exec (.fprx id dlc data now) s = .next t →
    ∃ disp : Byte, (lastResponse t)[1]? = some disp ∧
      t.dropped.toNat = if 0x10 ≤ disp.toNat then min (s.dropped.toNat + 1) (2 ^ 32 - 1) else s.dropped.toNat

/-- R221: with nothing to sweep, a frame leaves every other key's session as it was, and what becomes of it depends on the
other keys through the number of sessions only. -/
def Obligations.FramesDoNotInterfere : Prop :=
  ∀ (c : Params) (id : Ident) (data : Packet) (now : Ticks) (s : State), sweepCount c now s.sess = 0 →
    (∀ k : Ident, k ≠ id → lookupSession k (fprx c id 8 data now s).1.sess = lookupSession k s.sess) ∧
    ∀ s' : State, sweepCount c now s'.sess = 0 → lookupSession id s'.sess = lookupSession id s.sess →
      s'.sess.length = s.sess.length →
      (fprx c id 8 data now s').2.disp = (fprx c id 8 data now s).2.disp

/-- R221: however the frames of other identifiers are mixed in, the results of one identifier's frames are those of its
frames alone, as long as nothing expires and the table has room. -/
def Obligations.InterleavingIsHarmless : Prop :=
  ∀ (c : Params) (id : Ident) (fs : List (Ident × Packet × Ticks)) (s : State), TableInv c s.sess →
    (∀ f ∈ fs, f.2.1.length = 8) →
    (∀ last ∈ s.sess.map Session.last ++ fs.map fun f => f.2.2, ∀ f ∈ fs, f.2.2.toNat ≤ last.toNat + c.fpTimeout) →
    (∀ cap : Nat, c.fpSessions = some cap → s.sess.length + fs.length ≤ cap) →
    (offerAll c fs s).2.filter (fun r => r.1 = id) = (offerAll c (fs.filter fun f => f.1 = id) s).2

/-- R223: offering the frames of `FPTX`, frame 0 first and the others in any order, with times that let no session of the
identifier expire, gives `ACCEPTED` for all but the last and `COMPLETE` with the payload for the last, leaves no session for
the identifier and `DROPPED` as it was. -/
def Obligations.FastPacketRoundTrip : Prop :=
  ∀ (id : Ident) (S : SeqCounter) (P : Packet) (s : State) (first : Frame) (conts order : List Frame)
    (times : List Ticks), Inv s → fptx id S P = .ok (first :: conts) → order.Perm conts →
    times.length = 1 + order.length → steadyTimes params times →
    (lookupSession id (sweep params (times.getD 0 0#64) s.sess) ≠ none ∨
      tableFull params (sweep params (times.getD 0 0#64) s.sess).length = false) →
    s.inbox = offers id (((first :: order).map Frame.data).zip times) →
    ∃ (t : State) (replies : List Packet) (reply : Packet), Sys2Proof.core.run times.length s = .next t ∧
      t.responses = s.responses ++ replies ++ [reply] ∧ replies.length = order.length ∧
      (∀ r ∈ replies, ∃ n : Nat, r = fprxReply 0x00#8 n id []) ∧ (∃ n : Nat, reply = fprxReply 0x01#8 n id P) ∧
      t.inbox = [] ∧ lookupSession id t.sess = none ∧ t.dropped = s.dropped

/-! ### The whole machine -/

/-- R31: the invariant of the session table holds after every step from a state in which it holds. -/
def Obligations.StepKeepsInvariant : Prop := ∀ s t : State, Inv s → step s = .next t → Inv t

/-- R31, R32: the invariant holds after reset. -/
def Obligations.InvariantHoldsAtReset : Prop := Inv State.reset

/-- R29: the bytes of a session that no frame has stored are never observable: two states that differ only in them, and in
how session buffers are numbered, give the same responses and stay alike. -/
def Obligations.UnstoredBytesAreUnobservable : Prop :=
  ∀ s t s' : State, Inv s → Inv t → SameUpToFree s t → step s = .next s' →
    ∃ t' : State, step t = .next t' ∧ SameUpToFree s' t'

/-- R243: `TSSPLIT` gives whole days and the seconds since midnight, and joining them gives the instant back. -/
def Obligations.TimestampSplitsAndJoins : Prop :=
  ∀ t : ℚ, 0 ≤ t → 0 ≤ (tssplit t).1 ∧ 0 ≤ (tssplit t).2 ∧ (tssplit t).2 < 86400 ∧
    tsjoin (tssplit t).1 (tssplit t).2 = t

/-- R244: what is sent is what is received: the frames of `TXMSG`, offered in order to `RXFRAME`, deliver one result, with
the identifier, the PGN and the values of the message. The premise that the table has room is not in R244; R223, from which
it is derived, has it (assumption 14). -/
def Obligations.MessageIsDelivered : Prop :=
  ∀ (m : Message) (priority : BitVec 3) (sa : Byte) (S : SeqCounter), messageFits m = true →
    ∃ (frames : List Frame) (c : CanId), txmsg params.roundTies m priority sa S = .ok frames ∧
      idbuild (messagePgn m) priority sa 0xFF#8 = .ok c ∧
      ∀ (s : State) (times : List Ticks), Inv s → lookupSession (idpack c) s.sess = none →
        tableFull params (sweep params (times.getD 0 0#64) s.sess).length = false →
        times.length = frames.length → steadyTimes params times →
        ∃ (t : State) (v : Delivered), rxframes params (frames.zip times) s = (t, [⟨c, messagePgn m, v⟩]) ∧
          RecoveredMessage params.roundTies m v ∧ t.dropped = s.dropped ∧ lookupSession (idpack c) t.sess = none

end
end

