-- ==== Sys2Proof/Laws/Bits.lean ====
section
/-! SUPPORT. Single bits of a buffer: what a bit write leaves, and the bits of what a bit read answers. -/

namespace Sys2Proof.Machine

@[simp] theorem length_setBit (B : Packet) (n : Nat) (v : Bool) : (setBit B n v).length = B.length := by simp [setBit]

@[simp] theorem length_bitWrite (B : Packet) (p w v : Nat) : (bitWrite B p w v).length = B.length := by
  induction w with
  | zero => rfl
  | succ w ih => simp [bitWrite, ih]

theorem getLsbD_byteWithBit (b : Byte) (i : Nat) (hi : i < 8) (v : Bool) (j : Nat) (hj : j < 8) :
    (byteWithBit b i v).getLsbD j = if j = i then v else b.getLsbD j := by
  cases v <;> by_cases h : j = i
  · subst h; simp [byteWithBit, hj]
  · have : j < i ∨ 1 ≤ j - i := by omega
    rcases this with h' | h'
    · simp [byteWithBit, h, hj, h']
    · have h0 : ¬ (j - i = 0) := by omega
      simp [byteWithBit, h, hj, h0]
  · subst h; simp [byteWithBit, hj]
  · have : j < i ∨ 1 ≤ j - i := by omega
    rcases this with h' | h'
    · simp [byteWithBit, h, hj, h']
    · have h0 : ¬ (j - i = 0) := by omega
      simp [byteWithBit, h, hj, h0]

/-- Setting one bit position inside the buffer changes that one and no other. -/
theorem getBit_setBit (B : Packet) (n : Nat) (v : Bool) (hn : n < 8 * B.length) (m : Nat) :
    getBit (setBit B n v) m = if m = n then v else getBit B m := by
  unfold getBit setBit
  have hlen : n / 8 < B.length := by omega
  by_cases hd : m / 8 = n / 8
  · rw [hd, List.getD_eq_getElem _ _ (by simpa using hlen), List.getElem_set_self,
      getLsbD_byteWithBit _ _ (by omega) _ _ (by omega)]
    by_cases hm : m % 8 = n % 8
    · have : m = n := by omega
      simp [this]
    · have : m ≠ n := fun h => hm (by rw [h])
      rw [if_neg hm, if_neg this]
  · have : m ≠ n := fun h => hd (by rw [h])
    rw [if_neg this]
    congr 1
    simp only [List.getD_eq_getElem?_getD]
    rw [List.getElem?_set_ne (Ne.symm hd)]

/-- Everything a bit write does to the bits of a buffer that holds the field. -/
theorem getBit_bitWrite (B : Packet) (p w v : Nat) (h : p + w ≤ 8 * B.length) (m : Nat) :
    getBit (bitWrite B p w v) m = if p ≤ m ∧ m < p + w then v.testBit (m - p) else getBit B m := by
  induction w with
  | zero => simp [bitWrite]
  | succ w ih =>
    rw [bitWrite, getBit_setBit _ _ _ (by simp; omega), ih (by omega)]
    by_cases hm : m = p + w
    · subst hm; simp
    · rw [if_neg hm]
      by_cases h1 : p ≤ m ∧ m < p + w
      · rw [if_pos h1, if_pos ⟨h1.1, by omega⟩]
      · rw [if_neg h1, if_neg (by omega)]

theorem bitRead_lt (B : Packet) (p w : Nat) : bitRead B p w < 2 ^ w := by
  induction w with
  | zero => simp [bitRead]
  | succ w ih =>
    have : (getBit B (p + w)).toNat ≤ 1 := Bool.toNat_le _
    have h2 : (getBit B (p + w)).toNat * 2 ^ w ≤ 1 * 2 ^ w := Nat.mul_le_mul_right _ this
    rw [bitRead, pow_succ]
    omega

/-- The bits of what a read answers are the bits of the field. -/
theorem testBit_bitRead (B : Packet) (p w i : Nat) :
    (bitRead B p w).testBit i = (decide (i < w) && getBit B (p + i)) := by
  induction w with
  | zero => simp [bitRead]
  | succ w ih =>
    rw [bitRead, Nat.add_comm, Nat.mul_comm, Nat.testBit_two_pow_mul_add _ (bitRead_lt B p w)]
    by_cases h1 : i < w
    · simp [h1, ih, Nat.lt_succ_of_lt h1]
    · by_cases h2 : i = w
      · subst h2
        cases getBit B (p + i) <;> simp
      · have h3 : ¬ i < w + 1 := by omega
        have h4 : Nat.testBit 1 (i - w) = false := by
          apply Nat.testBit_lt_two_pow
          exact Nat.one_lt_two_pow (by omega)
        cases getBit B (p + w) <;> simp [h1, h3, h4]

/-- Buffers of one length with the same bits are the same buffer. -/
theorem eq_of_getBit {A B : Packet} (hlen : A.length = B.length) (h : ∀ m, getBit A m = getBit B m) : A = B := by
  apply List.ext_getElem hlen
  intro k hA hB
  apply BitVec.eq_of_getLsbD_eq
  intro i hi
  have := h (8 * k + i)
  unfold getBit at this
  have e1 : (8 * k + i) / 8 = k := by omega
  have e2 : (8 * k + i) % 8 = i := by omega
  rwa [e1, e2, List.getD_eq_getElem _ _ hA, List.getD_eq_getElem _ _ hB] at this

end Sys2Proof.Machine
end

