-- ==== Sys2Proof/Laws/Bytes.lean ====
section
/-! SUPPORT. Byte order: `leBytes` and `ofLe` are inverse to each other, with their lengths and bounds. -/

namespace Sys2Proof.Machine

@[simp] theorem leBytes_length (n v : Nat) : (leBytes n v).length = n := by
  induction n generalizing v with
  | zero => rfl
  | succ n ih => simp [leBytes, ih]

theorem ofLe_lt (bs : Packet) : ofLe bs < 256 ^ bs.length := by
  induction bs with
  | nil => simp [ofLe]
  | cons b bs ih =>
    have hb := b.isLt
    simp only [ofLe, List.length_cons, pow_succ]
    omega

/-- Reading back what was written gives the value modulo `256^n`. -/
theorem ofLe_leBytes_mod (n v : Nat) : ofLe (leBytes n v) = v % 256 ^ n := by
  induction n generalizing v with
  | zero => simp [leBytes, ofLe, Nat.mod_one]
  | succ n ih =>
    have h : v % 256 ^ (n + 1) = v % 256 + 256 * (v / 256 % 256 ^ n) := by
      rw [pow_succ, Nat.mul_comm, Nat.mod_mul]
    simp only [leBytes, ofLe, ih, BitVec.toNat_ofNat]
    omega

theorem ofLe_leBytes {n v : Nat} (h : v < 256 ^ n) : ofLe (leBytes n v) = v := by
  rw [ofLe_leBytes_mod, Nat.mod_eq_of_lt h]

/-- A value is written back to the bytes it was read from. -/
theorem leBytes_ofLe (bs : Packet) : leBytes bs.length (ofLe bs) = bs := by
  induction bs with
  | nil => rfl
  | cons b bs ih =>
    have hb := b.isLt
    have h1 : (b.toNat + 256 * ofLe bs) / 256 = ofLe bs := by omega
    have h2 : BitVec.ofNat 8 (b.toNat + 256 * ofLe bs) = b := by
      apply BitVec.eq_of_toNat_eq
      simp only [BitVec.toNat_ofNat]
      omega
    simp only [List.length_cons, ofLe, leBytes, h1, h2, ih]

/-- One byte is its own little-endian form. -/
@[simp] theorem leBytes_one (b : Byte) : leBytes 1 b.toNat = [b] := by simp [leBytes]

/-- `tc` gives a `w`-bit pattern. -/
theorem tc_lt (w : Nat) (k : Int) : tc w k < 2 ^ w := by
  have h2 : (0 : Int) < 2 ^ w := by positivity
  have h1 := Int.emod_lt_of_pos k h2
  have h0 := Int.emod_nonneg k (ne_of_gt h2)
  unfold tc
  have : ((k % 2 ^ w).toNat : Int) < ((2 ^ w : Nat) : Int) := by
    rw [Int.toNat_of_nonneg h0]
    push_cast
    exact h1
  exact_mod_cast this

end Sys2Proof.Machine
end

