-- ==== Sys2Proof/Laws/State.lean ====
section
/-! SUPPORT. One lemma per field per update of the state, so that no proof unfolds a record update; and what `answer` can do. -/

namespace Sys2Proof.Machine

open Sys2Proof.Config

@[simp] theorem State.respond_sess (s : State) (p : Packet) : (s.respond p).sess = s.sess := rfl
@[simp] theorem State.respond_dropped (s : State) (p : Packet) : (s.respond p).dropped = s.dropped := rfl
@[simp] theorem State.respond_inbox (s : State) (p : Packet) : (s.respond p).inbox = s.inbox := rfl
@[simp] theorem State.respond_responses (s : State) (p : Packet) : (s.respond p).responses = s.responses ++ [p] := rfl
@[simp] theorem State.respond_opened (s : State) (p : Packet) : (s.respond p).opened = s.opened := rfl

@[simp] theorem State.raise_sess (s : State) (st : Status) : (s.raise st).sess = s.sess := rfl
@[simp] theorem State.raise_dropped (s : State) (st : Status) : (s.raise st).dropped = s.dropped := rfl
@[simp] theorem State.raise_inbox (s : State) (st : Status) : (s.raise st).inbox = s.inbox := rfl
@[simp] theorem State.raise_responses (s : State) (st : Status) : (s.raise st).responses = s.responses ++ [[statusCode st]] := rfl
@[simp] theorem State.raise_opened (s : State) (st : Status) : (s.raise st).opened = s.opened := rfl

@[simp] theorem State.returnOk_sess (s : State) (fields : Packet) : (s.returnOk fields).sess = s.sess := rfl
@[simp] theorem State.returnOk_dropped (s : State) (fields : Packet) : (s.returnOk fields).dropped = s.dropped := rfl
@[simp] theorem State.returnOk_inbox (s : State) (fields : Packet) : (s.returnOk fields).inbox = s.inbox := rfl
@[simp] theorem State.returnOk_responses (s : State) (fields : Packet) : (s.returnOk fields).responses = s.responses ++ [statusCode .ok :: fields] := rfl
@[simp] theorem State.returnOk_opened (s : State) (fields : Packet) : (s.returnOk fields).opened = s.opened := rfl

@[simp] theorem State.sweep_sess (s : State) (c : Params) (now : Ticks) : (s.sweep c now).sess = Machine.sweep c now s.sess := rfl
@[simp] theorem State.sweep_dropped (s : State) (c : Params) (now : Ticks) : (s.sweep c now).dropped = s.dropped := rfl
@[simp] theorem State.sweep_inbox (s : State) (c : Params) (now : Ticks) : (s.sweep c now).inbox = s.inbox := rfl
@[simp] theorem State.sweep_responses (s : State) (c : Params) (now : Ticks) : (s.sweep c now).responses = s.responses := rfl
@[simp] theorem State.sweep_opened (s : State) (c : Params) (now : Ticks) : (s.sweep c now).opened = s.opened := rfl

@[simp] theorem State.countDrop_sess (s : State) : (s.countDrop).sess = s.sess := rfl
@[simp] theorem State.countDrop_dropped (s : State) : (s.countDrop).dropped = bump s.dropped := rfl
@[simp] theorem State.countDrop_inbox (s : State) : (s.countDrop).inbox = s.inbox := rfl
@[simp] theorem State.countDrop_responses (s : State) : (s.countDrop).responses = s.responses := rfl
@[simp] theorem State.countDrop_opened (s : State) : (s.countDrop).opened = s.opened := rfl

@[simp] theorem State.applyReset_sess (s : State) : (s.applyReset).sess = [] := rfl
@[simp] theorem State.applyReset_dropped (s : State) : (s.applyReset).dropped = 0#32 := rfl
@[simp] theorem State.applyReset_inbox (s : State) : (s.applyReset).inbox = s.inbox := rfl
@[simp] theorem State.applyReset_responses (s : State) : (s.applyReset).responses = s.responses := rfl
@[simp] theorem State.applyReset_opened (s : State) : (s.applyReset).opened = s.opened := rfl

@[simp] theorem State.popInbox_sess (s : State) : (s.popInbox).sess = s.sess := rfl
@[simp] theorem State.popInbox_dropped (s : State) : (s.popInbox).dropped = s.dropped := rfl
@[simp] theorem State.popInbox_inbox (s : State) : (s.popInbox).inbox = s.inbox.tail := rfl
@[simp] theorem State.popInbox_responses (s : State) : (s.popInbox).responses = s.responses := rfl
@[simp] theorem State.popInbox_opened (s : State) : (s.popInbox).opened = s.opened := rfl

@[simp] theorem State.pushInbox_sess (s : State) (a : HostAction) : (s.pushInbox a).sess = s.sess := rfl
@[simp] theorem State.pushInbox_dropped (s : State) (a : HostAction) : (s.pushInbox a).dropped = s.dropped := rfl
@[simp] theorem State.pushInbox_inbox (s : State) (a : HostAction) : (s.pushInbox a).inbox = a :: s.inbox := rfl
@[simp] theorem State.pushInbox_responses (s : State) (a : HostAction) : (s.pushInbox a).responses = s.responses := rfl
@[simp] theorem State.pushInbox_opened (s : State) (a : HostAction) : (s.pushInbox a).opened = s.opened := rfl

@[simp] theorem State.putSession_sess (s : State) (sn : Session) : (s.putSession sn).sess = storeSession sn s.sess := rfl
@[simp] theorem State.putSession_dropped (s : State) (sn : Session) : (s.putSession sn).dropped = s.dropped := rfl
@[simp] theorem State.putSession_inbox (s : State) (sn : Session) : (s.putSession sn).inbox = s.inbox := rfl
@[simp] theorem State.putSession_responses (s : State) (sn : Session) : (s.putSession sn).responses = s.responses := rfl
@[simp] theorem State.putSession_opened (s : State) (sn : Session) : (s.putSession sn).opened = s.opened := rfl

@[simp] theorem State.dropSession_sess (s : State) (k : Ident) : (s.dropSession k).sess = deleteSession k s.sess := rfl
@[simp] theorem State.dropSession_dropped (s : State) (k : Ident) : (s.dropSession k).dropped = s.dropped := rfl
@[simp] theorem State.dropSession_inbox (s : State) (k : Ident) : (s.dropSession k).inbox = s.inbox := rfl
@[simp] theorem State.dropSession_responses (s : State) (k : Ident) : (s.dropSession k).responses = s.responses := rfl
@[simp] theorem State.dropSession_opened (s : State) (k : Ident) : (s.dropSession k).opened = s.opened := rfl

@[simp] theorem State.countOpened_sess (s : State) (data : Packet) : (s.countOpened data).sess = s.sess := rfl
@[simp] theorem State.countOpened_dropped (s : State) (data : Packet) : (s.countOpened data).dropped = s.dropped := rfl
@[simp] theorem State.countOpened_inbox (s : State) (data : Packet) : (s.countOpened data).inbox = s.inbox := rfl
@[simp] theorem State.countOpened_responses (s : State) (data : Packet) : (s.countOpened data).responses = s.responses := rfl
@[simp] theorem State.countOpened_opened (s : State) (data : Packet) : (s.countOpened data).opened = if frameIndex data = 0 then s.opened + 1 else s.opened := rfl

@[simp] theorem State.answer_ok (s : State) (fields : Packet) : s.answer (.ok fields) = s.returnOk fields := rfl
@[simp] theorem State.answer_error (s : State) (st : Status) : s.answer (.error st) = s.raise st := rfl
@[simp] theorem State.answer_sess (s : State) (r : Except Status Packet) : (s.answer r).sess = s.sess := by cases r <;> rfl
@[simp] theorem State.answer_dropped (s : State) (r : Except Status Packet) : (s.answer r).dropped = s.dropped := by
  cases r <;> rfl
@[simp] theorem State.answer_inbox (s : State) (r : Except Status Packet) : (s.answer r).inbox = s.inbox := by cases r <;> rfl
@[simp] theorem State.answer_opened (s : State) (r : Except Status Packet) : (s.answer r).opened = s.opened := by
  cases r <;> rfl

/-- The packet that `answer` gives. -/
def answerPacket : Except Status Packet → Packet
  | .ok fields => statusCode .ok :: fields
  | .error st => [statusCode st]

/-- Everything `answer` does: one response, and nothing else. -/
theorem State.answer_eq_respond (s : State) (r : Except Status Packet) : s.answer r = s.respond (answerPacket r) := by
  cases r <;> rfl

/-- `returnOk` is one response whose first byte is the status `OK`. -/
theorem State.returnOk_eq_respond (s : State) (fields : Packet) :
    s.returnOk fields = s.respond (0x00#8 :: fields) := rfl

/-- `raise` is the one-byte response and nothing else. -/
theorem State.raise_eq_respond (s : State) (st : Status) : s.raise st = s.respond [statusCode st] := rfl

@[simp] theorem State.reset_sess : State.reset.sess = [] := rfl
@[simp] theorem State.reset_dropped : State.reset.dropped = 0#32 := rfl
@[simp] theorem State.reset_inbox : State.reset.inbox = [] := rfl
@[simp] theorem State.reset_responses : State.reset.responses = [] := rfl
@[simp] theorem State.reset_opened : State.reset.opened = 0 := rfl

end Sys2Proof.Machine
end

