-- ==== Sys2Proof/Laws/Table.lean ====
section
/-! SUPPORT. The session table as a map: what each operation does to the sessions of every key, and that each keeps the
canonical form. -/

namespace Sys2Proof.Machine

open Sys2Proof.Config

theorem key_ne_of_lt {a b : Ident} (h : a < b) : a ≠ b := by rw [BitVec.lt_def] at h; rintro rfl; omega

theorem key_ne_of_gt {a b : Ident} (h : a < b) : b ≠ a := (key_ne_of_lt h).symm

theorem key_lt_trans {a b c : Ident} (h : a < b) (h' : b < c) : a < c := by rw [BitVec.lt_def] at *; omega

theorem key_lt_of_not_lt {a b : Ident} (h : ¬ a < b) (hne : a ≠ b) : b < a := by
  rw [BitVec.lt_def] at *
  have : a.toNat ≠ b.toNat := fun e => hne (BitVec.eq_of_toNat_eq e)
  omega

theorem tableWf_iff (t : List Session) : tableWf t = true ↔ t.Pairwise fun a b => a.key < b.key := by
  simp [tableWf]

@[simp] theorem tableWf_nil : tableWf [] = true := rfl

theorem tableWf_cons (x : Session) (t : List Session) :
    tableWf (x :: t) = true ↔ (∀ y ∈ t, x.key < y.key) ∧ tableWf t = true := by
  simp [tableWf, List.pairwise_cons]

@[simp] theorem lookupSession_nil (k : Ident) : lookupSession k [] = none := rfl

theorem lookupSession_cons (k : Ident) (x : Session) (t : List Session) :
    lookupSession k (x :: t) = if x.key = k then some x else lookupSession k t := rfl

/-- A session that is found is in the table and has the key it was looked up by. -/
theorem lookupSession_some {k : Ident} {t : List Session} {sn : Session} (h : lookupSession k t = some sn) :
    sn ∈ t ∧ sn.key = k := by
  induction t with
  | nil => cases h
  | cons x t ih =>
    rw [lookupSession_cons] at h
    split at h
    · cases h
      exact ⟨List.mem_cons_self, ‹_›⟩
    · exact ⟨List.mem_cons_of_mem _ (ih h).1, (ih h).2⟩

theorem lookupSession_eq_none {k : Ident} {t : List Session} : lookupSession k t = none ↔ ∀ x ∈ t, x.key ≠ k := by
  induction t with
  | nil => simp
  | cons x t ih => rw [lookupSession_cons]; split <;> simp_all

/-- In a canonical table a session is found under its own key. -/
theorem lookupSession_of_mem {t : List Session} (hw : tableWf t = true) {sn : Session} (h : sn ∈ t) :
    lookupSession sn.key t = some sn := by
  induction t with
  | nil => cases h
  | cons x t ih =>
    obtain ⟨hx, ht⟩ := (tableWf_cons x t).mp hw
    rw [lookupSession_cons]
    rcases List.mem_cons.mp h with rfl | hm
    · simp
    · rw [if_neg (key_ne_of_lt (hx sn hm)), ih ht hm]

/-! ### A filter of the table: the sweep and the deletion -/

theorem tableWf_filter {t : List Session} (p : Session → Bool) (h : tableWf t = true) : tableWf (t.filter p) = true := by
  rw [tableWf_iff] at *
  exact h.filter p

theorem lookupSession_filter {t : List Session} (p : Session → Bool) (hw : tableWf t = true) (k : Ident) :
    lookupSession k (t.filter p) = (lookupSession k t).filter p := by
  induction t with
  | nil => rfl
  | cons x t ih =>
    obtain ⟨hx, ht⟩ := (tableWf_cons x t).mp hw
    rw [List.filter_cons, lookupSession_cons]
    by_cases hp : p x = true <;> by_cases hk : x.key = k
    · simp [hp, hk, lookupSession_cons, Option.filter]
    · simp [hp, hk, lookupSession_cons, ih ht]
    · have : lookupSession k (t.filter p) = none :=
        lookupSession_eq_none.mpr fun y hy => (hk ▸ key_ne_of_gt (hx y (List.mem_of_mem_filter hy)))
      simp [hp, hk, this, Option.filter]
    · simp [hp, hk, ih ht]

theorem tableWf_sweep {c : Params} {now : Ticks} {t : List Session} (h : tableWf t = true) :
    tableWf (sweep c now t) = true := tableWf_filter _ h

/-- The sweep keeps exactly the sessions that have not expired. -/
theorem mem_sweep {c : Params} {now : Ticks} {t : List Session} {sn : Session} :
    sn ∈ sweep c now t ↔ sn ∈ t ∧ expired c now sn = false := by simp [sweep]

theorem lookupSession_sweep {c : Params} {now : Ticks} {t : List Session} (hw : tableWf t = true) (k : Ident) :
    lookupSession k (sweep c now t) = (lookupSession k t).filter fun x => !expired c now x :=
  lookupSession_filter _ hw k

theorem length_sweep_le (c : Params) (now : Ticks) (t : List Session) : (sweep c now t).length ≤ t.length :=
  List.length_filter_le _ _

/-- The sweep counts what it removes. -/
theorem length_sweep_add_count (c : Params) (now : Ticks) (t : List Session) :
    (sweep c now t).length + sweepCount c now t = t.length := by
  induction t with
  | nil => rfl
  | cons x t ih =>
    simp only [sweep, sweepCount] at ih
    by_cases hx : expired c now x = true
    · simp [sweep, sweepCount, hx]; omega
    · simp [sweep, sweepCount, hx]; omega

theorem tableWf_deleteSession {k : Ident} {t : List Session} (h : tableWf t = true) :
    tableWf (deleteSession k t) = true := tableWf_filter _ h

theorem mem_deleteSession {k : Ident} {t : List Session} {sn : Session} :
    sn ∈ deleteSession k t ↔ sn ∈ t ∧ sn.key ≠ k := by simp [deleteSession]

theorem lookupSession_deleteSession_same (k : Ident) (t : List Session) : lookupSession k (deleteSession k t) = none :=
  lookupSession_eq_none.mpr fun _ h => (mem_deleteSession.mp h).2

theorem lookupSession_deleteSession_other {k k' : Ident} {t : List Session} (hne : k' ≠ k) :
    lookupSession k' (deleteSession k t) = lookupSession k' t := by
  induction t with
  | nil => rfl
  | cons x t ih =>
    simp only [deleteSession] at ih
    by_cases hx : x.key = k
    · have : x.key ≠ k' := fun h => hne (h.symm.trans hx)
      simp [deleteSession, hx, lookupSession_cons, ih, hne.symm]
    · simp [deleteSession, hx, lookupSession_cons, ih]

/-! ### Storing a session -/

/-- A stored table holds the new session and the old ones of other keys. -/
theorem mem_storeSession {sn x : Session} {t : List Session} (hw : tableWf t = true) :
    x ∈ storeSession sn t ↔ x = sn ∨ (x ∈ t ∧ x.key ≠ sn.key) := by
  induction t with
  | nil => simp [storeSession]
  | cons y t ih =>
    obtain ⟨hy, ht⟩ := (tableWf_cons y t).mp hw
    simp only [storeSession]
    split
    · rename_i hlt
      have hne : ∀ z ∈ y :: t, z.key ≠ sn.key := by
        intro z hz
        rcases List.mem_cons.mp hz with rfl | hz
        · exact key_ne_of_gt hlt
        · exact key_ne_of_gt (key_lt_trans hlt (hy z hz))
      constructor
      · intro h
        rcases List.mem_cons.mp h with h | h
        · exact .inl h
        · exact .inr ⟨h, hne x h⟩
      · rintro (h | h)
        · exact h ▸ List.mem_cons_self
        · exact List.mem_cons_of_mem _ h.1
    · split
      · rename_i heq
        constructor
        · intro h
          rcases List.mem_cons.mp h with h | h
          · exact .inl h
          · exact .inr ⟨List.mem_cons_of_mem _ h, heq ▸ key_ne_of_gt (hy x h)⟩
        · rintro (h | ⟨h, hne⟩)
          · exact h ▸ List.mem_cons_self
          · rcases List.mem_cons.mp h with rfl | h
            · exact absurd heq.symm hne
            · exact List.mem_cons_of_mem _ h
      · rename_i hne
        constructor
        · intro h
          rcases List.mem_cons.mp h with rfl | h
          · exact .inr ⟨List.mem_cons_self, Ne.symm hne⟩
          · rcases (ih ht).mp h with h | ⟨h, hk⟩
            · exact .inl h
            · exact .inr ⟨List.mem_cons_of_mem _ h, hk⟩
        · rintro (h | ⟨h, hk⟩)
          · exact List.mem_cons_of_mem _ ((ih ht).mpr (.inl h))
          · rcases List.mem_cons.mp h with rfl | h
            · exact List.mem_cons_self
            · exact List.mem_cons_of_mem _ ((ih ht).mpr (.inr ⟨h, hk⟩))

theorem tableWf_storeSession {sn : Session} {t : List Session} (hw : tableWf t = true) :
    tableWf (storeSession sn t) = true := by
  induction t with
  | nil => simp [storeSession, tableWf]
  | cons y t ih =>
    obtain ⟨hy, ht⟩ := (tableWf_cons y t).mp hw
    simp only [storeSession]
    split
    · rename_i hlt
      refine (tableWf_cons _ _).mpr ⟨fun z hz => ?_, hw⟩
      rcases List.mem_cons.mp hz with rfl | hz
      · exact hlt
      · exact key_lt_trans hlt (hy z hz)
    · split
      · rename_i heq
        exact (tableWf_cons _ _).mpr ⟨fun z hz => heq ▸ hy z hz, ht⟩
      · rename_i hnlt hne
        refine (tableWf_cons _ _).mpr ⟨fun z hz => ?_, ih ht⟩
        rcases (mem_storeSession ht).mp hz with rfl | ⟨hz, _⟩
        · exact key_lt_of_not_lt hnlt hne
        · exact hy z hz

theorem lookupSession_storeSession_same (sn : Session) (t : List Session) :
    lookupSession sn.key (storeSession sn t) = some sn := by
  induction t with
  | nil => simp [storeSession, lookupSession_cons]
  | cons y t ih =>
    simp only [storeSession]
    split
    · simp [lookupSession_cons]
    · split
      · simp [lookupSession_cons]
      · rename_i hne
        rw [lookupSession_cons, if_neg (Ne.symm hne), ih]

theorem lookupSession_storeSession_other {sn : Session} {k : Ident} (hk : k ≠ sn.key) (t : List Session) :
    lookupSession k (storeSession sn t) = lookupSession k t := by
  induction t with
  | nil => simp [storeSession, lookupSession_cons, hk.symm]
  | cons y t ih =>
    simp only [storeSession]
    split
    · rw [lookupSession_cons, if_neg hk.symm]
    · split
      · rename_i heq
        rw [lookupSession_cons, lookupSession_cons, if_neg hk.symm, if_neg (heq ▸ hk.symm)]
      · rw [lookupSession_cons, lookupSession_cons, ih]

/-- A store adds at most one session, and none when the key is present. -/
theorem length_storeSession (sn : Session) {t : List Session} (hw : tableWf t = true) :
    (storeSession sn t).length = if (lookupSession sn.key t).isNone then t.length + 1 else t.length := by
  induction t with
  | nil => simp [storeSession]
  | cons y t ih =>
    obtain ⟨hy, ht⟩ := (tableWf_cons y t).mp hw
    simp only [storeSession]
    split
    · rename_i hlt
      have hn : lookupSession sn.key (y :: t) = none := lookupSession_eq_none.mpr fun z hz => by
        rcases List.mem_cons.mp hz with rfl | hz
        · exact key_ne_of_gt hlt
        · exact key_ne_of_gt (key_lt_trans hlt (hy z hz))
      simp [hn]
    · split
      · rename_i heq
        simp [lookupSession_cons, heq]
      · rename_i hne
        rw [lookupSession_cons, if_neg (Ne.symm hne)]
        simp only [List.length_cons, ih ht]
        split <;> rfl

end Sys2Proof.Machine
end

