-- ==== Sys2Proof/Laws/FastPacket.lean ====
section
/-! SUPPORT. What `FPRX` can do, said once: the cases of the frame check, the effect of each, and the small lemmas of the
session buffer. -/

namespace Sys2Proof.Machine

open Sys2Proof.Config

@[simp] theorem length_storeBytes (len : Nat) (buf : Packet) (off : Nat) (bs : Packet) :
    (storeBytes len buf off bs).length = buf.length := by
  induction bs generalizing buf off with
  | nil => rfl
  | cons b bs ih => rw [storeBytes, ih]; split <;> simp

/-- The bytes after a store: those of the frame inside the buffer and below `len`, and the old ones elsewhere. -/
theorem getElem?_storeBytes (len : Nat) (buf : Packet) (off : Nat) (bs : Packet) (p : Nat) :
    (storeBytes len buf off bs)[p]? =
      if off ≤ p ∧ p < off + bs.length ∧ p < len ∧ p < buf.length then bs[p - off]? else buf[p]? := by
  induction bs generalizing buf off with
  | nil => simp [storeBytes]; intro h1 h2; omega
  | cons b bs ih =>
    rw [storeBytes, ih]
    by_cases hp : p = off
    · subst hp
      rw [if_neg (by omega)]
      by_cases hl : p < len
      · by_cases hb : p < buf.length
        · simp [hl, hb]
        · simp [hl, not_lt.mp hb]
      · simp [hl]
    · have hlen : (if off < len then buf.set off b else buf).length = buf.length := by split <;> simp
      have hold : (if off < len then buf.set off b else buf)[p]? = buf[p]? := by
        split
        · exact List.getElem?_set_ne (Ne.symm hp)
        · rfl
      rw [hlen, hold]
      by_cases h : off + 1 ≤ p ∧ p < off + 1 + bs.length ∧ p < len ∧ p < buf.length
      · rw [if_pos h, if_pos (by simp; omega)]
        obtain ⟨k, hk⟩ : ∃ k, p - off = k + 1 := ⟨p - off - 1, by omega⟩
        have : p - (off + 1) = k := by omega
        rw [this, hk, List.getElem?_cons_succ]
      · rw [if_neg h, if_neg (by simp; omega)]

@[simp] theorem length_freshBuf (n : Nat) : (freshBuf n).length = fpMaxLen := by simp [freshBuf]

/-- When a frame 0 opens a session. -/
theorem acceptFirst_ok {c : Params} {t : List Session} {id : Ident} {data : Packet} {now : Ticks} {n : Nat} {sn : Session}
    (h : acceptFirst c t id data now n = .ok sn) :
    sn = openSession id data now n ∧ (1 ≤ (frameLen data).toNat ∧ (frameLen data).toNat ≤ fpMaxLen) ∧
      ((lookupSession id t).isNone = true → tableFull c t.length = false) := by
  unfold acceptFirst at h
  simp only at h
  split at h
  · cases h
  · split at h
    · cases h
    · cases h
      refine ⟨rfl, by omega, fun hn => ?_⟩
      simp_all

/-- When a continuation frame is stored. -/
theorem acceptCont_ok {t : List Session} {id : Ident} {data : Packet} {now : Ticks} {sn : Session}
    (h : acceptCont t id data now = .ok sn) :
    ∃ old, lookupSession id t = some old ∧ sn = extendSession old data now ∧ old.seq = frameSeq data ∧
      frameIndex data ≤ contCount old.len.toNat ∧ old.seen.getLsbD (frameIndex data) = false := by
  unfold acceptCont at h
  cases hl : lookupSession id t with
  | none => rw [hl] at h; cases h
  | some old =>
    rw [hl] at h
    simp only at h
    split at h
    · cases h
    · split at h
      · cases h
      · split at h
        · cases h
        · cases h
          refine ⟨old, rfl, rfl, not_not.mp ‹_›, by omega, by simp_all⟩

/-- Every session that is to be stored has the frame's identifier as its key, in a canonical table. -/
theorem acceptFrame_key {c : Params} {t : List Session} {id : Ident} {dlc : Nat} {data : Packet} {now : Ticks} {n : Nat}
    {sn : Session} (h : acceptFrame c t id dlc data now n = .ok sn) : sn.key = id := by
  unfold acceptFrame at h
  split at h
  · cases h
  · split at h
    · rw [(acceptFirst_ok h).1]; rfl
    · obtain ⟨old, hl, rfl, _⟩ := acceptCont_ok h
      exact (lookupSession_some hl).2

/-- Every reason to drop a frame is a `DROP_*` value. -/
theorem acceptFrame_error {c : Params} {t : List Session} {id : Ident} {dlc : Nat} {data : Packet} {now : Ticks} {n : Nat}
    {d : Disposition} (h : acceptFrame c t id dlc data now n = .error d) : isDrop d = true := by
  unfold acceptFrame acceptFirst acceptCont at h
  simp only at h
  repeat' split at h
  all_goals first
    | (cases h; rfl)
    | cases h

/-- Everything `FPRX` can do: drop the frame after the sweep, store it and go on, or store it and complete the message. -/
theorem fprx_cases (c : Params) (id : Ident) (dlc : Nat) (data : Packet) (now : Ticks) (s : State) :
    (∃ d, acceptFrame c (sweep c now s.sess) id dlc data now s.opened = .error d ∧
      fprx c id dlc data now s = ((s.sweep c now).countDrop, ⟨d, sweepCount c now s.sess, id, []⟩)) ∨
    (∃ sn, acceptFrame c (sweep c now s.sess) id dlc data now s.opened = .ok sn ∧ sessionComplete sn = false ∧
      fprx c id dlc data now s =
        (((s.sweep c now).putSession sn).countOpened data, ⟨.accepted, sweepCount c now s.sess, id, []⟩)) ∨
    (∃ sn, acceptFrame c (sweep c now s.sess) id dlc data now s.opened = .ok sn ∧ sessionComplete sn = true ∧
      fprx c id dlc data now s =
        ((((s.sweep c now).putSession sn).countOpened data).dropSession id,
          ⟨.complete, sweepCount c now s.sess, id, sn.buf.take sn.len.toNat⟩)) := by
  cases h : acceptFrame c (sweep c now s.sess) id dlc data now s.opened with
  | error d => exact .inl ⟨d, rfl, by simp [fprx, h]⟩
  | ok sn =>
    cases hc : sessionComplete sn with
    | false => exact .inr (.inl ⟨sn, rfl, hc, by simp [fprx, h, finishFrame, hc]⟩)
    | true => exact .inr (.inr ⟨sn, rfl, hc, by simp [fprx, h, finishFrame, hc]⟩)

end Sys2Proof.Machine
end

