-- ==== Sys2Proof/Laws/Readers.lean ====
section
/-! SUPPORT. For each operand reader of the decoder: it reads back what its writer wrote, and what it reads is what stood
there. -/

namespace Sys2Proof

open Sys2Proof.Machine

@[simp] theorem except_ok_bind {α β : Type} (a : α) (f : α → Except Reject β) : (Except.ok a >>= f) = f a := rfl
@[simp] theorem except_error_bind {α β : Type} (e : Reject) (f : α → Except Reject β) :
    ((Except.error e : Except Reject α) >>= f) = Except.error e := rfl

/-- A bind that answers has a first part that answers. -/
theorem except_bind_ok {α β : Type} {x : Except Reject α} {f : α → Except Reject β} {b : β}
    (h : (x >>= f) = .ok b) : ∃ a, x = .ok a ∧ f a = .ok b := by
  cases x with
  | error e => cases h
  | ok a => exact ⟨a, rfl, h⟩

/-- Reading the bytes of a value that fits its width. -/
theorem readBits_leBytes {n w v : Nat} (hv : v < 2 ^ w) (hn : w ≤ 8 * n) (rest : Packet) :
    readBits n w (leBytes n v ++ rest) = .ok (BitVec.ofNat w v, rest) := by
  have h256 : (256 : Nat) ^ n = 2 ^ (8 * n) := by rw [pow_mul]; rfl
  have hlt : v < 256 ^ n := h256 ▸ lt_of_lt_of_le hv (Nat.pow_le_pow_right (by norm_num) hn)
  have hr : ofLe (leBytes n v) = v := ofLe_leBytes hlt
  simp [readBits, hr, hv]

theorem readBits_writeBits {n w : Nat} (v : BitVec w) (hn : w ≤ 8 * n) (rest : Packet) :
    readBits n w (writeBits n v ++ rest) = .ok (v, rest) := by
  simp [writeBits, readBits_leBytes v.isLt hn]

/-- What a read of `n` bytes can do. -/
theorem readBits_ok {n w : Nat} {bs rest : Packet} {v : BitVec w} (h : readBits n w bs = .ok (v, rest)) :
    bs = writeBits n v ++ rest := by
  unfold readBits at h
  split at h
  · cases h
  · split at h
    · rename_i hlen hlt
      cases h
      have htake : (bs.take n).length = n := by simp; omega
      have hle := leBytes_ofLe (bs.take n)
      rw [htake] at hle
      simp only [writeBits, BitVec.toNat_ofNat, Nat.mod_eq_of_lt hlt, hle, List.take_append_drop]
    · cases h

theorem readNat_writeNat {n : Nat} (h : n < 256) (rest : Packet) : readNat (writeNat n ++ rest) = .ok (n, rest) := by
  have := readBits_leBytes (n := 1) (w := 8) (v := n) (by omega) (by norm_num) rest
  simp [readNat, writeNat, this, Nat.mod_eq_of_lt h]

theorem readNat_ok {bs rest : Packet} {n : Nat} (h : readNat bs = .ok (n, rest)) : bs = writeNat n ++ rest ∧ n < 256 := by
  obtain ⟨⟨b, r⟩, h1, h2⟩ := except_bind_ok h
  cases h2
  exact ⟨by simpa [writeBits, writeNat] using readBits_ok h1, b.isLt⟩

theorem readFlag_writeFlag (b : Bool) (rest : Packet) : readFlag (writeFlag b ++ rest) = .ok (b, rest) := by
  have := readBits_leBytes (n := 1) (w := 1) (v := b.toNat) (by cases b <;> decide) (by norm_num) rest
  cases b <;> simp [readFlag, writeFlag] at this ⊢ <;> rw [this] <;> rfl

/-- A one-bit value is the truth of its being 1. -/
theorem bit_toNat (v : BitVec 1) : v.toNat = (v == 1#1).toNat := by revert v; decide

/-- A two-bit value by its bits. -/
theorem twoBits_toNat (v : BitVec 2) : v.toNat = (v.getLsbD 0).toNat + 2 * (v.getLsbD 1).toNat := by revert v; decide

/-- The bits of a value given by its bits. -/
theorem ofNat_twoBits (a b : Bool) :
    (BitVec.ofNat 2 (a.toNat + 2 * b.toNat)).getLsbD 0 = a ∧ (BitVec.ofNat 2 (a.toNat + 2 * b.toNat)).getLsbD 1 = b := by
  revert a b; decide

theorem readFlag_ok {bs rest : Packet} {b : Bool} (h : readFlag bs = .ok (b, rest)) : bs = writeFlag b ++ rest := by
  obtain ⟨⟨v, r⟩, h1, h2⟩ := except_bind_ok h
  cases h2
  rw [readBits_ok h1, writeBits, bit_toNat v, writeFlag]

theorem readBytes_append (b rest : Packet) : readBytes b.length (b ++ rest) = .ok (b, rest) := by simp [readBytes]

theorem readBytes_ok {n : Nat} {bs b rest : Packet} (h : readBytes n bs = .ok (b, rest)) :
    bs = b ++ rest ∧ b.length = n := by
  unfold readBytes at h
  split at h
  · cases h
  · cases h
    exact ⟨(List.take_append_drop n bs).symm, by simp; omega⟩

theorem readCanId_writeCanId (c : CanId) (rest : Packet) : readCanId (writeCanId c ++ rest) = .ok (c, rest) := by
  simp [readCanId, writeCanId, List.append_assoc, readBits_writeBits]

theorem readCanId_ok {bs rest : Packet} {c : CanId} (h : readCanId bs = .ok (c, rest)) : bs = writeCanId c ++ rest := by
  obtain ⟨⟨a, r⟩, h1, h⟩ := except_bind_ok h
  obtain ⟨⟨b, r⟩, h2, h⟩ := except_bind_ok h
  obtain ⟨⟨d, r⟩, h3, h⟩ := except_bind_ok h
  obtain ⟨⟨e, r⟩, h4, h⟩ := except_bind_ok h
  obtain ⟨⟨f, r⟩, h5, h⟩ := except_bind_ok h
  obtain ⟨⟨g, r⟩, h6, h⟩ := except_bind_ok h
  cases h
  rw [readBits_ok h1, readBits_ok h2, readBits_ok h3, readBits_ok h4, readBits_ok h5, readBits_ok h6]
  simp [writeCanId, List.append_assoc]

theorem readPhys_writePhys (p : Phys) (rest : Packet) : readPhys (writePhys p ++ rest) = .ok (p, rest) := by
  simp [readPhys, writePhys, List.append_assoc, readFlag_writeFlag, readBits_writeBits]

theorem readPhys_ok {bs rest : Packet} {p : Phys} (h : readPhys bs = .ok (p, rest)) : bs = writePhys p ++ rest := by
  obtain ⟨⟨a, r⟩, h1, h⟩ := except_bind_ok h
  obtain ⟨⟨b, r⟩, h2, h⟩ := except_bind_ok h
  cases h
  rw [readFlag_ok h1, readBits_ok h2]
  simp [writePhys, List.append_assoc]

theorem readRaw_writeRaw (n : Nat) (x : RawOpt (8 * n)) (rest : Packet) :
    readRaw n (writeRaw n x ++ rest) = .ok (x, rest) := by
  simp [readRaw, writeRaw, List.append_assoc, readFlag_writeFlag, readBits_writeBits]

theorem readRaw_ok {n : Nat} {bs rest : Packet} {x : RawOpt (8 * n)} (h : readRaw n bs = .ok (x, rest)) :
    bs = writeRaw n x ++ rest := by
  obtain ⟨⟨a, r⟩, h1, h⟩ := except_bind_ok h
  obtain ⟨⟨b, r⟩, h2, h⟩ := except_bind_ok h
  cases h
  rw [readFlag_ok h1, readBits_ok h2]
  simp [writeRaw, List.append_assoc]

theorem readDesc_writeDesc {d : Desc} (h : d.width < 256) (rest : Packet) :
    readDesc (writeDesc d ++ rest) = .ok (d, rest) := by
  have hf : d.isSigned.toNat + 2 * d.hasSentinel.toNat < 2 ^ 2 := by
    cases d.isSigned <;> cases d.hasSentinel <;> decide
  obtain ⟨h0, h1⟩ := ofNat_twoBits d.isSigned d.hasSentinel
  simp only [readDesc, writeDesc, List.append_assoc, readBits_leBytes hf (by norm_num : 2 ≤ 8 * 1), except_ok_bind,
    readNat_writeNat h, readBits_writeBits _ (by norm_num : 64 ≤ 8 * 8), h0, h1]

theorem readDesc_ok {bs rest : Packet} {d : Desc} (h : readDesc bs = .ok (d, rest)) :
    bs = writeDesc d ++ rest ∧ d.width < 256 := by
  obtain ⟨⟨fl, r⟩, h1, h⟩ := except_bind_ok h
  obtain ⟨⟨w, r⟩, h2, h⟩ := except_bind_ok h
  obtain ⟨⟨sc, r⟩, h3, h⟩ := except_bind_ok h
  obtain ⟨⟨off, r⟩, h4, h⟩ := except_bind_ok h
  cases h
  rw [readBits_ok h1, (readNat_ok h2).1, readBits_ok h3, readBits_ok h4]
  exact ⟨by simp only [writeDesc, writeBits, List.append_assoc, twoBits_toNat fl], (readNat_ok h2).2⟩

theorem readBuf_writeBuf {b : Packet} (h : b.length < 256) (rest : Packet) :
    readBuf (writeBuf b ++ rest) = .ok (b, rest) := by
  simp [readBuf, writeBuf, List.append_assoc, readNat_writeNat h, readBytes_append]

theorem readBuf_ok {bs b rest : Packet} (h : readBuf bs = .ok (b, rest)) :
    bs = writeBuf b ++ rest ∧ b.length < 256 := by
  obtain ⟨⟨n, r⟩, h1, h⟩ := except_bind_ok h
  obtain ⟨hn, hlt⟩ := readNat_ok h1
  obtain ⟨hb, hlen⟩ := readBytes_ok h
  subst hlen
  exact ⟨by rw [hn, hb]; simp [writeBuf, List.append_assoc], hlt⟩

theorem readStations_writeStations (l : List StationArg) (rest : Packet) :
    readStations l.length (writeStations l ++ rest) = .ok (l, rest) := by
  induction l with
  | nil => rfl
  | cons st l ih =>
    have ht := readRaw_writeRaw 2 st.tid
    have ha := readRaw_writeRaw 2 st.age
    simp only [Nat.reduceMul] at ht ha
    simp [readStations, writeStations, List.append_assoc, ht, ha, ih]

theorem readStations_ok {n : Nat} {bs rest : Packet} {l : List StationArg}
    (h : readStations n bs = .ok (l, rest)) : bs = writeStations l ++ rest ∧ l.length = n := by
  induction n generalizing bs l with
  | zero => cases h; exact ⟨rfl, rfl⟩
  | succ n ih =>
    obtain ⟨⟨a, r⟩, h1, h⟩ := except_bind_ok h
    obtain ⟨⟨b, r⟩, h2, h⟩ := except_bind_ok h
    obtain ⟨⟨t, r⟩, h3, h⟩ := except_bind_ok h
    cases h
    rw [readRaw_ok h1, readRaw_ok h2, (ih h3).1]
    exact ⟨by simp [writeStations, List.append_assoc], by simp [(ih h3).2]⟩

/-- What the end of a request can do: no byte is left and the operands are in range. -/
theorem finish_ok {i j : Instr} {bs : Packet} (h : finish i bs = .ok j) : bs = [] ∧ j = i ∧ i.wellFormed = true := by
  unfold finish at h
  split at h
  · split at h
    · cases h
      exact ⟨List.isEmpty_iff.mp ‹_›, rfl, ‹_›⟩
    · cases h
  · cases h

theorem finish_nil {i : Instr} (h : i.wellFormed = true) : finish i [] = .ok i := by simp [finish, h]

end Sys2Proof
end

