-- ==== Sys2Proof/Laws/PerInstr.lean ====
section
/-! SUPPORT. The per-instruction family `EncodedLength`: the encoder's packet is as long as the format of its opcode and its
length byte say (`30_encoding.md` R73 to R80, R89). -/

namespace Sys2Proof.Laws

open Sys2Proof.Machine

/-- The request of a well-formed command has the length its own bytes announce. -/
def EncodedLength.Statement (i : Instr) : Prop :=
  i.wellFormed = true → requestLength (fun k => ((encode i).getD k 0#8).toNat) = some (encode i).length

@[simp] theorem length_writeBits (n : Nat) {w : Nat} (v : BitVec w) : (writeBits n v).length = n := by simp [writeBits]
@[simp] theorem length_writeNat (n : Nat) : (writeNat n).length = 1 := by simp [writeNat]
@[simp] theorem length_writeFlag (b : Bool) : (writeFlag b).length = 1 := by simp [writeFlag]
@[simp] theorem length_writeCanId (c : CanId) : (writeCanId c).length = 6 := by simp [writeCanId]
@[simp] theorem length_writePhys (p : Phys) : (writePhys p).length = 9 := by simp [writePhys]
@[simp] theorem length_writeRaw (n : Nat) (r : RawOpt (8 * n)) : (writeRaw n r).length = n + 1 := by
  simp [writeRaw]; omega
@[simp] theorem length_writeDesc (d : Desc) : (writeDesc d).length = 18 := by simp [writeDesc]
@[simp] theorem length_writeBuf (b : Packet) : (writeBuf b).length = b.length + 1 := by simp [writeBuf]; omega
@[simp] theorem length_writeStations (l : List StationArg) : (writeStations l).length = 6 * l.length := by
  induction l with
  | nil => rfl
  | cons st l ih =>
    have ht : (writeRaw 2 st.tid).length = 3 := length_writeRaw 2 st.tid
    have ha : (writeRaw 2 st.age).length = 3 := length_writeRaw 2 st.age
    simp [writeStations, ih, ht, ha]; omega

/-- The byte after a prefix of known length is the first byte of what follows. -/
theorem getD_append_length {a b : Packet} {k : Nat} (h : a.length = k) (x : Byte) : (a ++ b).getD k x = b.getD 0 x := by
  subst h; simp [List.getD_eq_getElem?_getD, List.getElem?_append_right]

/-- A length byte reads back as the length. -/
theorem getD_writeNat {n : Nat} (h : n < 256) (rest : Packet) : ((writeNat n ++ rest).getD 0 0#8).toNat = n := by
  simp [writeNat, leBytes, Nat.mod_eq_of_lt h]

theorem getD_writeBuf {b : Packet} (h : b.length < 256) (rest : Packet) :
    ((writeBuf b ++ rest).getD 0 0#8).toNat = b.length := by
  rw [writeBuf, List.append_assoc]; exact getD_writeNat h _

theorem length_of_bufOk {b : Packet} (h : bufOk b = true) : b.length < 256 := by
  have : b.length ≤ 55 := by simpa [bufOk] using h
  omega

theorem EncodedLength.idbuild (pgn : Pgn) (priority : BitVec 3) (sa da : Byte) :
    EncodedLength.Statement (.idbuild pgn priority sa da) := fun _ => by
  simp [requestLength, encode, encodeOperands, opcode]

theorem EncodedLength.idpack (id : CanId) : EncodedLength.Statement (.idpack id) := fun _ => by
  simp [requestLength, encode, encodeOperands, opcode]

theorem EncodedLength.idparse (raw : Ident) : EncodedLength.Statement (.idparse raw) := fun _ => by
  simp [requestLength, encode, encodeOperands, opcode]

theorem EncodedLength.idpgn (id : CanId) : EncodedLength.Statement (.idpgn id) := fun _ => by
  simp [requestLength, encode, encodeOperands, opcode]

theorem EncodedLength.fenc (desc : Desc) (value : Phys) : EncodedLength.Statement (.fenc desc value) := fun _ => by
  simp [requestLength, encode, encodeOperands, opcode]

theorem EncodedLength.fdec (desc : Desc) (raw : BitVec 64) : EncodedLength.Statement (.fdec desc raw) := fun _ => by
  simp [requestLength, encode, encodeOperands, opcode]

theorem EncodedLength.bins (pos : BitVec 16) (width : Nat) (raw : BitVec 64) (buf : Packet) :
    EncodedLength.Statement (.bins pos width raw buf) := fun h => by
  have hb : buf.length < 256 := by simp [Instr.wellFormed] at h; exact length_of_bufOk h.2
  have h12 : ((encode (.bins pos width raw buf)).getD 12 0#8).toNat = buf.length := by
    have := getD_append_length (a := writeBits 2 pos ++ writeNat width ++ writeBits 8 raw) (b := writeBuf buf) (k := 11)
      (by simp) 0#8
    simp only [encode, encodeOperands, List.getD_cons_succ, this]
    simpa using getD_writeBuf hb []
  simp only [requestLength, h12]
  simp [encode, encodeOperands, opcode]; omega

theorem EncodedLength.bext (pos : BitVec 16) (width : Nat) (buf : Packet) :
    EncodedLength.Statement (.bext pos width buf) := fun h => by
  have hb : buf.length < 256 := by simp [Instr.wellFormed] at h; exact length_of_bufOk h.2
  have h4 : ((encode (.bext pos width buf)).getD 4 0#8).toNat = buf.length := by
    have := getD_append_length (a := writeBits 2 pos ++ writeNat width) (b := writeBuf buf) (k := 3) (by simp) 0#8
    simp only [encode, encodeOperands, List.getD_cons_succ, this]
    simpa using getD_writeBuf hb []
  simp only [requestLength, h4]
  simp [encode, encodeOperands, opcode]; omega

theorem EncodedLength.pencPosr (lat lon : Phys) : EncodedLength.Statement (.pencPosr lat lon) := fun _ => by
  simp [requestLength, encode, encodeOperands, opcode]

theorem EncodedLength.pencCogsog (sid ref : Byte) (cog sog : Phys) :
    EncodedLength.Statement (.pencCogsog sid ref cog sog) := fun _ => by
  simp [requestLength, encode, encodeOperands, opcode]

theorem EncodedLength.pencGnss (args : GnssArgs) : EncodedLength.Statement (.pencGnss args) := fun h => by
  have hb : args.stations.length < 256 := by
    have : args.stations.length ≤ 255 := by simpa [Instr.wellFormed, countOk] using h
    omega
  have l2 (x : RawOpt 16) : (writeRaw 2 x).length = 3 := length_writeRaw 2 x
  have l1 (x : RawOpt 8) : (writeRaw 1 x).length = 2 := length_writeRaw 1 x
  have l4 (x : RawOpt 32) : (writeRaw 4 x).length = 5 := length_writeRaw 4 x
  have h57 : ((encode (.pencGnss args)).getD 57 0#8).toNat = args.stations.length := by
    have := getD_append_length (k := 56)
      (a := writeBits 1 args.sid ++ writeRaw 2 args.date ++ writePhys args.tod ++ writePhys args.lat ++ writePhys args.lon ++
        writePhys args.alt ++ writeBits 1 args.fixtype ++ writeBits 1 args.method ++ writeBits 1 args.integ ++
        writeRaw 1 args.numsv ++ writeRaw 2 args.hdop ++ writeRaw 2 args.pdop ++ writeRaw 4 args.geoid)
      (b := writeNat args.stations.length ++ writeStations args.stations) (by simp [l1, l2, l4]) 0#8
    rw [← List.append_assoc] at this
    simp only [encode, encodeOperands, writeGnss, List.getD_cons_succ, this]
    exact getD_writeNat hb _
  simp only [requestLength, h57]
  simp [encode, encodeOperands, opcode, writeGnss, l1, l2, l4]; omega

theorem EncodedLength.pencVpos (lat lon : Phys) : EncodedLength.Statement (.pencVpos lat lon) := fun _ => by
  simp [requestLength, encode, encodeOperands, opcode]

theorem EncodedLength.pencVds (bearing speed : Phys) (pitch alt : RawOpt 16) :
    EncodedLength.Statement (.pencVds bearing speed pitch alt) := fun _ => by
  have l2 (x : RawOpt 16) : (writeRaw 2 x).length = 3 := length_writeRaw 2 x
  simp [requestLength, encode, encodeOperands, opcode, l2]

/-- The five payload decoders share format `D` (R78). -/
theorem getD_payload {b : Packet} (h : bufOk b = true) (op : Byte) :
    ((op :: writeBuf b).getD 1 0#8).toNat = b.length := by
  have := getD_writeBuf (length_of_bufOk h) []
  simpa using this

theorem EncodedLength.pdecPosr (payload : Packet) : EncodedLength.Statement (.pdecPosr payload) := fun h => by
  simp only [requestLength, encode, encodeOperands, getD_payload h]
  simp [opcode]; omega

theorem EncodedLength.pdecCogsog (payload : Packet) : EncodedLength.Statement (.pdecCogsog payload) := fun h => by
  simp only [requestLength, encode, encodeOperands, getD_payload h]
  simp [opcode]; omega

theorem EncodedLength.pdecGnss (payload : Packet) : EncodedLength.Statement (.pdecGnss payload) := fun h => by
  simp only [requestLength, encode, encodeOperands, getD_payload h]
  simp [opcode]; omega

theorem EncodedLength.pdecVpos (payload : Packet) : EncodedLength.Statement (.pdecVpos payload) := fun h => by
  simp only [requestLength, encode, encodeOperands, getD_payload h]
  simp [opcode]; omega

theorem EncodedLength.pdecVds (payload : Packet) : EncodedLength.Statement (.pdecVds payload) := fun h => by
  simp only [requestLength, encode, encodeOperands, getD_payload h]
  simp [opcode]; omega

theorem EncodedLength.fptx (id : Ident) (seq : SeqCounter) (payload : Packet) :
    EncodedLength.Statement (.fptx id seq payload) := fun h => by
  have hb : payload.length < 256 := by
    have : payload.length ≤ 255 := by simpa [Instr.wellFormed, countOk] using h
    omega
  have h6 : ((encode (.fptx id seq payload)).getD 6 0#8).toNat = payload.length := by
    have := getD_append_length (a := writeBits 4 id ++ writeBits 1 seq) (b := writeBuf payload) (k := 5) (by simp) 0#8
    simp only [encode, encodeOperands, List.getD_cons_succ, this]
    simpa using getD_writeBuf hb []
  simp only [requestLength, h6]
  simp [encode, encodeOperands, opcode]; omega

theorem EncodedLength.fprx (id : Ident) (dlc : Nat) (data : Packet) (now : Ticks) :
    EncodedLength.Statement (.fprx id dlc data now) := fun h => by
  have hd : data.length = 8 := by simp [Instr.wellFormed, frameOk] at h; exact h.2
  simp [requestLength, encode, encodeOperands, opcode, hd]

theorem EncodedLength.fptick (now : Ticks) : EncodedLength.Statement (.fptick now) := fun _ => by
  simp [requestLength, encode, encodeOperands, opcode]

theorem EncodedLength.rdcnt : EncodedLength.Statement .rdcnt := fun _ => by
  simp [requestLength, encode, encodeOperands, opcode]

end Sys2Proof.Laws
end

