-- ==== Sys2Proof/Tests/Slice0.lean ====
section
/-! SUPPORT. Tests against the vectors of `95_test_vectors.md` (a name such as V23 or S7 in a comment is a vector's), a smoke test
of every well-formedness check, and for every statement with hypotheses a witness that meets them. -/

namespace Sys2Proof.Tests

-- One theorem at a time: in parallel, the many small evaluations here hold a thread each.
set_option Elab.async false

open Sys2Proof Sys2Proof.Machine Sys2Proof.Config

/-- Bytes from numbers. -/
def bytes (l : List Nat) : Packet := l.map (BitVec.ofNat 8)

/-- The response that an outcome adds. -/
def reply : Host.Outcome State Fault Refusal → Packet
  | .next s => lastResponse s
  | _ => []

/-- The operands of V102: a fix with one reference station. -/
def stationFix : GnssArgs :=
  { sid := 0xFF#8, date := ⟨false, 0#16⟩, tod := ⟨false, 0#64⟩, lat := ⟨true, 0xC040C00000000000#64⟩,
    lon := ⟨true, 0xC051900000000000#64⟩, alt := ⟨true, 0xBFF8000000000000#64⟩, fixtype := 15#4, method := 15#4,
    integ := 0xFF#8, numsv := ⟨false, 0#8⟩, hdop := ⟨false, 0#16⟩, pdop := ⟨false, 0#16⟩, geoid := ⟨true, 0xFFFFFFFF#32⟩,
    stations := [⟨⟨true, 0x1234#16⟩, ⟨false, 0#16⟩⟩] }

/-- The payload of V102. -/
def stationPayload : Packet :=
  bytes [0xFF, 0xFF, 0xFF, 0xFF, 0xFF, 0xFF, 0xFF, 0x00, 0x80, 0x3E, 0x60, 0x46, 0xD7, 0x59, 0xFB, 0x00, 0xC0, 0x49, 0xD5, 0xF8,
    0x37, 0x40, 0xF6, 0xA0, 0x1C, 0xE9, 0xFF, 0xFF, 0xFF, 0xFF, 0xFF, 0xFF, 0xFF, 0xFF, 0xFF, 0xFF, 0xFF, 0xFF, 0xFF, 0xFF, 0xFF,
    0xFF, 0x01, 0x34, 0x12, 0xFF, 0xFF]

/-! ### Decoding: for every command a request packet written out from the spec -/

/-- V1. -/
theorem test_decode_idbuild : decode (bytes [0x10, 0x01, 0xF8, 0x01, 0x02, 0x23, 0xFF]) = .ok (.idbuild 0x1F801#17 2#3 0x23#8 0xFF#8) := by decide +kernel

/-- The `IDPACK` packet under V19. -/
theorem test_decode_idpack : decode (bytes [0x11, 0x00, 0x01, 0x00, 0x00, 0x00, 0x00]) = .ok (.idpack ⟨0#3, 1#1, 0#1, 0x00#8, 0x00#8, 0x00#8⟩) := by decide +kernel

/-- V18. -/
theorem test_decode_idparse : decode (bytes [0x12, 0xFF, 0xFF, 0xFF, 0x1F]) = .ok (.idparse 0x1FFFFFFF#29) := by decide +kernel

/-- The second `IDPGN` packet under V19. -/
theorem test_decode_idpgn : decode (bytes [0x13, 0x06, 0x00, 0x00, 0xEF, 0x26, 0x80]) = .ok (.idpgn ⟨6#3, 0#1, 0#1, 0xEF#8, 0x26#8, 0x80#8⟩) := by decide +kernel

/-- V23. -/
theorem test_decode_fenc : decode (bytes [0x20, 0x03, 0x10, 0x00, 0x00, 0x00, 0x00, 0x00, 0x00, 0xE0, 0x3F, 0x00, 0x00, 0x00, 0x00, 0x00, 0x00, 0x00, 0x00, 0x01, 0x00, 0x00, 0x00, 0x00, 0x00, 0x00, 0xD0, 0xBF]) = .ok (.fenc ⟨true, true, 16, 0x3FE0000000000000#64, 0#64⟩ ⟨true, 0xBFD0000000000000#64⟩) := by decide +kernel

/-- V58. -/
theorem test_decode_fdec : decode (bytes [0x21, 0x02, 0x08, 0x00, 0x00, 0x00, 0x00, 0x00, 0x00, 0xF0, 0x3F, 0x00, 0x00, 0x00, 0x00, 0x00, 0x00, 0x44, 0xC0, 0x00, 0x00, 0x00, 0x00, 0x00, 0x00, 0x00, 0x00]) = .ok (.fdec ⟨false, true, 8, 0x3FF0000000000000#64, 0xC044000000000000#64⟩ 0#64) := by decide +kernel

/-- V67. -/
theorem test_decode_bins : decode (bytes [0x28, 0x04, 0x00, 0x0C, 0xBC, 0x0A, 0x00, 0x00, 0x00, 0x00, 0x00, 0x00, 0x04, 0x00, 0x00, 0x00, 0x00]) = .ok (.bins 4#16 12 0xABC#64 (bytes [0, 0, 0, 0])) := by decide +kernel

/-- V74. -/
theorem test_decode_bext : decode (bytes [0x29, 0x20, 0x00, 0x20, 0x08, 0x58, 0xB9, 0xFC, 0x1E, 0xF0, 0x1A, 0x60, 0x03]) = .ok (.bext 32#16 32 (bytes [0x58, 0xB9, 0xFC, 0x1E, 0xF0, 0x1A, 0x60, 0x03])) := by decide +kernel

/-- S7. -/
theorem test_decode_pencPosr : decode (bytes [0x30, 0x01, 0xF5, 0xDB, 0xD7, 0x81, 0x73, 0xFE, 0x49, 0x40, 0x01, 0xF4, 0xFD, 0xD4, 0x78, 0xE9, 0xA6, 0x16, 0x40]) = .ok (.pencPosr ⟨true, 0x4049FE7381D7DBF5#64⟩ ⟨true, 0x4016A6E978D4FDF4#64⟩) := by decide +kernel

/-- S8. -/
theorem test_decode_pencCogsog : decode (bytes [0x31, 0x2A, 0xFC, 0x01, 0x00, 0x00, 0x00, 0x00, 0x00, 0x80, 0x46, 0x40, 0x01, 0xA9, 0xDE, 0x1A, 0xD8, 0x2A, 0xC1, 0xE3, 0x3F]) = .ok (.pencCogsog 0x2A#8 0xFC#8 ⟨true, 0x4046800000000000#64⟩ ⟨true, 0x3FE3C12AD81ADEA9#64⟩) := by decide +kernel

/-- V102. -/
theorem test_decode_pencGnss : decode (bytes [0x32, 0xFF, 0x00, 0x00, 0x00, 0x00, 0x00, 0x00, 0x00, 0x00, 0x00, 0x00, 0x00, 0x00, 0x01, 0x00, 0x00, 0x00, 0x00, 0x00, 0xC0, 0x40, 0xC0, 0x01, 0x00, 0x00, 0x00, 0x00, 0x00, 0x90, 0x51, 0xC0, 0x01, 0x00, 0x00, 0x00, 0x00, 0x00, 0x00, 0xF8, 0xBF, 0x0F, 0x0F, 0xFF, 0x00, 0x00, 0x00, 0x00, 0x00, 0x00, 0x00, 0x00, 0x01, 0xFF, 0xFF, 0xFF, 0xFF, 0x01, 0x01, 0x34, 0x12, 0x00, 0x00, 0x00]) = .ok (.pencGnss stationFix) := by decide +kernel

/-- V118. -/
theorem test_decode_pencVpos : decode (bytes [0x33, 0x01, 0x00, 0x00, 0x00, 0x00, 0x00, 0x40, 0x6A, 0xC0, 0x01, 0x00, 0x00, 0x00, 0x00, 0x00, 0x40, 0x6A, 0xC0]) = .ok (.pencVpos ⟨true, 0xC06A400000000000#64⟩ ⟨true, 0xC06A400000000000#64⟩) := by decide +kernel

/-- V127. -/
theorem test_decode_pencVds : decode (bytes [0x34, 0x00, 0x00, 0x00, 0x00, 0x00, 0x00, 0x00, 0x00, 0x00, 0x00, 0x00, 0x00, 0x00, 0x00, 0x00, 0x00, 0x00, 0x00, 0x01, 0x34, 0x12, 0x01, 0xFF, 0xFF]) = .ok (.pencVds ⟨false, 0#64⟩ ⟨false, 0#64⟩ ⟨true, 0x1234#16⟩ ⟨true, 0xFFFF#16⟩) := by decide +kernel

/-- V87. -/
theorem test_decode_pdecPosr : decode (bytes [0x38, 0x07, 0x00, 0x00, 0x00, 0x00, 0x00, 0x00, 0x00]) = .ok (.pdecPosr (bytes [0, 0, 0, 0, 0, 0, 0])) := by decide +kernel

/-- V99. -/
theorem test_decode_pdecCogsog : decode (bytes [0x39, 0x04, 0x00, 0x00, 0x00, 0x00]) = .ok (.pdecCogsog (bytes [0, 0, 0, 0])) := by decide +kernel

/-- Format `D` of R78 with a payload of two bytes. -/
theorem test_decode_pdecGnss : decode (bytes [0x3A, 0x02, 0x2A, 0x20]) = .ok (.pdecGnss (bytes [0x2A, 0x20])) := by decide +kernel

/-- V116. -/
theorem test_decode_pdecVpos : decode (bytes [0x3B, 0x08, 0x58, 0x2E, 0x28, 0x9C, 0xF0, 0x8F, 0x8B, 0x80]) = .ok (.pdecVpos (bytes [0x58, 0x2E, 0x28, 0x9C, 0xF0, 0x8F, 0x8B, 0x80])) := by decide +kernel

/-- V126. -/
theorem test_decode_pdecVds : decode (bytes [0x3C, 0x08, 0x80, 0x16, 0x39, 0x02, 0xFF, 0xFF, 0xFF, 0xFF]) = .ok (.pdecVds (bytes [0x80, 0x16, 0x39, 0x02, 0xFF, 0xFF, 0xFF, 0xFF])) := by decide +kernel

/-- V145. -/
theorem test_decode_fptx : decode (bytes [0x40, 0x23, 0x05, 0xF8, 0x0D, 0x1F, 0x08, 0x00, 0x01, 0x02, 0x03, 0x04, 0x05, 0x06, 0x07]) = .ok (.fptx 0x0DF80523#29 31#5 (bytes [0, 1, 2, 3, 4, 5, 6, 7])) := by decide +kernel

/-- V157. -/
theorem test_decode_fprx : decode (bytes [0x41, 0x23, 0x05, 0xF8, 0x0D, 0x05, 0x25, 0xB6, 0xB7, 0xB8, 0xB9, 0xFF, 0xFF, 0xFF, 0xB1, 0x04, 0x00, 0x00, 0x00, 0x00, 0x00, 0x00]) = .ok (.fprx 0x0DF80523#29 5 (bytes [0x25, 0xB6, 0xB7, 0xB8, 0xB9, 0xFF, 0xFF, 0xFF]) 1201#64) := by decide +kernel

/-- V155. -/
theorem test_decode_fptick : decode (bytes [0x42, 0xF4, 0x01, 0x00, 0x00, 0x00, 0x00, 0x00, 0x00]) = .ok (.fptick 500#64) := by decide +kernel

/-- V150. -/
theorem test_decode_rdcnt : decode (bytes [0x50]) = .ok (.rdcnt) := by decide +kernel

/-- V180. -/
theorem test_decode_refuses_empty : decode ([]) = .error .emptyRequest := by decide +kernel

/-- V184. -/
theorem test_decode_refuses_opcode : decode (bytes [0x35, 0x00]) = .error (.unknownOpcode 0x35#8) := by decide +kernel

/-- V185. -/
theorem test_decode_refuses_trailing : decode (bytes [0x50, 0x00]) = .error .trailingBytes := by decide +kernel

/-- V186. -/
theorem test_decode_refuses_bit29 : decode (bytes [0x12, 0x23, 0x01, 0xF8, 0x29]) = .error .reservedBits := by decide +kernel

/-- V187. -/
theorem test_decode_refuses_short : decode (bytes [0x12, 0x23, 0x01, 0xF8]) = .error .tooShort := by decide +kernel

/-- V193. -/
theorem test_decode_refuses_width_65 : decode (bytes [0x20, 0x02, 0x41, 0x00, 0x00, 0x00, 0x00, 0x00, 0x00, 0xF0, 0x3F, 0x00, 0x00, 0x00, 0x00, 0x00, 0x00, 0x00, 0x00, 0x01, 0x00, 0x00, 0x00, 0x00, 0x00, 0x00, 0xF0, 0x3F]) = .error .operandRange := by decide +kernel

/-- V199. -/
theorem test_decode_refuses_known_2 : decode (bytes [0x20, 0x02, 0x10, 0x00, 0x00, 0x00, 0x00, 0x00, 0x00, 0xF0, 0x3F, 0x00, 0x00, 0x00, 0x00, 0x00, 0x00, 0x00, 0x00, 0x02, 0x00, 0x00, 0x00, 0x00, 0x00, 0x00, 0xF0, 0x3F]) = .error .reservedBits := by decide +kernel

/-- V203. -/
theorem test_decode_refuses_length : decode (bytes [0x29, 0x00, 0x00, 0x08, 0x38]) = .error .tooShort := by decide +kernel

/-- V209. -/
theorem test_decode_refuses_dlc_9 : decode (bytes [0x41, 0x23, 0x05, 0xF8, 0x0D, 0x09, 0x07, 0x2B, 0x00, 0x01, 0x02, 0x03, 0x04, 0x05, 0xE8, 0x03, 0x00, 0x00, 0x00, 0x00, 0x00, 0x00]) = .error .operandRange := by decide +kernel

/-! ### Well-formedness: an ill-formed term for each check, which the check refuses -/

/-- A descriptor that is legal: `u16* scale=1 offset=0`. -/
def plainDesc : Desc := ⟨false, true, 16, 0x3FF0000000000000#64, 0#64⟩

theorem test_wf_accepts : (Instr.fenc plainDesc ⟨true, 0#64⟩).wellFormed = true := by decide +kernel
theorem test_wf_width_0 : (Instr.fdec { plainDesc with width := 0 } 0#64).wellFormed = false := by decide +kernel
theorem test_wf_width_65 : (Instr.fdec { plainDesc with width := 65 } 0#64).wellFormed = false := by decide +kernel
theorem test_wf_scale_zero : (Instr.fdec { plainDesc with scale := 0#64 } 0#64).wellFormed = false := by decide +kernel
theorem test_wf_scale_negative :
    (Instr.fdec { plainDesc with scale := 0xBFF0000000000000#64 } 0#64).wellFormed = false := by decide +kernel
theorem test_wf_scale_nan :
    (Instr.fdec { plainDesc with scale := 0x7FF8000000000000#64 } 0#64).wellFormed = false := by decide +kernel
theorem test_wf_offset_infinite :
    (Instr.fdec { plainDesc with offset := 0x7FF0000000000000#64 } 0#64).wellFormed = false := by decide +kernel
theorem test_wf_raw_too_wide : (Instr.fdec plainDesc 0x10000#64).wellFormed = false := by decide +kernel
theorem test_wf_unknown_without_sentinel :
    (Instr.fenc { plainDesc with hasSentinel := false } ⟨false, 0#64⟩).wellFormed = false := by decide +kernel
theorem test_wf_nan_without_sentinel :
    (Instr.fenc { plainDesc with hasSentinel := false } ⟨true, 0x7FF8000000000000#64⟩).wellFormed = false := by
  decide +kernel
theorem test_wf_bins_width : (Instr.bins 0#16 65 0#64 []).wellFormed = false := by decide
theorem test_wf_bins_raw : (Instr.bins 0#16 4 0x1A#64 []).wellFormed = false := by decide
theorem test_wf_bext_width : (Instr.bext 0#16 0 []).wellFormed = false := by decide
theorem test_wf_buffer_56 : (Instr.pdecPosr (List.replicate 56 0#8)).wellFormed = false := by decide
theorem test_wf_payload_256 : (Instr.fptx 0#29 0#5 (List.replicate 256 0#8)).wellFormed = false := by decide +kernel
theorem test_wf_stations_256 :
    (Instr.pencGnss { stationFix with stations := List.replicate 256 ⟨⟨false, 0#16⟩, ⟨false, 0#16⟩⟩ }).wellFormed = false := by
  decide +kernel
theorem test_wf_dlc_9 : (Instr.fprx 0#29 9 (List.replicate 8 0#8) 0#64).wellFormed = false := by decide
theorem test_wf_seven_data_bytes : (Instr.fprx 0#29 7 (List.replicate 7 0#8) 0#64).wellFormed = false := by decide

/-! ### The commands -/

/-- V5: a PDU1 PGN with a low byte, which is dropped. -/
theorem test_idbuild_pdu1 :
    reply (exec (.idbuild 0x0EF55#17 6#3 0x80#8 0x26#8) .reset) = bytes [0x00, 0x06, 0x00, 0x00, 0xEF, 0x26, 0x80] := by decide

/-- V9: a PDU2 PGN with a destination that is not broadcast. -/
theorem test_idbuild_invalid : reply (exec (.idbuild 0x1F801#17 2#3 0x23#8 0x10#8) .reset) = bytes [0x01] := by decide

/-- V4: the packed form of a PDU1 identifier is 0x18EF2680. -/
theorem test_idpack :
    reply (exec (.idpack ⟨6#3, 0#1, 0#1, 0xEF#8, 0x26#8, 0x80#8⟩) .reset) = bytes [0x00, 0x80, 0x26, 0xEF, 0x18] := by decide

/-- The packet under V19: `reserved_bit` is bit 25. -/
theorem test_idpack_reserved :
    reply (exec (.idpack ⟨0#3, 1#1, 0#1, 0#8, 0#8, 0#8⟩) .reset) = bytes [0x00, 0x00, 0x00, 0x00, 0x02] := by decide

/-- The example of R104. -/
theorem test_idparse :
    reply (exec (.idparse 0x18EF2680#29) .reset) = bytes [0x00, 0x06, 0x00, 0x00, 0xEF, 0x26, 0x80] := by decide

/-- V18, `IDPGN`: PDU2, so the destination is broadcast. -/
theorem test_idpgn_pdu2 :
    reply (exec (.idpgn ⟨7#3, 1#1, 1#1, 0xFF#8, 0xFE#8, 0x00#8⟩) .reset) = bytes [0x00, 0xFE, 0xFF, 0x01, 0xFF] := by decide

/-- The packet under V19: PDU1, so the low byte of the PGN is 0. -/
theorem test_idpgn_pdu1 :
    reply (exec (.idpgn ⟨6#3, 0#1, 0#1, 0xEF#8, 0x26#8, 0x80#8⟩) .reset) = bytes [0x00, 0x00, 0xEF, 0x00, 0x26] := by decide

/-- V25, a tie, with its three results. -/
theorem test_fenc_tie (t : RoundTies) :
    fencCommand t (descField ⟨true, true, 16, 0x3FE0000000000000#64, 0#64⟩) (physIn ⟨true, 0xBFF4000000000000#64⟩) =
      .ok (match t with | .away => 0xFFFD | .even => 0xFFFE | .up => 0xFFFE) := by cases t <;> decide +kernel

/-- V44: 51.9879 with an offset of -210. -/
theorem test_fenc_offset (t : RoundTies) :
    fencCommand t (descField ⟨false, true, 32, 0x3E7AD7F29ABCAF48#64, 0xC06A400000000000#64⟩)
      (physIn ⟨true, 0x4049FE7381D7DBF5#64⟩) = .ok 0x9C282E58 := by cases t <;> decide +kernel

/-- V53: all ones is -1 on a signed field. -/
theorem test_fdec_negative :
    reply (exec (.fdec ⟨true, true, 16, 0x3FF0000000000000#64, 0#64⟩ 0xFFFF#64) .reset) =
      bytes [0x00, 0x01, 0x00, 0x00, 0x00, 0x00, 0x00, 0x00, 0xF0, 0xBF] := by decide +kernel

/-- V60: a code that is no binary64 number is rounded in the response. -/
theorem test_fdec_rounds :
    reply (exec (.fdec ⟨false, false, 64, 0x3FF0000000000000#64, 0#64⟩ 0xFFFFFFFFFFFFFFFF#64) .reset) =
      bytes [0x00, 0x01, 0x00, 0x00, 0x00, 0x00, 0x00, 0x00, 0xF0, 0x43] := by decide +kernel

/-- V69: bits 7, 8 and 9 receive 0, 1, 0 and every other bit is kept. -/
theorem test_bins : reply (exec (.bins 7#16 3 2#64 (bytes [0xAA, 0xAA, 0xAA])) .reset) = bytes [0x00, 0x03, 0x2A, 0xA9, 0xAA] := by
  decide

/-- V72: out of bounds by one bit. -/
theorem test_bins_outside : reply (exec (.bins 57#16 8 0x12#64 (List.replicate 8 0#8)) .reset) = bytes [0x02] := by decide

/-- V77. -/
theorem test_bext :
    reply (exec (.bext 4#16 12 (bytes [0xC0, 0xAB, 0, 0])) .reset) = bytes [0x00, 0xBC, 0x0A, 0, 0, 0, 0, 0, 0] := by decide

/-- S7, the source's worked example, under every `ROUND_TIES`. -/
theorem test_penc_posr (t : RoundTies) :
    bufOut (pencPosr t (physIn ⟨true, 0x4049FE7381D7DBF5#64⟩) (physIn ⟨true, 0x4016A6E978D4FDF4#64⟩)) =
      bytes [0x08, 0x58, 0xB9, 0xFC, 0x1E, 0xF0, 0x1A, 0x60, 0x03] := by cases t <;> decide +kernel

/-- S8, the source's worked example. -/
theorem test_penc_cogsog (t : RoundTies) :
    bufOut (pencCogsog t 0x2A#8 0xFC#8 (physIn ⟨true, 0x4046800000000000#64⟩) (physIn ⟨true, 0x3FE3C12AD81ADEA9#64⟩)) =
      bytes [0x08, 0x2A, 0xFC, 0xAE, 0x1E, 0x3E, 0x00, 0xFF, 0xFF] := by cases t <;> decide +kernel

/-- V102. -/
theorem test_penc_gnss (t : RoundTies) : pencGnss t (gnssIn stationFix) = .ok stationPayload := by cases t <;> decide +kernel

/-- V105: four reference stations. -/
theorem test_penc_gnss_too_large :
    reply (exec (.pencGnss { stationFix with stations := List.replicate 4 ⟨⟨true, 1#16⟩, ⟨true, 2#16⟩⟩ }) .reset) = bytes [0x03] := by
  decide +kernel

/-- V119: both clamps. -/
theorem test_penc_vpos (t : RoundTies) :
    pencVpos t (physIn ⟨true, 0xC06A600000000000#64⟩) (physIn ⟨true, 0x4072C00000000000#64⟩) =
      bytes [0x00, 0x00, 0x00, 0x00, 0xFE, 0xFF, 0xFF, 0xFF] := by cases t <;> decide +kernel

/-- V125. -/
theorem test_penc_vds (t : RoundTies) :
    pencVds t (physIn ⟨true, 0x4046800000000000#64⟩) (physIn ⟨true, 0x3FE3C12AD81ADEA9#64⟩) none none =
      bytes [0x80, 0x16, 0x39, 0x02, 0xFF, 0xFF, 0xFF, 0xFF] := by cases t <;> decide +kernel

/-- V81. -/
theorem test_pdec_posr :
    reply (exec (.pdecPosr (bytes [0x58, 0xB9, 0xFC, 0x1E, 0xF0, 0x1A, 0x60, 0x03])) .reset) =
      bytes [0x00, 0x01, 0xF5, 0xDB, 0xD7, 0x81, 0x73, 0xFE, 0x49, 0x40, 0x01, 0xF4, 0xFD, 0xD4, 0x78, 0xE9, 0xA6, 0x16, 0x40] := by
  decide +kernel

/-- V95: the reserved word is not examined. -/
theorem test_pdec_cogsog :
    reply (exec (.pdecCogsog (bytes [0x01, 0x02, 0xFE, 0xFF, 0xFE, 0xFF, 0x00, 0x00])) .reset) =
      bytes [0x00, 0x01, 0x02, 0x01, 0x80, 0xA8, 0xEF, 0xEE, 0xB6, 0x77, 0x77, 0x40, 0x01, 0x1F, 0x85, 0xEB, 0x51, 0xB8, 0x7A, 0x84,
        0x40] := by decide +kernel

/-- V103, the end of the response: `integ`, the codes, `nref` and the station. -/
theorem test_pdec_gnss :
    (reply (exec (.pdecGnss stationPayload) .reset)).drop 43 =
      bytes [0xFF, 0x00, 0x00, 0x00, 0x00, 0x00, 0x00, 0x00, 0x00, 0x01, 0xFF, 0xFF, 0xFF, 0xFF, 0x01, 0x01, 0x34, 0x12, 0x00, 0x00,
        0x00] := by decide +kernel

/-- V121. -/
theorem test_pdec_vpos :
    reply (exec (.pdecVpos (bytes [0x00, 0x00, 0x00, 0x00, 0xFE, 0xFF, 0xFF, 0xFF])) .reset) =
      bytes [0x00, 0x01, 0x00, 0x00, 0x00, 0x00, 0x00, 0x40, 0x6A, 0xC0, 0x01, 0xC6, 0xFE, 0x0D, 0x35, 0xE5, 0x6F, 0x6B, 0x40] := by
  decide +kernel

/-- V126. -/
theorem test_pdec_vds :
    reply (exec (.pdecVds (bytes [0x80, 0x16, 0x39, 0x02, 0xFF, 0xFF, 0xFF, 0xFF])) .reset) =
      bytes [0x00, 0x01, 0x00, 0x00, 0x00, 0x00, 0x00, 0x80, 0x46, 0x40, 0x01, 0x1C, 0xC7, 0x71, 0x1C, 0xC7, 0xC1, 0xE3, 0x3F, 0x00,
        0x00, 0x00, 0x00, 0x00, 0x00] := by decide +kernel

/-- V145. -/
theorem test_fptx :
    reply (exec (.fptx 0x0DF80523#29 31#5 (bytes [0, 1, 2, 3, 4, 5, 6, 7])) .reset) =
      bytes [0x00, 0x02, 0x23, 0x05, 0xF8, 0x0D, 0x1F, 0x08, 0x00, 0x01, 0x02, 0x03, 0x04, 0x05, 0x23, 0x05, 0xF8, 0x0D, 0x3F, 0x06,
        0x07, 0xFF, 0xFF, 0xFF, 0xFF, 0xFF] := by decide

/-- V144: 56 bytes. -/
theorem test_fptx_too_large : reply (exec (.fptx 0x0DF80523#29 3#5 (List.replicate 56 0#8)) .reset) = bytes [0x03] := by decide

/-- The identifier of the vectors. -/
def gnssId : Ident := 0x0DF80523#29

/-- The session of V153: frame 0 of a 43-byte message with sequence counter 7, at time 1000. -/
def session43 : Session := ⟨gnssId, 7#5, 43#8, 1#8, bytes [0, 1, 2, 3, 4, 5] ++ List.replicate 49 0#8, 1000#64⟩

/-- The session after V156: frame 0 of a 10-byte message with sequence counter 5, at time 1200. -/
def session10 : Session :=
  ⟨gnssId, 5#5, 10#8, 1#8, bytes [0xB0, 0xB1, 0xB2, 0xB3, 0xB4, 0xB5] ++ List.replicate 49 0#8, 1200#64⟩

/-- A state with one session. -/
def holding (sn : Session) : State := { State.reset with sess := [sn] }

/-- The data bytes of V160, the frame that completes `session10`. -/
def lastFrame10 : Packet := bytes [0x25, 0xB6, 0xB7, 0xB8, 0xB9, 0x00, 0x11, 0x22]

/-- V160: the padding is not stored and the session is deleted. -/
theorem test_fprx_complete :
    (fprx vectorParams gnssId 8 lastFrame10 1204#64 (holding session10)).2.payload =
      bytes [0xB0, 0xB1, 0xB2, 0xB3, 0xB4, 0xB5, 0xB6, 0xB7, 0xB8, 0xB9] ∧
    (fprx vectorParams gnssId 8 lastFrame10 1204#64 (holding session10)).1.sess = [] := by decide

/-- V159: a wrong sequence counter drops the frame and leaves the session. -/
theorem test_fprx_out_of_sequence :
    fprxOut (fprx vectorParams gnssId 8 (bytes [0x26, 0xB6, 0xB7, 0xB8, 0xB9, 0xFF, 0xFF, 0xFF]) 1203#64 (holding session10)).2 =
      bytes [0x10, 0x00, 0x00, 0x23, 0x05, 0xF8, 0x0D, 0x00] ∧
    (fprx vectorParams gnssId 8 (bytes [0x26, 0xB6, 0xB7, 0xB8, 0xB9, 0xFF, 0xFF, 0xFF]) 1203#64 (holding session10)).1 =
      { holding session10 with dropped := 1#32 } := by decide

/-- The example of R222: at age 1000 the session stays, at age 1001 it goes. -/
theorem test_fptick :
    (fptick vectorParams 2000#64 (holding session43)).2 = 0 ∧ (fptick vectorParams 2001#64 (holding session43)).2 = 1 ∧
      (fptick vectorParams 2001#64 (holding session43)).1.sess = [] := by decide

/-- V155: a time below `last` counts as age 0. -/
theorem test_fptick_backwards : (fptick vectorParams 500#64 (holding session43)).1 = holding session43 := by decide

/-- V168. -/
theorem test_rdcnt : reply (exec .rdcnt { State.reset with dropped := 6#32 }) = bytes [0, 6, 0, 0, 0, 0, 0] := by decide

/-! ### The step -/

/-- V185: a packet that is no command is answered with 0x7F. -/
theorem test_step_illegal : reply (step (State.reset.pushInbox (.request (bytes [0x50, 0x00])))) = bytes [0x7F] := by decide

/-- R301: reset empties the table and gives no response. -/
theorem test_step_reset : step ((holding session43).pushInbox .reset) = .next State.reset := rfl

/-- A table word of `IDBUILD` (V1) placed with `withFetchWord` is the next command that runs. -/
theorem test_fetch_word :
    reply (step (State.reset.withFetchWord 56 0xFF230201F80110)) = bytes [0x00, 0x02, 0x00, 0x01, 0xF8, 0x01, 0x23] := by decide

/-! ### Witnesses: for every statement with hypotheses, values that meet them -/

theorem witness_DecodeInvertsEncode : (Instr.fprx gnssId 8 lastFrame10 1204#64).wellFormed = true := by decide

theorem witness_EncodeInvertsDecode : decode (bytes [0x50]) = .ok .rdcnt := by decide

theorem witness_IllegalRequestsExactly_legal : LegalRequest (bytes [0x50]) := by
  refine ⟨by decide, by decide, ?_⟩
  show True
  trivial

theorem witness_IllegalRequestsExactly_illegal :
    ¬ LegalRequest [] ∧ (State.reset.pushInbox (.request [])).inbox = .request [] :: [] := ⟨fun h => h.1 rfl, rfl⟩

theorem witness_IllegalRequestsExactly_trailing :
    ¬ LegalRequest (bytes [0x50, 0x00]) ∧
      (State.reset.pushInbox (.request (bytes [0x50, 0x00]))).inbox = .request (bytes [0x50, 0x00]) :: [] :=
  ⟨fun h => absurd h.2.1 (by decide), rfl⟩

theorem witness_OperandsStandAtTheirOffsets :
    decode (bytes [0x42, 0xF4, 0x01, 0, 0, 0, 0, 0, 0]) = .ok (.fptick 500#64) := by decide

theorem witness_StepRunsDecodedCommand :
    (State.reset.pushInbox (.request (bytes [0x50]))).inbox = .request (bytes [0x50]) :: [] ∧
      decode (bytes [0x50]) = .ok .rdcnt := ⟨rfl, by decide⟩

theorem witness_OneResponsePerRequest :
    (State.reset.pushInbox (.request (bytes [0x51]))).inbox = .request (bytes [0x51]) :: [] := rfl

theorem witness_ResetClearsTableAndCounter : ((holding session43).pushInbox .reset).inbox = .reset :: [] := rfl

theorem witness_FailuresLeaveNoTrace : isPure (.fptx gnssId 0#5 []) = true ∧ isPure .rdcnt = false := ⟨rfl, rfl⟩

theorem witness_IdbuildCompletes :
    (0x0EF00#17).toNat / 256 % 256 = 239 ∧ (0x0F000#17).toNat / 256 % 256 = 240 ∧ broadcast = 0xFF#8 ∧
      (0xFE#8 : Byte) ≠ 0xFF#8 := by decide

theorem witness_IdentifierRoundTrips :
    idbuild 0x1F801#17 2#3 0x23#8 0xFF#8 = .ok ⟨2#3, 0#1, 1#1, 0xF8#8, 0x01#8, 0x23#8⟩ ∧
      240 ≤ (0x0F000#17).toNat / 256 % 256 ∧ (0x0EF00#17).toNat / 256 % 256 < 240 ∧ (0x0EF00#17).toNat % 256 = 0 ∧
      (0x0EF55#17).toNat / 256 % 256 < 240 ∧ (0x0EF55#17).toNat % 256 ≠ 0 := by decide

/-- An unknown value, an infinity and a number, the last on a field one bit wide; and an unknown value without a sentinel. -/
theorem witness_FencCompletes :
    (physIn ⟨false, 0#64⟩ = none ∧ { plainDesc with hasSentinel := false }.hasSentinel = false) ∧
    (Instr.fenc plainDesc ⟨false, 0#64⟩).wellFormed = true ∧
      (Instr.fenc plainDesc ⟨true, 0x7FF0000000000000#64⟩).wellFormed = true ∧
      (Instr.fenc { plainDesc with width := 1 } ⟨true, 0#64⟩).wellFormed = true := by decide +kernel

/-- The sentinel, and the highest code of a field 64 bits wide. -/
theorem witness_FdecCompletes :
    (Instr.fdec plainDesc 0xFFFF#64).wellFormed = true ∧
      (Instr.fdec { plainDesc with width := 64, isSigned := true } 0xFFFFFFFFFFFFFFFF#64).wellFormed = true := by
  decide +kernel

/-- A 16-bit field with a sentinel: the edges of its range, a value on either side, and the sentinel code. -/
theorem witness_ScalerLaws :
    1 ≤ vdPitch.width ∧ 0 < vdPitch.scale ∧ 0 < vdPitch.unit ∧ vdPitch.hasSentinel = true ∧
      (loOf vdPitch ≤ roundTo .away (quotient vdPitch 65534) ∧ roundTo .away (quotient vdPitch 65534) ≤ hiOf vdPitch) ∧
      hiOf vdPitch < roundTo .away (quotient vdPitch 65535) ∧ roundTo .away (quotient vdPitch (-1)) < loOf vdPitch ∧
      0xFFFF < 2 ^ vdPitch.width ∧ (0 : ℚ) ≤ 65534 := by decide +kernel

theorem witness_RoundGoesToNearest :
    |((3 : Int) : ℚ) - 5 / 2 - 1 / 100| < 1 / 2 ∧ (5 / 2 : ℚ) = ((2 : Int) : ℚ) + 1 / 2 := by decide +kernel

/-- The smallest subnormal number. -/
theorem witness_Binary64RoundTrip :
    f64val 1#64 = .rat (1 / 2 ^ 1074) ∧ (1 / 2 ^ 1074 : ℚ) ≠ 0 := by decide +kernel

/-- A number in range, and the two bounds, which are already infinite. -/
theorem witness_Binary64IsNearest :
    |(1 / 3 : ℚ)| < 2 ^ 1024 - 2 ^ 970 ∧ f64val 0x3FD5555555555555#64 = .rat (6004799503160661 / 18014398509481984) ∧
      (2 ^ 1024 - 2 ^ 970 : ℚ) ≤ 2 ^ 1024 - 2 ^ 970 ∧ (-(2 ^ 1024 - 2 ^ 970) : ℚ) ≤ -(2 ^ 1024 - 2 ^ 970) := by decide +kernel

theorem witness_MemoryIsLittleEndian : 1 + 2 ≤ (bytes [1, 2, 3]).length ∧ 0xFFFF < 2 ^ (8 * 2) := by decide

theorem witness_BitAccessIsByteAccess : 1 + 2 ≤ (bytes [1, 2, 3]).length ∧ 0xFFFF < 2 ^ (8 * 2) := by decide

/-- The two nibbles of a byte. -/
theorem witness_BitFieldLaws :
    4 + 4 ≤ 8 * (bytes [0x21]).length ∧ 15 < 2 ^ 4 ∧ 0 + 4 ≤ 8 * (bytes [0x21]).length ∧ 0 + 4 ≤ 4 := by decide

/-- A field that ends at the last bit (V73), and one that ends a bit later. -/
theorem witness_BinsCompletes :
    8 * (List.replicate 8 0#8).length < (57#16).toNat + 8 ∧ (56#16).toNat + 8 ≤ 8 * (List.replicate 8 0#8).length := by decide

theorem witness_BextCompletes :
    8 * (List.replicate 8 0#8).length < (61#16).toNat + 4 ∧ (60#16).toNat + 4 ≤ 8 * (List.replicate 8 0#8).length := by decide

theorem witness_PencGnssCompletes :
    3 < { stationFix with stations := List.replicate 4 ⟨⟨true, 1#16⟩, ⟨false, 0#16⟩⟩ }.stations.length ∧
    { stationFix with stations := List.replicate 3 ⟨⟨true, 1#16⟩, ⟨false, 0#16⟩⟩ }.stations.length ≤ 3 := by decide

theorem witness_PdecPositionCompletes : (List.replicate 9 0xFF#8).length ≠ 8 ∧ (List.replicate 8 0xFF#8).length = 8 := by decide

theorem witness_PdecCourseSpeedCompletes :
    (bytes [0x80]).length ≠ 8 ∧ (bytes [0x80, 0x16, 0x39, 0x02, 0xFF, 0xFF, 0xFF, 0xFF]).length = 8 := by decide

/-- Too short, a reserved count, and a byte too many; one station announced, and the byte 0xFF with none. -/
theorem witness_PdecGnssCompletes :
    ((List.replicate 42 0xFF#8).length < 43 ∧ 4 ≤ byteAt (List.replicate 43 4#8) 42 ∧ byteAt (List.replicate 43 4#8) 42 ≤ 254 ∧
      (List.replicate 44 0#8).length ≠ 43 + 4 * (if byteAt (List.replicate 44 0#8) 42 = 255 then 0 else 0)) ∧
    (stationPayload.length = 43 + 4 * 1 ∧ byteAt stationPayload 42 ≤ 3 ∧ 1 = byteAt stationPayload 42) ∧
      ((List.replicate 43 0xFF#8).length = 43 + 4 * 0 ∧ byteAt (List.replicate 43 0xFF#8) 42 = 255) := by decide

theorem witness_GnssPayloadComesBack : (gnssIn stationFix).stations.length ≤ 3 := by decide

/-- Payloads that the five decoders accept. -/
theorem witness_DecodedPayloadsReencode :
    pdecPosr (List.replicate 8 0xFF#8) = .ok (some (-1 / 10 ^ 7), some (-1 / 10 ^ 7)) ∧
      pdecCogsog (List.replicate 8 0xFF#8) = .ok ⟨0xFF#8, 0xFF#8, none, none⟩ ∧
      (pdecGnss stationPayload = .ok (gnssFields stationPayload 1) ∧ (gnssFields stationPayload 1).nref ≠ 0xFF#8) ∧
      pdecVpos (List.replicate 8 0xFF#8) = .ok (none, none) ∧
      pdecVds (List.replicate 8 0xFF#8) = .ok ⟨none, none, none, none⟩ := by decide +kernel

theorem witness_ContinuationFrameCount : 255 ≤ 255 := by decide

theorem witness_FptxCompletes :
    (bytes []).length = 0 ∧ 55 < (List.replicate 56 0#8).length ∧
    1 ≤ (bytes [0xA0]).length ∧ (bytes [0xA0]).length ≤ 55 ∧ 1 ≤ (List.replicate 55 0#8).length ∧
      (List.replicate 55 0#8).length ≤ 55 := by decide

/-- A frame of seven bytes, and the two length bytes next to the legal ones. -/
theorem witness_GarbledFramesAreDropped :
    7 < 8 ∧ byteAt (bytes [0x1F, 0x00]) 0 / 32 = 0 ∧ byteAt (bytes [0x1F, 0x00]) 1 = 0 ∧
      byteAt (bytes [0x1F, 56]) 0 / 32 = 0 ∧ 55 < byteAt (bytes [0x1F, 56]) 1 := by decide

/-- The sixteen sessions before V170. -/
def sixteen : List Session :=
  (List.range 16).map fun n => { session43 with key := BitVec.ofNat 29 n, last := BitVec.ofNat 64 (10 + n) }

/-- V170: the table is full; and a table with room. -/
theorem witness_FullTableDropsNewKeys :
    byteAt (bytes [0x00, 0x2B, 1, 2, 3, 4, 5, 6]) 0 / 32 = 0 ∧ 1 ≤ byteAt (bytes [0x00, 0x2B]) 1 ∧
      byteAt (bytes [0x00, 0x2B]) 1 ≤ 55 ∧
      (lookupSession gnssId (sweep vectorParams 30#64 sixteen) = none ∧
        vectorParams.fpSessions = some 16 ∧ 16 ≤ (sweep vectorParams 30#64 sixteen).length) ∧
      (lookupSession gnssId (sweep vectorParams 1020#64 sixteen) = none ∧
        (sweep vectorParams 1020#64 sixteen).length = 6) ∧
      (fprx vectorParams gnssId 8 (bytes [0x00, 0x2B, 1, 2, 3, 4, 5, 6]) 30#64 { State.reset with sess := sixteen }).2.disp =
        .dropTableFull := by decide +kernel

/-- A session that has just received a frame is not swept, whatever the parameters. -/
theorem sweep_fresh (c : Params) (sn : Session) : sweep c sn.last [sn] = [sn] := by simp [sweep, expired, age]

/-- One session never exceeds the capacity, whatever the parameters. -/
theorem one_fits (c : Params) (cap : Nat) (h : c.fpSessions = some cap) : 1 ≤ cap := by
  cases hs : c.spareSessions <;> simp [Params.fpSessions, hs] at h
  omega

/-- A table with room for a first session, whatever the parameters. -/
theorem room_for_one (c : Params) : tableFull c 0 = false := by
  cases hs : c.spareSessions <;> simp [tableFull, Params.fpSessions, hs]

theorem sessionOk_session10 : SessionOk session10 where
  len_pos := by decide
  len_le := by decide
  buf_len := by decide
  seen_first := by decide
  seen_range := fun i hi => by
    have h1 : contCount session10.len.toNat = 1 := by decide
    obtain ⟨j, rfl⟩ : ∃ j, i = j + 1 := ⟨i - 1, by omega⟩
    simp [session10]
  not_complete := by decide

theorem sessionOk_session43 : SessionOk session43 where
  len_pos := by decide
  len_le := by decide
  buf_len := by decide
  seen_first := by decide
  seen_range := fun i hi => by
    have h1 : contCount session43.len.toNat = 6 := by decide
    obtain ⟨j, rfl⟩ : ∃ j, i = j + 1 := ⟨i - 1, by omega⟩
    simp [session43]
  not_complete := by decide

theorem tableInv_one {c : Params} {sn : Session} (h : SessionOk sn) : TableInv c [sn] where
  rising := by simp [tableWf]
  sessions := fun x hx => by rw [List.mem_singleton.mp hx]; exact h
  capacity := fun cap hcap => by simpa using one_fits c cap hcap

theorem tableInv_nil (c : Params) : TableInv c [] where
  rising := rfl
  sessions := fun x hx => by cases hx
  capacity := fun cap _ => Nat.zero_le cap

/-- No session; then a session with another counter (V159), an index above the last (V158) and a frame seen before. -/
theorem witness_ContinuationFrameIsDropped :
    (byteAt lastFrame10 0 / 32 ≠ 0 ∧ lookupSession gnssId (sweep params 0#64 State.reset.sess) = none) ∧
      lookupSession gnssId (sweep params session10.last (holding session10).sess) = some session10 ∧
      (byteAt (bytes [0x26]) 0 / 32 ≠ 0 ∧ session10.seq.toNat ≠ byteAt (bytes [0x26]) 0 % 32) ∧
      (session10.seq.toNat = byteAt (bytes [0x45]) 0 % 32 ∧ session10.len.toNat / 7 < byteAt (bytes [0x45]) 0 / 32) ∧
      lookupSession gnssId (sweep params session43.last (holding { session43 with seen := 3#8 }).sess) =
        some { session43 with seen := 3#8 } ∧
      (session43.seq.toNat = byteAt (bytes [0x27]) 0 % 32 ∧ byteAt (bytes [0x27]) 0 / 32 ≤ session43.len.toNat / 7 ∧
        (3#8).getLsbD (byteAt (bytes [0x27]) 0 / 32) = true) := by
  refine ⟨⟨by decide, rfl⟩, ?_, by decide, by decide, ?_, by decide⟩
  · rw [show (holding session10).sess = [session10] from rfl, sweep_fresh]; decide
  · rw [show (holding { session43 with seen := 3#8 }).sess = [{ session43 with seen := 3#8 }] from rfl,
      show session43.last = { session43 with seen := 3#8 }.last from rfl, sweep_fresh]; decide

/-- The shortest and the longest message of more than one frame, in an empty table and over a live session. -/
theorem witness_FirstFrameStartsSession :
    ((bytes [0x07, 7, 0, 1, 2, 3, 4, 5]).length = 8 ∧ byteAt (bytes [0x07, 7]) 0 / 32 = 0 ∧ 7 ≤ byteAt (bytes [0x07, 7]) 1 ∧
      byteAt (bytes [0x07, 7]) 1 ≤ 55 ∧ byteAt (bytes [0x07, 55]) 1 ≤ 55) ∧
      (∀ cap : Nat, params.fpSessions = some cap → (sweep params 0#64 State.reset.sess).length < cap) ∧
      lookupSession gnssId (sweep params session10.last (holding session10).sess) ≠ none := by
  refine ⟨by decide, fun cap h => one_fits params cap h, ?_⟩
  rw [show (holding session10).sess = [session10] from rfl, sweep_fresh]; decide

theorem witness_ShortMessageCompletes :
    ((bytes [0x1F, 6, 0, 1, 2, 3, 4, 5]).length = 8 ∧ byteAt (bytes [0x1F, 6]) 0 / 32 = 0 ∧ 1 ≤ byteAt (bytes [0x1F, 1]) 1 ∧
      byteAt (bytes [0x1F, 6]) 1 ≤ 6) ∧
      ∀ cap : Nat, params.fpSessions = some cap → (sweep params 0#64 State.reset.sess).length < cap :=
  ⟨by decide, fun cap h => one_fits params cap h⟩

/-- V160 completes its message; the first continuation frame of S4 does not. -/
theorem witness_ContinuationFrameIsStored :
    (Inv (holding session10) ∧ lastFrame10.length = 8 ∧ byteAt lastFrame10 0 / 32 ≠ 0 ∧
      lookupSession gnssId (sweep params session10.last (holding session10).sess) = some session10 ∧
      session10.seq.toNat = byteAt lastFrame10 0 % 32 ∧ byteAt lastFrame10 0 / 32 ≤ session10.len.toNat / 7 ∧
      session10.seen.getLsbD (byteAt lastFrame10 0 / 32) = false ∧
      session10.seen.toNat + 2 ^ (byteAt lastFrame10 0 / 32) = 2 ^ (session10.len.toNat / 7 + 1) - 1) ∧
    Inv (holding session43) ∧
      lookupSession gnssId (sweep params session43.last (holding session43).sess) = some session43 ∧
      session43.seq.toNat = byteAt (bytes [0x27]) 0 % 32 ∧ byteAt (bytes [0x27]) 0 / 32 ≤ session43.len.toNat / 7 ∧
      session43.seen.getLsbD (byteAt (bytes [0x27]) 0 / 32) = false ∧
      session43.seen.toNat + 2 ^ (byteAt (bytes [0x27]) 0 / 32) ≠ 2 ^ (session43.len.toNat / 7 + 1) - 1 := by
  refine ⟨⟨tableInv_one sessionOk_session10, by decide, by decide, ?_, by decide, by decide, by decide, by decide⟩,
    tableInv_one sessionOk_session43, ?_, by decide, by decide, by decide, by decide⟩
  · rw [show (holding session10).sess = [session10] from rfl, sweep_fresh]; decide
  · rw [show (holding session43).sess = [session43] from rfl, sweep_fresh]; decide

/-- One tick past the timeout. -/
theorem witness_ExpiryComesBeforeTheFrame :
    TableInv vectorParams (holding session43).sess ∧ lookupSession gnssId (holding session43).sess = some session43 ∧
      session43.last.toNat + vectorParams.fpTimeout < (2001#64).toNat ∧ byteAt (bytes [0x27]) 0 / 32 ≠ 0 :=
  ⟨tableInv_one sessionOk_session43, by decide, by decide, by decide⟩

theorem witness_FptickCompletes :
    decode (0x42#8 :: bytes [0xF4, 0x01, 0, 0, 0, 0, 0, 0]) = .ok (.fptick 500#64) := by decide

theorem witness_RdcntCompletes : decode (0x50#8 :: []) = .ok .rdcnt := by decide

theorem witness_DroppedCountsDrops :
    (∃ t, exec .rdcnt State.reset = .next t) ∧ (∀ id dlc data now, Instr.rdcnt ≠ .fprx id dlc data now) ∧
      ∃ t, exec (.fprx gnssId 7 lastFrame10 0#64) State.reset = .next t :=
  ⟨⟨_, rfl⟩, fun _ _ _ _ h => Instr.noConfusion h, ⟨_, rfl⟩⟩

theorem witness_FramesDoNotInterfere :
    sweepCount vectorParams 1000#64 (holding session43).sess = 0 ∧ (0x0DF80524#29 : Ident) ≠ gnssId ∧
      sweepCount vectorParams 1000#64 (holding { session43 with key := 1#29 }).sess = 0 ∧
      lookupSession 2#29 (holding { session43 with key := 1#29 }).sess = lookupSession 2#29 (holding session43).sess ∧
      (holding { session43 with key := 1#29 }).sess.length = (holding session43).sess.length := by decide

/-- Two messages of two identifiers, mixed, beside a live session. -/
theorem witness_InterleavingIsHarmless :
    let fs : List (Ident × Packet × Ticks) :=
      [(1#29, bytes [0x00, 7, 1, 2, 3, 4, 5, 6], 1000#64), (2#29, bytes [0x00, 7, 9, 9, 9, 9, 9, 9], 1001#64),
        (1#29, bytes [0x20, 7, 0, 0, 0, 0, 0, 0], 1500#64), (2#29, bytes [0x20, 8, 0, 0, 0, 0, 0, 0], 2000#64)]
    TableInv vectorParams (holding session43).sess ∧ (∀ f ∈ fs, f.2.1.length = 8) ∧
      (∀ last ∈ (holding session43).sess.map Session.last ++ fs.map fun f => f.2.2, ∀ f ∈ fs,
        f.2.2.toNat ≤ last.toNat + vectorParams.fpTimeout) ∧
      ∀ cap : Nat, vectorParams.fpSessions = some cap → (holding session43).sess.length + fs.length ≤ cap := by
  refine ⟨tableInv_one sessionOk_session43, by decide, by simp [holding, session43, vectorParams, Params.fpTimeout], fun cap h => ?_⟩
  have : cap = 16 := by simpa [vectorParams, Params.fpSessions] using h.symm
  subst this; decide

/-- A message of two frames (V137), at one time. -/
theorem witness_FastPacketRoundTrip :
    let P := bytes [0xA0, 0xA1, 0xA2, 0xA3, 0xA4, 0xA5, 0xA6]
    let first : Frame := ⟨gnssId, bytes [0x03, 0x07, 0xA0, 0xA1, 0xA2, 0xA3, 0xA4, 0xA5]⟩
    let cont : Frame := ⟨gnssId, bytes [0x23, 0xA6, 0xFF, 0xFF, 0xFF, 0xFF, 0xFF, 0xFF]⟩
    let s : State := { State.reset with inbox := offers gnssId [(first.data, 5#64), (cont.data, 5#64)] }
    Inv s ∧ fptx gnssId 3#5 P = .ok (first :: [cont]) ∧ [cont].Perm [cont] ∧ [5#64, 5#64].length = 1 + [cont].length ∧
      steadyTimes params [5#64, 5#64] ∧ tableFull params (sweep params ([5#64, 5#64].getD 0 0#64) s.sess).length = false ∧
      s.inbox = offers gnssId (((first :: [cont]).map Frame.data).zip [5#64, 5#64]) := by
  refine ⟨tableInv_nil params, by decide, List.Perm.refl _, by decide, by simp [steadyTimes], ?_, rfl⟩
  exact room_for_one params

theorem witness_StepKeepsInvariant :
    Inv (holding session43) ∧ step ((holding session43).pushInbox .reset) = .next State.reset :=
  ⟨tableInv_one sessionOk_session43, rfl⟩

/-- Two states that differ in the bytes of a session that no frame has stored. -/
theorem witness_UnstoredBytesAreUnobservable :
    let s := (holding session43).pushInbox (.request (bytes [0x50]))
    let t := (holding { session43 with buf := bytes [0, 1, 2, 3, 4, 5] ++ List.replicate 49 0xEE#8 }).pushInbox
      (.request (bytes [0x50]))
    Inv s ∧ Inv t ∧ SameUpToFree s t ∧ s ≠ t ∧ ∃ s', step s = .next s' := by
  refine ⟨tableInv_one sessionOk_session43, tableInv_one ?_, ⟨?_, rfl, rfl, rfl⟩, by decide, ⟨_, rfl⟩⟩
  · exact { sessionOk_session43 with buf_len := by decide }
  · refine List.Forall₂.cons ⟨rfl, rfl, rfl, rfl, rfl, fun p hp => ?_⟩ .nil
    have h0 : frameOf p = 0 := by
      have h := hp.2
      by_contra hne
      obtain ⟨j, hj⟩ : ∃ j, frameOf p = j + 1 := ⟨frameOf p - 1, by omega⟩
      rw [hj] at h
      simp [session43] at h
    have : p < 6 := by unfold frameOf at h0; omega
    show (bytes [0, 1, 2, 3, 4, 5] ++ List.replicate 49 0#8)[p]? = (bytes [0, 1, 2, 3, 4, 5] ++ List.replicate 49 0xEE#8)[p]?
    rw [List.getElem?_append_left (by simpa [bytes] using this), List.getElem?_append_left (by simpa [bytes] using this)]

theorem witness_TimestampSplitsAndJoins : (0 : ℚ) ≤ 86400 := by decide +kernel

/-- A position and a GNSS message with one station; the table is empty and the frames come at one time. -/
theorem witness_MessageIsDelivered :
    messageFits (.gnss (gnssIn stationFix)) = true ∧ messageFits (.posr none none) = true ∧ Inv State.reset ∧
      lookupSession gnssId State.reset.sess = none ∧
      tableFull params (sweep params ((List.replicate 7 5#64).getD 0 0#64) State.reset.sess).length = false ∧
      (List.replicate 7 5#64).length = 7 ∧ steadyTimes params (List.replicate 7 5#64) := by
  refine ⟨by decide, rfl, tableInv_nil params, rfl, room_for_one params, by decide, ?_⟩
  simp [steadyTimes, List.replicate]

end Sys2Proof.Tests
end

section
/-! SUPPORT. Which requests the decoder accepts, read by byte offset (`30_encoding.md` R71, R73 to R80, R86). One rule says what a
sequence of reads accepts; one lemma per operand reader says what it accepts at an offset of the packet and what it answers
there; one lemma per format puts them together. -/

namespace Sys2Proof.RequestFormats

open Sys2Proof Sys2Proof.Machine Sys2Proof.Config

/-! ### The rule for a sequence of reads -/

/-- `x` answers a value with property `Q` where `legal` holds, and is refused everywhere else. -/
def AcceptsExactly {α : Type} (x : Except Reject α) (legal : Prop) (Q : α → Prop) : Prop :=
  (legal → ∃ a, x = .ok a ∧ Q a) ∧ (¬ legal → ∃ e, x = .error e)

theorem AcceptsExactly.ok {α : Type} (a : α) : AcceptsExactly (.ok a) True (· = a) :=
  ⟨fun _ => ⟨a, rfl, rfl⟩, fun h => absurd trivial h⟩

theorem AcceptsExactly.of_iff {α : Type} {x : Except Reject α} {legal legal' : Prop} {Q : α → Prop}
    (h : AcceptsExactly x legal Q) (hiff : legal ↔ legal') : AcceptsExactly x legal' Q :=
  propext hiff ▸ h

/-- A read followed by the rest of the format is accepted where both are. -/
theorem AcceptsExactly.bind {α β : Type} {x : Except Reject α} {f : α → Except Reject β} {P P' : Prop} {a : α}
    {Q : β → Prop} (hx : AcceptsExactly x P (· = a)) (hf : AcceptsExactly (f a) P' Q) :
    AcceptsExactly (x >>= f) (P ∧ P') Q := by
  by_cases hP : P
  · obtain ⟨b, hxb, rfl⟩ := hx.1 hP
    rw [hxb, except_ok_bind]
    exact hf.of_iff (by simp [hP])
  · obtain ⟨e, hxe⟩ := hx.2 hP
    rw [hxe, except_error_bind]
    exact ⟨fun h => absurd h.1 hP, fun _ => ⟨e, rfl⟩⟩

/-- The last read of an operand, from which the operand is put together. -/
theorem AcceptsExactly.last {α β : Type} {x : Except Reject α} {f : α → Except Reject β} {P : Prop} {a : α} {b : β}
    (hx : AcceptsExactly x P (· = a)) (hf : f a = .ok b) : AcceptsExactly (x >>= f) P (· = b) :=
  (hx.bind (hf ▸ .ok b)).of_iff (and_iff_left trivial)

/-- The end of a request: no byte is left and the operands are in range. -/
theorem finish_accepts (i : Instr) (p : Packet) (k : Nat) :
    AcceptsExactly (finish i (p.drop k)) (p.length ≤ k ∧ i.wellFormed = true) (·.wellFormed = true) := by
  refine ⟨fun ⟨hlen, hwf⟩ => ⟨i, ?_, hwf⟩, fun h => ?_⟩
  · rw [List.drop_eq_nil_of_le hlen, finish_nil hwf]
  · cases hx : finish i (p.drop k) with
    | error e => exact ⟨e, rfl⟩
    | ok j =>
      obtain ⟨hnil, -, hwf⟩ := finish_ok hx
      exact absurd ⟨List.drop_eq_nil_iff.mp hnil, hwf⟩ h

/-- The end of a request whose format states no range that the operand types do not say. -/
theorem finish_accepts_of_wellFormed {i : Instr} (hwf : i.wellFormed = true) (p : Packet) (k : Nat) :
    AcceptsExactly (finish i (p.drop k)) (p.length ≤ k) (·.wellFormed = true) :=
  (finish_accepts i p k).of_iff (and_iff_left hwf)

/-! ### Bytes of the packet -/

theorem memRead_lt (p : Packet) (k n : Nat) : memRead p k n < 2 ^ (8 * n) := by
  have hle : (256 : Nat) ^ ((p.drop k).take n).length ≤ 256 ^ n :=
    Nat.pow_le_pow_right (by norm_num) (List.length_take_le _ _)
  calc memRead p k n < 256 ^ ((p.drop k).take n).length := ofLe_lt _
    _ ≤ 256 ^ n := hle
    _ = 2 ^ (8 * n) := by rw [pow_mul]; rfl

theorem memRead_one (p : Packet) (k : Nat) : memRead p k 1 = byteAt p k := by
  unfold memRead byteAt
  rcases hd : p.drop k with _ | ⟨b, bs⟩
  · have hk : p.length ≤ k := List.drop_eq_nil_iff.mp hd
    simp [ofLe, List.getElem?_eq_none hk]
  · have hb : p[k]? = some b := by rw [← List.head?_drop, hd]; rfl
    simp [ofLe, List.getD_eq_getElem?_getD, hb]

theorem byteAt_le (p : Packet) (k : Nat) : byteAt p k ≤ 255 := Nat.le_of_lt_succ (p.getD k 0#8).isLt

/-! ### What each operand reader accepts at an offset, and what it answers there -/

theorem readBits_at (n w : Nat) (p : Packet) (k : Nat) :
    AcceptsExactly (readBits n w (p.drop k)) (n ≤ p.length - k ∧ memRead p k n < 2 ^ w)
      (· = (BitVec.ofNat w (memRead p k n), p.drop (k + n))) := by
  unfold readBits
  rw [List.length_drop, List.drop_drop]
  by_cases hlen : p.length - k < n
  · rw [if_pos hlen]
    exact ⟨fun h => by omega, fun _ => ⟨_, rfl⟩⟩
  · rw [if_neg hlen]
    by_cases hv : memRead p k n < 2 ^ w
    · exact ⟨fun _ => ⟨_, if_pos hv, rfl⟩, fun h => absurd ⟨by omega, hv⟩ h⟩
    · exact ⟨fun h => absurd h.2 hv, fun _ => ⟨_, if_neg hv⟩⟩

/-- An operand that fills its bytes has no bit that must be 0. -/
theorem readBits_full_at (n : Nat) {w : Nat} (hw : 8 * n ≤ w) (p : Packet) (k : Nat) :
    AcceptsExactly (readBits n w (p.drop k)) (n ≤ p.length - k)
      (· = (BitVec.ofNat w (memRead p k n), p.drop (k + n))) :=
  (readBits_at n w p k).of_iff
    (and_iff_left ((memRead_lt p k n).trans_le (Nat.pow_le_pow_right (by norm_num) hw)))

theorem readBits_one_at (w : Nat) (p : Packet) (k : Nat) :
    AcceptsExactly (readBits 1 w (p.drop k)) (1 ≤ p.length - k ∧ byteAt p k < 2 ^ w)
      (· = (BitVec.ofNat w (byteAt p k), p.drop (k + 1))) := by
  rw [← memRead_one]; exact readBits_at 1 w p k

theorem readBits_byte_at (p : Packet) (k : Nat) :
    AcceptsExactly (readBits 1 8 (p.drop k)) (1 ≤ p.length - k)
      (· = (BitVec.ofNat 8 (byteAt p k), p.drop (k + 1))) := by
  rw [← memRead_one]; exact readBits_full_at 1 le_rfl p k

theorem readNat_at (p : Packet) (k : Nat) :
    AcceptsExactly (readNat (p.drop k)) (1 ≤ p.length - k) (· = (byteAt p k, p.drop (k + 1))) := by
  have hb : (BitVec.ofNat 8 (byteAt p k)).toNat = byteAt p k := by simp [byteAt]
  exact .last (readBits_byte_at p k) (by simp only [hb])

theorem readBytes_at (n : Nat) (p : Packet) (k : Nat) :
    AcceptsExactly (readBytes n (p.drop k)) (n ≤ p.length - k) (· = ((p.drop k).take n, p.drop (k + n))) := by
  unfold readBytes
  rw [List.length_drop, List.drop_drop]
  by_cases hlen : p.length - k < n
  · exact ⟨fun h => by omega, fun _ => ⟨_, if_pos hlen⟩⟩
  · exact ⟨fun _ => ⟨_, if_neg hlen, rfl⟩, fun h => by omega⟩

/-- The truth value of the `known` byte at offset `k`. -/
def flagOf (p : Packet) (k : Nat) : Bool := BitVec.ofNat 1 (byteAt p k) == 1#1

theorem readFlag_at (p : Packet) (k : Nat) :
    AcceptsExactly (readFlag (p.drop k)) (1 ≤ p.length - k ∧ byteAt p k ≤ 1) (· = (flagOf p k, p.drop (k + 1))) :=
  .of_iff (.last (readBits_one_at 1 p k) rfl) (by omega)

/-- The `CANID` operand at offset `k`. -/
def canIdOf (p : Packet) (k : Nat) : CanId :=
  ⟨BitVec.ofNat 3 (byteAt p k), BitVec.ofNat 1 (byteAt p (k + 1)), BitVec.ofNat 1 (byteAt p (k + 2)),
    BitVec.ofNat 8 (byteAt p (k + 3)), BitVec.ofNat 8 (byteAt p (k + 4)), BitVec.ofNat 8 (byteAt p (k + 5))⟩

theorem readCanId_at (p : Packet) (k : Nat) :
    AcceptsExactly (readCanId (p.drop k)) (6 ≤ p.length - k ∧ legalCanIdAt p k)
      (· = (canIdOf p k, p.drop (k + 6))) :=
  .of_iff
    (.bind (readBits_one_at 3 p k) <| .bind (readBits_one_at 1 p (k + 1)) <| .bind (readBits_one_at 1 p (k + 2)) <|
      .bind (readBits_byte_at p (k + 3)) <| .bind (readBits_byte_at p (k + 4)) <| .last (readBits_byte_at p (k + 5)) rfl)
    (by unfold legalCanIdAt; omega)

/-- The `PHYS` operand at offset `k`. -/
def physOf (p : Packet) (k : Nat) : Phys := ⟨flagOf p k, patternAt p (k + 1)⟩

theorem readPhys_at (p : Packet) (k : Nat) :
    AcceptsExactly (readPhys (p.drop k)) (9 ≤ p.length - k ∧ byteAt p k ≤ 1) (· = (physOf p k, p.drop (k + 9))) :=
  .of_iff (.bind (readFlag_at p k) <| .last (readBits_full_at 8 le_rfl p (k + 1)) rfl) (by omega)

/-- The `RAWnOPT` operand of `n` value bytes at offset `k`. -/
def rawOf (n : Nat) (p : Packet) (k : Nat) : RawOpt (8 * n) := ⟨flagOf p k, BitVec.ofNat (8 * n) (memRead p (k + 1) n)⟩

theorem readRaw_at (n : Nat) (p : Packet) (k : Nat) :
    AcceptsExactly (readRaw n (p.drop k)) (n + 1 ≤ p.length - k ∧ byteAt p k ≤ 1)
      (· = (rawOf n p k, p.drop (k + 1 + n))) :=
  .of_iff (.bind (readFlag_at p k) <| .last (readBits_full_at n le_rfl p (k + 1)) rfl) (by omega)

/-- The `DESC` operand at offset `k`. -/
def descOf (p : Packet) (k : Nat) : Desc :=
  let flags := BitVec.ofNat 2 (byteAt p k)
  ⟨flags.getLsbD 0, flags.getLsbD 1, byteAt p (k + 1), patternAt p (k + 2), patternAt p (k + 10)⟩

theorem readDesc_at (p : Packet) (k : Nat) :
    AcceptsExactly (readDesc (p.drop k)) (18 ≤ p.length - k ∧ byteAt p k < 4) (· = (descOf p k, p.drop (k + 18))) :=
  .of_iff
    (.bind (readBits_one_at 2 p k) <| .bind (readNat_at p (k + 1)) <| .bind (readBits_full_at 8 le_rfl p (k + 2)) <|
      .last (readBits_full_at 8 le_rfl p (k + 10)) rfl)
    (by omega)

/-- The `BUF` operand at offset `k`. -/
def bufOf (p : Packet) (k : Nat) : Packet := (p.drop (k + 1)).take (byteAt p k)

theorem readBuf_at (p : Packet) (k : Nat) :
    AcceptsExactly (readBuf (p.drop k)) (1 + byteAt p k ≤ p.length - k)
      (· = (bufOf p k, p.drop (k + 1 + byteAt p k))) :=
  .of_iff (.bind (readNat_at p k) (readBytes_at (byteAt p k) p (k + 1))) (by omega)

/-- The `n` station records from offset `k` on. -/
def stationsOf (p : Packet) : Nat → Nat → List StationArg
  | 0, _ => []
  | n + 1, k => ⟨rawOf 2 p k, rawOf 2 p (k + 3)⟩ :: stationsOf p n (k + 6)

@[simp] theorem length_stationsOf (p : Packet) (n k : Nat) : (stationsOf p n k).length = n := by
  induction n generalizing k with
  | zero => rfl
  | succ n ih => simp [stationsOf, ih]

/-- The two `known` bytes of each of the `n` station records from offset `k` on are legal. -/
def legalStationsAt (p : Packet) (n k : Nat) : Prop :=
  ∀ j, j < n → byteAt p (k + 6 * j) ≤ 1 ∧ byteAt p (k + 3 + 6 * j) ≤ 1

theorem legalStationsAt_succ (p : Packet) (n k : Nat) :
    legalStationsAt p (n + 1) k ↔ (byteAt p k ≤ 1 ∧ byteAt p (k + 3) ≤ 1) ∧ legalStationsAt p n (k + 6) := by
  have hshift (j : Nat) : k + 6 * (j + 1) = k + 6 + 6 * j ∧ k + 3 + 6 * (j + 1) = k + 6 + 3 + 6 * j := by omega
  simp only [legalStationsAt, Nat.forall_lt_succ_left, hshift, Nat.mul_zero, Nat.add_zero]

theorem readStations_at (n : Nat) (p : Packet) (k : Nat) :
    AcceptsExactly (readStations n (p.drop k)) (6 * n ≤ p.length - k ∧ legalStationsAt p n k)
      (· = (stationsOf p n k, p.drop (k + 6 * n))) := by
  induction n generalizing k with
  | zero => exact (AcceptsExactly.ok _).of_iff (by simp [legalStationsAt])
  | succ n ih =>
    have hk : k + 6 * (n + 1) = k + 6 + 6 * n := by omega
    rw [hk]
    refine .of_iff (.bind (readRaw_at 2 p k) <| .bind (readRaw_at 2 p (k + 3)) <| .last (ih (k + 6)) rfl) ?_
    rw [legalStationsAt_succ]
    constructor
    · rintro ⟨⟨hl, hk⟩, ⟨hl', hk'⟩, hrest, hlegal⟩
      exact ⟨by omega, ⟨hk, hk'⟩, hlegal⟩
    · rintro ⟨hlen, ⟨hk, hk'⟩, hlegal⟩
      exact ⟨⟨by omega, hk⟩, ⟨by omega, hk'⟩, by omega, hlegal⟩

/-! ### Operand ranges -/

theorem f64Finite_iff (b : BitVec 64) : f64Finite b = true ↔ ∃ q, f64val b = .rat q := by
  by_cases hexp : f64Exp b = 0x7FF
  · by_cases hfrac : f64Frac b = 0 <;> cases hs : f64Sign b <;> simp [f64Finite, f64val, hexp, hfrac, hs]
  · simp [f64Finite, f64val, hexp]

theorem f64Rat_of_rat {b : BitVec 64} {q : ℚ} (h : f64val b = .rat q) : f64Rat b = q := by simp [f64Rat, h]

theorem f64Finite_and_pos_iff (b : BitVec 64) :
    (f64Finite b && decide (0 < f64Rat b)) = true ↔ ∃ q, f64val b = .rat q ∧ 0 < q := by
  rw [Bool.and_eq_true, decide_eq_true_iff, f64Finite_iff]
  constructor
  · rintro ⟨⟨q, hq⟩, hpos⟩
    exact ⟨q, hq, f64Rat_of_rat hq ▸ hpos⟩
  · rintro ⟨q, hq, hpos⟩
    exact ⟨⟨q, hq⟩, (f64Rat_of_rat hq).symm ▸ hpos⟩

theorem widthOk_iff (p : Packet) (k : Nat) : widthOk (byteAt p k) = true ↔ legalWidthAt p k := by
  simp [widthOk, legalWidthAt]

/-- The range of a `DESC` and its reserved flag bits together are R71's condition. -/
theorem legalDescAt_iff (p : Packet) (k : Nat) :
    legalDescAt p k ↔ byteAt p k < 4 ∧ descOk (descOf p k) = true := by
  rw [descOk, Bool.and_eq_true, Bool.and_eq_true, f64Finite_and_pos_iff, f64Finite_iff, and_assoc]
  exact and_congr_right fun _ => and_congr_left fun _ => (widthOk_iff p (k + 1)).symm

theorem descOf_hasSentinel (p : Packet) (k : Nat) : (descOf p k).hasSentinel = true ↔ byteAt p k / 2 % 2 = 1 := by
  change (BitVec.ofNat 2 (byteAt p k)).getLsbD 1 = true ↔ _
  simp [BitVec.getLsbD_ofNat, Nat.testBit_eq_decide_div_mod_eq, -BitVec.getLsbD_eq_getElem]

theorem flagOf_eq_true_iff {p : Packet} {k : Nat} (h : byteAt p k ≤ 1) : flagOf p k = true ↔ byteAt p k = 1 := by
  unfold flagOf
  generalize byteAt p k = n at h ⊢
  interval_cases n <;> decide

/-- The value is known exactly when its `known` byte is 1 and its pattern is no NaN (R72). -/
theorem physIn_isSome_iff (v : Phys) : (physIn v).isSome = true ↔ v.known = true ∧ f64val v.bits ≠ .nan := by
  unfold physIn
  cases v.known
  · simp
  · cases f64val v.bits <;> simp

/-- R86 (f) by byte offset. -/
theorem fencKnown_iff {p : Packet} {k l : Nat} (h : byteAt p l ≤ 1) :
    fencKnown (descOf p k) (physOf p l) = true ↔
      byteAt p k / 2 % 2 = 1 ∨ (byteAt p l = 1 ∧ f64val (patternAt p (l + 1)) ≠ .nan) := by
  rw [fencKnown, Bool.or_eq_true, descOf_hasSentinel, physIn_isSome_iff, physOf, flagOf_eq_true_iff h]

theorem rawFits_iff (width : Nat) (p : Packet) (k : Nat) :
    rawFits width (BitVec.ofNat 64 (memRead p k 8)) = true ↔ memRead p k 8 < 2 ^ width := by
  rw [rawFits, decide_eq_true_iff, BitVec.toNat_ofNat, Nat.mod_eq_of_lt (memRead_lt p k 8)]

/-- A buffer that lies inside the packet has the length its length byte says. -/
theorem bufOk_bufOf_iff {p : Packet} {k : Nat} (h : 1 + byteAt p k ≤ p.length - k) :
    bufOk (bufOf p k) = true ↔ byteAt p k ≤ 55 := by
  have hlen : (bufOf p k).length = byteAt p k := by
    rw [bufOf, List.length_take, List.length_drop]; omega
  rw [bufOk, decide_eq_true_iff, hlen]

/-! ### The formats -/

theorem readIdbuild_accepts (p : Packet) :
    AcceptsExactly (readIdbuild (p.drop 1)) (7 = p.length ∧ memRead p 1 3 < 2 ^ 17 ∧ byteAt p 4 ≤ 7)
      (·.wellFormed = true) :=
  .of_iff
    (.bind (readBits_at 3 17 p 1) <| .bind (readBits_one_at 3 p 4) <| .bind (readBits_byte_at p 5) <|
      .bind (readBits_byte_at p 6) <| finish_accepts_of_wellFormed rfl p 7)
    (by omega)

theorem readFormatC_accepts {make : CanId → Instr} (hwf : ∀ c, (make c).wellFormed = true) (p : Packet) :
    AcceptsExactly (readFormatC make (p.drop 1)) (7 = p.length ∧ legalCanIdAt p 1) (·.wellFormed = true) :=
  .of_iff (.bind (readCanId_at p 1) <| finish_accepts_of_wellFormed (hwf _) p 7) (by grind)

theorem readIdparse_accepts (p : Packet) :
    AcceptsExactly (readIdparse (p.drop 1)) (5 = p.length ∧ memRead p 1 4 < 2 ^ 29) (·.wellFormed = true) :=
  .of_iff (.bind (readBits_at 4 29 p 1) <| finish_accepts_of_wellFormed rfl p 5) (by omega)

theorem readFenc_accepts (p : Packet) :
    AcceptsExactly (readFenc (p.drop 1))
      (28 = p.length ∧ legalDescAt p 1 ∧ byteAt p 19 ≤ 1 ∧
        (byteAt p 1 / 2 % 2 = 1 ∨ (byteAt p 19 = 1 ∧ f64val (patternAt p 20) ≠ .nan)))
      (·.wellFormed = true) := by
  refine .of_iff (.bind (readDesc_at p 1) <| .bind (readPhys_at p 19) <| finish_accepts _ p 28) ?_
  rw [Instr.wellFormed, Bool.and_eq_true, legalDescAt_iff]
  by_cases hknown : byteAt p 19 ≤ 1
  · rw [fencKnown_iff hknown]
    grind
  · grind

theorem readFdec_accepts (p : Packet) :
    AcceptsExactly (readFdec (p.drop 1)) (27 = p.length ∧ legalDescAt p 1 ∧ memRead p 19 8 < 2 ^ byteAt p 2)
      (·.wellFormed = true) := by
  refine .of_iff (.bind (readDesc_at p 1) <| .bind (readBits_full_at 8 le_rfl p 19) <| finish_accepts _ p 27) ?_
  rw [Instr.wellFormed, Bool.and_eq_true, legalDescAt_iff, rawFits_iff, descOf]
  grind

theorem readBins_accepts (p : Packet) :
    AcceptsExactly (readBins (p.drop 1))
      (13 + byteAt p 12 = p.length ∧ legalWidthAt p 3 ∧ memRead p 4 8 < 2 ^ byteAt p 3 ∧ byteAt p 12 ≤ 55)
      (·.wellFormed = true) := by
  refine .of_iff (.bind (readBits_full_at 2 le_rfl p 1) <| .bind (readNat_at p 3) <|
    .bind (readBits_full_at 8 le_rfl p 4) <| .bind (readBuf_at p 12) <| finish_accepts _ p (13 + byteAt p 12)) ?_
  rw [Instr.wellFormed, Bool.and_eq_true, Bool.and_eq_true, widthOk_iff, rawFits_iff]
  by_cases hin : 1 + byteAt p 12 ≤ p.length - 12
  · rw [bufOk_bufOf_iff hin]
    grind
  · grind

theorem readBext_accepts (p : Packet) :
    AcceptsExactly (readBext (p.drop 1)) (5 + byteAt p 4 = p.length ∧ legalWidthAt p 3 ∧ byteAt p 4 ≤ 55)
      (·.wellFormed = true) := by
  refine .of_iff (.bind (readBits_full_at 2 le_rfl p 1) <| .bind (readNat_at p 3) <| .bind (readBuf_at p 4) <|
    finish_accepts _ p (5 + byteAt p 4)) ?_
  rw [Instr.wellFormed, Bool.and_eq_true, widthOk_iff]
  by_cases hin : 1 + byteAt p 4 ≤ p.length - 4
  · rw [bufOk_bufOf_iff hin]
    grind
  · grind

theorem readTwoPhys_accepts {make : Phys → Phys → Instr} (hwf : ∀ a b, (make a b).wellFormed = true) (p : Packet) :
    AcceptsExactly (readTwoPhys make (p.drop 1)) (19 = p.length ∧ byteAt p 1 ≤ 1 ∧ byteAt p 10 ≤ 1)
      (·.wellFormed = true) :=
  .of_iff (.bind (readPhys_at p 1) <| .bind (readPhys_at p 10) <| finish_accepts_of_wellFormed (hwf _ _) p 19) (by omega)

theorem readCogsog_accepts (p : Packet) :
    AcceptsExactly (readCogsog (p.drop 1)) (21 = p.length ∧ byteAt p 3 ≤ 1 ∧ byteAt p 12 ≤ 1) (·.wellFormed = true) :=
  .of_iff
    (.bind (readBits_byte_at p 1) <| .bind (readBits_byte_at p 2) <| .bind (readPhys_at p 3) <|
      .bind (readPhys_at p 12) <| finish_accepts_of_wellFormed rfl p 21)
    (by omega)

/-- The `PENC.GNSS` operands. -/
def gnssOf (p : Packet) : GnssArgs :=
  { sid := BitVec.ofNat 8 (byteAt p 1), date := rawOf 2 p 2, tod := physOf p 5, lat := physOf p 14, lon := physOf p 23,
    alt := physOf p 32, fixtype := BitVec.ofNat 4 (byteAt p 41), method := BitVec.ofNat 4 (byteAt p 42),
    integ := BitVec.ofNat 8 (byteAt p 43), numsv := rawOf 1 p 44, hdop := rawOf 2 p 46, pdop := rawOf 2 p 49,
    geoid := rawOf 4 p 52, stations := stationsOf p (byteAt p 57) 58 }

/-- The operands of `PENC.GNSS` in the fixed part of its request have legal values. -/
def legalFixAt (p : Packet) : Prop :=
  (byteAt p 2 ≤ 1 ∧ byteAt p 5 ≤ 1 ∧ byteAt p 14 ≤ 1 ∧ byteAt p 23 ≤ 1 ∧ byteAt p 32 ≤ 1) ∧
    (byteAt p 41 ≤ 15 ∧ byteAt p 42 ≤ 15) ∧
    (byteAt p 44 ≤ 1 ∧ byteAt p 46 ≤ 1 ∧ byteAt p 49 ≤ 1 ∧ byteAt p 52 ≤ 1)

theorem readGnss_at (p : Packet) :
    AcceptsExactly (readGnss (p.drop 1))
      ((58 + 6 * byteAt p 57 ≤ p.length ∧ legalFixAt p) ∧ legalStationsAt p (byteAt p 57) 58)
      (· = (gnssOf p, p.drop (58 + 6 * byteAt p 57))) := by
  refine .of_iff
    (.bind (readBits_byte_at p 1) <| .bind (readRaw_at 2 p 2) <| .bind (readPhys_at p 5) <| .bind (readPhys_at p 14) <|
      .bind (readPhys_at p 23) <| .bind (readPhys_at p 32) <| .bind (readBits_one_at 4 p 41) <|
      .bind (readBits_one_at 4 p 42) <| .bind (readBits_byte_at p 43) <| .bind (readRaw_at 1 p 44) <|
      .bind (readRaw_at 2 p 46) <| .bind (readRaw_at 2 p 49) <| .bind (readRaw_at 4 p 52) <|
      .bind (readNat_at p 57) <| .last (readStations_at (byteAt p 57) p 58) rfl) ?_
  by_cases hst : legalStationsAt p (byteAt p 57) 58
  · simp only [hst, and_true, legalFixAt]
    omega
  · simp only [hst, and_false]

theorem readPencGnss_accepts (p : Packet) :
    AcceptsExactly (readPencGnss (p.drop 1))
      (58 + 6 * byteAt p 57 = p.length ∧ legalFixAt p ∧ legalStationsAt p (byteAt p 57) 58)
      (·.wellFormed = true) := by
  have hcount : byteAt p 57 ≤ 255 := byteAt_le p 57
  have hwf : (Instr.pencGnss (gnssOf p)).wellFormed = true := by simpa [Instr.wellFormed, countOk, gnssOf]
  exact .of_iff (.bind (readGnss_at p) <| finish_accepts_of_wellFormed hwf p (58 + 6 * byteAt p 57)) (by grind)

theorem readVds_accepts (p : Packet) :
    AcceptsExactly (readVds (p.drop 1))
      (25 = p.length ∧ byteAt p 1 ≤ 1 ∧ byteAt p 10 ≤ 1 ∧ byteAt p 19 ≤ 1 ∧ byteAt p 22 ≤ 1) (·.wellFormed = true) :=
  .of_iff
    (.bind (readPhys_at p 1) <| .bind (readPhys_at p 10) <| .bind (readRaw_at 2 p 19) <| .bind (readRaw_at 2 p 22) <|
      finish_accepts_of_wellFormed rfl p 25)
    (by omega)

theorem readPayload_accepts {make : Packet → Instr} (hwf : ∀ b, (make b).wellFormed = bufOk b) (p : Packet) :
    AcceptsExactly (readPayload make (p.drop 1)) (2 + byteAt p 1 = p.length ∧ byteAt p 1 ≤ 55)
      (·.wellFormed = true) := by
  refine .of_iff (.bind (readBuf_at p 1) <| finish_accepts _ p (2 + byteAt p 1)) ?_
  rw [hwf]
  by_cases hin : 1 + byteAt p 1 ≤ p.length - 1
  · rw [bufOk_bufOf_iff hin]
    omega
  · omega

theorem readFptx_accepts (p : Packet) :
    AcceptsExactly (readFptx (p.drop 1)) (7 + byteAt p 6 = p.length ∧ memRead p 1 4 < 2 ^ 29 ∧ byteAt p 5 ≤ 31)
      (·.wellFormed = true) := by
  have hlen : (bufOf p 6).length ≤ 255 := (List.length_take_le _ _).trans (byteAt_le p 6)
  have hwf (id : Ident) (seq : SeqCounter) : (Instr.fptx id seq (bufOf p 6)).wellFormed = true := decide_eq_true hlen
  exact .of_iff
    (.bind (readBits_at 4 29 p 1) <| .bind (readBits_one_at 5 p 5) <| .bind (readBuf_at p 6) <|
      finish_accepts_of_wellFormed (hwf _ _) p (7 + byteAt p 6))
    (by omega)

theorem readFprx_accepts (p : Packet) :
    AcceptsExactly (readFprx (p.drop 1)) (22 = p.length ∧ memRead p 1 4 < 2 ^ 29 ∧ byteAt p 5 ≤ 8)
      (·.wellFormed = true) := by
  refine .of_iff (.bind (readBits_at 4 29 p 1) <| .bind (readNat_at p 5) <| .bind (readBytes_at 8 p 6) <|
    .bind (readBits_full_at 8 le_rfl p 14) <| finish_accepts _ p 22) ?_
  simp only [Instr.wellFormed, frameOk, Bool.and_eq_true, decide_eq_true_iff, List.length_take, List.length_drop]
  omega

theorem readFptick_accepts (p : Packet) :
    AcceptsExactly (readFptick (p.drop 1)) (9 = p.length) (·.wellFormed = true) :=
  .of_iff (.bind (readBits_full_at 8 le_rfl p 1) <| finish_accepts_of_wellFormed rfl p 9) (by omega)

theorem finish_rdcnt_accepts {p : Packet} (hp : p ≠ []) :
    AcceptsExactly (finish .rdcnt (p.drop 1)) (1 = p.length) (·.wellFormed = true) := by
  have hpos : 0 < p.length := List.length_pos_of_ne_nil hp
  exact .of_iff (finish_accepts_of_wellFormed rfl p 1) (by omega)

/-! ### The decoder and the step -/

/-- R86: the decoder accepts the requests that are legal by byte offset, and only those. One case for each row of the opcode
table, in its order, and a last one for the bytes that are no opcode. -/
theorem decode_accepts_legal (p : Packet) : AcceptsExactly (decode p) (LegalRequest p) (·.wellFormed = true) := by
  by_cases hp : p = []
  · subst hp
    exact ⟨fun h => absurd rfl h.1, fun _ => ⟨_, rfl⟩⟩
  have hdec : decode p = decodeOperands (p.getD 0 0#8) (p.drop 1) := by
    cases p with
    | nil => exact absurd rfl hp
    | cons op bs => rfl
  have hop : (p.getD 0 0#8).toNat = byteAt p 0 := rfl
  rw [hdec]
  refine AcceptsExactly.of_iff ?_ (and_iff_right hp).symm
  unfold decodeOperands requestLength legalOperands
  rw [hop]
  generalize byteAt p 0 = op
  split
  all_goals simp only [Option.some.injEq, and_true, reduceCtorEq, false_and]
  · exact readIdbuild_accepts p
  · exact readFormatC_accepts (fun _ => rfl) p
  · exact readIdparse_accepts p
  · exact readFormatC_accepts (fun _ => rfl) p
  · exact readFenc_accepts p
  · exact readFdec_accepts p
  · exact readBins_accepts p
  · exact readBext_accepts p
  · exact readTwoPhys_accepts (fun _ _ => rfl) p
  · exact readCogsog_accepts p
  · exact (readPencGnss_accepts p).of_iff (by simp only [legalFixAt, legalStationsAt, and_assoc])
  · exact readTwoPhys_accepts (fun _ _ => rfl) p
  · exact readVds_accepts p
  · exact readPayload_accepts (fun _ => rfl) p
  · exact readPayload_accepts (fun _ => rfl) p
  · exact readPayload_accepts (fun _ => rfl) p
  · exact readPayload_accepts (fun _ => rfl) p
  · exact readPayload_accepts (fun _ => rfl) p
  · exact readFptx_accepts p
  · exact readFprx_accepts p
  · exact readFptick_accepts p
  · exact finish_rdcnt_accepts hp
  · exact ⟨False.elim, fun _ => ⟨_, rfl⟩⟩

/-- A request that spells no command is answered `IllegalCommand` before anything runs. -/
theorem step_of_decode_error {s : State} {p : Packet} {rest : List HostAction} {e : Reject}
    (hin : s.inbox = .request p :: rest) (hdec : decode p = .error e) :
    step s = .next ({ s with inbox := rest }.respond [0x7F#8]) := by
  simp only [step, hin, hdec]
  rw [State.raise_eq_respond, State.popInbox, hin]
  rfl

end Sys2Proof.RequestFormats

/-- Settles O3: the decoder accepts exactly the legal requests (`decode_accepts_legal`), and the step answers what it
refuses with `IllegalCommand`. -/
theorem illegalRequestsExactly : Obligations.IllegalRequestsExactly := by
  intro p
  obtain ⟨haccept, hrefuse⟩ := Sys2Proof.RequestFormats.decode_accepts_legal p
  refine ⟨haccept, fun hillegal s rest hin => ?_⟩
  obtain ⟨e, hdec⟩ := hrefuse hillegal
  exact Sys2Proof.RequestFormats.step_of_decode_error hin hdec

end

section
/-! SUPPORT. The CAN identifier codec (`40_can_identifier.md` R100 to R108) in arithmetic: every field as a quotient of the word
it is cut from, the packed identifier as the weighted sum of its fields, and one equation per branch of `idbuild` and of
`idpgn`. -/

namespace Sys2Proof.Identifier

open Sys2Proof Sys2Proof.Machine Sys2Proof.Config

/-! ### Fields of a word -/

/-- A bit field is a quotient and a remainder. -/
theorem toNat_extractLsb'_div {w : Nat} (x : BitVec w) (start len : Nat) :
    (x.extractLsb' start len).toNat = x.toNat / 2 ^ start % 2 ^ len := by
  rw [BitVec.extractLsb'_toNat, Nat.shiftRight_eq_div_pow]

/-- A bit field is a quotient, cut to the width of the field. -/
theorem extractLsb'_eq_ofNat {w : Nat} (x : BitVec w) (start len : Nat) :
    x.extractLsb' start len = BitVec.ofNat len (x.toNat / 2 ^ start) := by
  rw [BitVec.extractLsb', Nat.shiftRight_eq_div_pow]

theorem extractLsb'_eq_ofNat_mod {w : Nat} (x : BitVec w) (start len : Nat) :
    x.extractLsb' start len = BitVec.ofNat len (x.toNat / 2 ^ start % 2 ^ len) := by
  rw [← toNat_extractLsb'_div, BitVec.ofNat_toNat, BitVec.setWidth_eq]

/-- `|` of two fields, the second of them just below the first, is one field. -/
theorem shiftLeft_or_shiftLeft {w m n high low : Nat} (x : BitVec m) (y : BitVec n) (h : high = n + low) :
    x.zeroExtend w <<< high ||| y.zeroExtend w <<< low = (x ++ y).zeroExtend w <<< low := by
  apply BitVec.eq_of_getLsbD_eq
  intro i hi
  simp only [BitVec.getLsbD_or, BitVec.getLsbD_shiftLeft, BitVec.truncate_eq_setWidth, BitVec.getLsbD_setWidth,
    BitVec.getLsbD_append]
  grind

theorem shiftLeft_or_zeroExtend {w m n : Nat} (x : BitVec m) (y : BitVec n) :
    x.zeroExtend w <<< n ||| y.zeroExtend w = (x ++ y).zeroExtend w := by
  simpa only [BitVec.shiftLeft_zero] using shiftLeft_or_shiftLeft (w := w) x y (Nat.add_zero n).symm

/-- Two words side by side are a weighted sum. -/
theorem toNat_append_add {m n : Nat} (x : BitVec m) (y : BitVec n) :
    (x ++ y).toNat = x.toNat * 2 ^ n + y.toNat := by
  rw [BitVec.toNat_append, ← Nat.shiftLeft_add_eq_or_of_lt y.isLt, Nat.shiftLeft_eq]

/-! ### The packed form (R103, R104) -/

/-- The six fields tile the 29 bits. -/
theorem idpack_eq_append (c : CanId) :
    idpack c = c.priority ++ c.reservedBit ++ c.dataPage ++ c.pduFormat ++ c.pduSpecific ++ c.sourceAddress := by
  rw [idpack, shiftLeft_or_shiftLeft _ _ (by rfl), shiftLeft_or_shiftLeft _ _ (by rfl), shiftLeft_or_shiftLeft _ _ (by rfl),
    shiftLeft_or_shiftLeft _ _ (by rfl), shiftLeft_or_zeroExtend]
  exact BitVec.setWidth_eq _

theorem toNat_idpack (c : CanId) :
    (idpack c).toNat = c.priority.toNat * 2 ^ 26 + c.reservedBit.toNat * 2 ^ 25 + c.dataPage.toNat * 2 ^ 24 +
      c.pduFormat.toNat * 2 ^ 16 + c.pduSpecific.toNat * 2 ^ 8 + c.sourceAddress.toNat := by
  rw [idpack_eq_append]
  simp only [toNat_append_add]
  ring

theorem idparse_idpack (c : CanId) : idparse (idpack c) = c := by
  obtain ⟨priority, reservedBit, dataPage, pduFormat, pduSpecific, sourceAddress⟩ := c
  simp only [idparse, CanId.mk.injEq, ← BitVec.toNat_inj, toNat_extractLsb'_div, toNat_idpack]
  omega

theorem idpack_idparse (raw : Ident) : idpack (idparse raw) = raw := by
  apply BitVec.eq_of_toNat_eq
  simp only [toNat_idpack, idparse, toNat_extractLsb'_div]
  omega

/-! ### The two kinds of PGN (R100, R102, R105) -/

theorem isPdu2_eq_true_iff (pf : Byte) : isPdu2 pf = true ↔ 240 ≤ pf.toNat := decide_eq_true_iff

theorem isPdu2_eq_false_iff (pf : Byte) : isPdu2 pf = false ↔ pf.toNat < 240 := by
  rw [← Bool.not_eq_true, isPdu2_eq_true_iff, Nat.not_le]

/-- The PDU format byte of a PGN. -/
theorem toNat_pduFormat (pgn : Pgn) : (pgn.extractLsb' 8 8).toNat = pgn.toNat / 256 % 256 :=
  toNat_extractLsb'_div pgn 8 8

/-- The low byte of a PGN. -/
theorem lowByte_eq (pgn : Pgn) : pgn.extractLsb' 0 8 = BitVec.ofNat 8 (pgn.toNat % 256) := by
  rw [extractLsb'_eq_ofNat_mod, pow_zero, Nat.div_one]
  rfl

/-- The identifier `IDBUILD` builds, with the byte that stands in `pdu_specific`. -/
def builtId (pgn : Pgn) (priority : BitVec 3) (sa ps : Byte) : CanId :=
  { priority := priority, reservedBit := 0#1, dataPage := pgn.extractLsb' 16 1, pduFormat := pgn.extractLsb' 8 8,
    pduSpecific := ps, sourceAddress := sa }

section
variable {pgn : Pgn} (priority : BitVec 3) (sa : Byte)

theorem idbuild_pdu1 (h : pgn.toNat / 256 % 256 < 240) (da : Byte) :
    idbuild pgn priority sa da = .ok (builtId pgn priority sa da) := by
  have hpf : isPdu2 (pgn.extractLsb' 8 8) = false := by rwa [isPdu2_eq_false_iff, toNat_pduFormat]
  simp [idbuild, hpf, builtId]

theorem idbuild_pdu2 (h : 240 ≤ pgn.toNat / 256 % 256) :
    idbuild pgn priority sa 0xFF#8 = .ok (builtId pgn priority sa (pgn.extractLsb' 0 8)) := by
  have hpf : isPdu2 (pgn.extractLsb' 8 8) = true := by rwa [isPdu2_eq_true_iff, toNat_pduFormat]
  simp [idbuild, hpf, builtId]

theorem idbuild_pdu2_of_ne_broadcast (h : 240 ≤ pgn.toNat / 256 % 256) {da : Byte} (hda : da ≠ 0xFF#8) :
    idbuild pgn priority sa da = .error .invalidAddressing := by
  have hpf : isPdu2 (pgn.extractLsb' 8 8) = true := by rwa [isPdu2_eq_true_iff, toNat_pduFormat]
  simp [idbuild, hpf, hda]

end

/-- The PGN of an identifier, with the byte that stands in its low bits. -/
def pgnOf (c : CanId) (low : Byte) : Pgn := c.dataPage ++ c.pduFormat ++ low

theorem toNat_pgnOf (c : CanId) (low : Byte) :
    (pgnOf c low).toNat = c.dataPage.toNat * 65536 + c.pduFormat.toNat * 256 + low.toNat := by
  simp only [pgnOf, toNat_append_add]
  ring

/-- The shifted fields of R105 are the fields side by side. -/
theorem shiftLeft_or_eq_pgnOf (c : CanId) (low : Byte) :
    c.dataPage.zeroExtend 17 <<< 16 ||| c.pduFormat.zeroExtend 17 <<< 8 ||| low.zeroExtend 17 = pgnOf c low := by
  rw [shiftLeft_or_shiftLeft _ _ (by rfl), shiftLeft_or_zeroExtend]
  exact BitVec.setWidth_eq _

theorem idpgn_pdu1 {c : CanId} (h : c.pduFormat.toNat < 240) : idpgn c = (pgnOf c 0#8, c.pduSpecific) := by
  simp [idpgn, (isPdu2_eq_false_iff _).mpr h, ← shiftLeft_or_eq_pgnOf]

theorem idpgn_pdu2 {c : CanId} (h : 240 ≤ c.pduFormat.toNat) : idpgn c = (pgnOf c c.pduSpecific, 0xFF#8) := by
  simp [idpgn, (isPdu2_eq_true_iff _).mpr h, ← shiftLeft_or_eq_pgnOf]

/-- R106 (d): the three fields of a PGN tile its 17 bits. -/
theorem idpgn_builtId_pdu2 {pgn : Pgn} (priority : BitVec 3) (sa : Byte) (h : 240 ≤ pgn.toNat / 256 % 256) :
    idpgn (builtId pgn priority sa (pgn.extractLsb' 0 8)) = (pgn, 0xFF#8) := by
  rw [idpgn_pdu2 (by rwa [builtId, toNat_pduFormat])]
  congr 1
  apply BitVec.eq_of_toNat_eq
  simp only [toNat_pgnOf, builtId, toNat_extractLsb'_div]
  omega

/-- R106 (e) and (f): the destination stands where the low byte of a PDU1 PGN was, and that byte comes back as 0. -/
theorem idpgn_builtId_pdu1 {pgn : Pgn} (priority : BitVec 3) (sa da : Byte) (h : pgn.toNat / 256 % 256 < 240) :
    idpgn (builtId pgn priority sa da) = (BitVec.ofNat 17 (pgn.toNat - pgn.toNat % 256), da) := by
  rw [idpgn_pdu1 (by rwa [builtId, toNat_pduFormat])]
  congr 1
  apply BitVec.eq_of_toNat_eq
  simp only [toNat_pgnOf, builtId, toNat_extractLsb'_div, BitVec.toNat_ofNat]
  omega

/-! ### The four commands: one response, and nothing else -/

section
variable (s : State)

theorem exec_idbuild (pgn : Pgn) (priority : BitVec 3) (sa da : Byte) :
    exec (.idbuild pgn priority sa da) s =
      .next (s.respond (answerPacket ((idbuild pgn priority sa da).map canIdOut))) :=
  congrArg Host.Outcome.next (s.answer_eq_respond _)

theorem exec_idbuild_ok {pgn : Pgn} {priority : BitVec 3} {sa da : Byte} {c : CanId}
    (h : idbuild pgn priority sa da = .ok c) :
    exec (.idbuild pgn priority sa da) s = .next (s.respond (0x00#8 :: canIdOut c)) := by
  rw [exec_idbuild, h]
  rfl

theorem exec_idbuild_error {pgn : Pgn} {priority : BitVec 3} {sa da : Byte} {st : Status}
    (h : idbuild pgn priority sa da = .error st) :
    exec (.idbuild pgn priority sa da) s = .next (s.respond [statusCode st]) := by
  rw [exec_idbuild, h]
  rfl

theorem exec_idpack (c : CanId) : exec (.idpack c) s = .next (s.respond (0x00#8 :: leBytes 4 (idpack c).toNat)) := rfl

theorem exec_idparse (raw : Ident) : exec (.idparse raw) s = .next (s.respond (0x00#8 :: canIdOut (idparse raw))) := rfl

theorem exec_idpgn (c : CanId) :
    exec (.idpgn c) s = .next (s.respond (0x00#8 :: (leBytes 3 (idpgn c).1.toNat ++ [(idpgn c).2]))) := rfl

end

/-- A `CANID` result, byte by byte. -/
theorem canIdOut_eq (c : CanId) :
    canIdOut c = [BitVec.ofNat 8 c.priority.toNat, BitVec.ofNat 8 c.reservedBit.toNat, BitVec.ofNat 8 c.dataPage.toNat,
      c.pduFormat, c.pduSpecific, c.sourceAddress] := rfl

/-- The identifier of R102, with the fields of its PGN by division. -/
theorem canIdOut_builtId (pgn : Pgn) (priority : BitVec 3) (sa ps : Byte) :
    canIdOut (builtId pgn priority sa ps) = [BitVec.ofNat 8 priority.toNat, 0x00#8, BitVec.ofNat 8 (pgn.toNat / 65536),
      BitVec.ofNat 8 (pgn.toNat / 256 % 256), ps, sa] := by
  have hpage : (pgn.extractLsb' 16 1).toNat = pgn.toNat / 65536 := by rw [toNat_extractLsb'_div]; omega
  have hformat : pgn.extractLsb' 8 8 = BitVec.ofNat 8 (pgn.toNat / 256 % 256) :=
    extractLsb'_eq_ofNat_mod pgn 8 8
  rw [canIdOut_eq, builtId, hpage, hformat]
  rfl

/-- The identifier of R104, with its fields by division. -/
theorem canIdOut_idparse (raw : Ident) :
    canIdOut (idparse raw) = [BitVec.ofNat 8 (raw.toNat / 2 ^ 26), BitVec.ofNat 8 (raw.toNat / 2 ^ 25 % 2),
      BitVec.ofNat 8 (raw.toNat / 2 ^ 24 % 2), BitVec.ofNat 8 (raw.toNat / 2 ^ 16), BitVec.ofNat 8 (raw.toNat / 2 ^ 8),
      BitVec.ofNat 8 raw.toNat] := by
  have hpriority : (raw.extractLsb' 26 3).toNat = raw.toNat / 2 ^ 26 := by rw [toNat_extractLsb'_div]; omega
  rw [canIdOut_eq, idparse, hpriority]
  simp only [extractLsb'_eq_ofNat, BitVec.toNat_ofNat, pow_zero, Nat.div_one, pow_one]

end Sys2Proof.Identifier

open Sys2Proof Sys2Proof.Machine Sys2Proof.Identifier

/-- Settles O13: the three branches of `idbuild`. -/
theorem idbuildCompletes : Obligations.IdbuildCompletes := by
  intro pgn priority sa da s
  refine ⟨fun hpdu1 => ?_, fun hpdu2 hda => ?_, fun hpdu2 hda => ?_⟩
  · rw [exec_idbuild_ok s (idbuild_pdu1 priority sa hpdu1 da), canIdOut_builtId]
  · subst hda
    rw [exec_idbuild_ok s (idbuild_pdu2 priority sa hpdu2), canIdOut_builtId, lowByte_eq]
  · exact exec_idbuild_error s (idbuild_pdu2_of_ne_broadcast priority sa hpdu2 hda)

/-- Settles O14: the fields do not overlap, so `|` is `+` (`toNat_idpack`). -/
theorem idpackCompletes : Obligations.IdpackCompletes := by
  intro c s
  rw [exec_idpack, toNat_idpack]

/-- Settles O16: the two branches of `idpgn`. -/
theorem idpgnCompletes : Obligations.IdpgnCompletes := by
  intro c s
  rw [exec_idpgn]
  split
  next hpdu2 => rw [idpgn_pdu2 hpdu2, toNat_pgnOf]
  next hpdu1 => rw [idpgn_pdu1 (Nat.not_le.mp hpdu1), toNat_pgnOf, BitVec.toNat_zero, Nat.add_zero]

/-- Settles O17: (a) and (b) are that the fields tile the identifier, (c) is (a), (d) to (f) are the branches of `idbuild` and
`idpgn`. -/
theorem identifierRoundTrips : Obligations.IdentifierRoundTrips := by
  refine ⟨idparse_idpack, idpack_idparse, fun _ _ _ _ c _ => idparse_idpack c, fun pgn priority sa hpdu2 => ?_,
    fun pgn priority sa da hpdu1 hlow => ?_, fun pgn priority sa da hpdu1 _ => ?_⟩
  · exact ⟨_, idbuild_pdu2 priority sa hpdu2, idpgn_builtId_pdu2 priority sa hpdu2⟩
  · refine ⟨_, idbuild_pdu1 priority sa hpdu1 da, ?_⟩
    rw [idpgn_builtId_pdu1 priority sa da hpdu1, hlow, Nat.sub_zero, BitVec.ofNat_toNat, BitVec.setWidth_eq]
  · exact ⟨_, idbuild_pdu1 priority sa hpdu1 da, idpgn_builtId_pdu1 priority sa da hpdu1⟩

/-- Settles O15: each field is a quotient of the word. -/
theorem idparseCompletes : Obligations.IdparseCompletes := by
  intro raw s
  rw [exec_idparse, canIdOut_idparse]

end

section
/-! SUPPORT. Rounding (`00_scope.md` R12): `round` answers one of the two integers around its argument, never further away than one
half; everything else it is asked here follows from that and from what it does half way. -/

namespace Sys2Proof.Rounding

open Sys2Proof.Machine Sys2Proof.Config

/-- The two answers that `round` has to choose from, and when it may give each. -/
theorem roundTo_cases (t : RoundTies) (q : ℚ) :
    (roundTo t q = ⌊q⌋ ∧ q - ⌊q⌋ ≤ 1 / 2) ∨ (roundTo t q = ⌊q⌋ + 1 ∧ 1 / 2 ≤ q - ⌊q⌋) := by
  rcases lt_trichotomy (q - ⌊q⌋) (1 / 2) with hlt | htie | hgt
  · exact .inl ⟨by simp only [roundTo, if_pos hlt], hlt.le⟩
  · have hmid : roundTo t q = ⌊q⌋ ∨ roundTo t q = ⌊q⌋ + 1 := by
      simp only [roundTo, htie, lt_irrefl, if_false]
      cases t <;> grind
    exact hmid.imp (⟨·, htie.le⟩) (⟨·, htie.ge⟩)
  · exact .inr ⟨by simp only [roundTo, if_neg hgt.not_gt, if_pos hgt], hgt.le⟩

theorem abs_roundTo_sub_le (t : RoundTies) (q : ℚ) : |(roundTo t q : ℚ) - q| ≤ 1 / 2 := by
  have hfloor := Int.floor_le q
  have hnext := Int.lt_floor_add_one q
  rw [abs_le]
  rcases roundTo_cases t q with ⟨hr, hside⟩ | ⟨hr, hside⟩
  · rw [hr]
    constructor <;> linarith
  · rw [hr, Int.cast_add, Int.cast_one]
    constructor <;> linarith

/-- No other integer is as near as one that is nearer than one half. -/
theorem roundTo_eq_of_abs_sub_lt (t : RoundTies) {q : ℚ} {k : Int} (h : |(k : ℚ) - q| < 1 / 2) : roundTo t q = k := by
  have hdist : |((roundTo t q - k : Int) : ℚ)| < 1 := by
    calc |((roundTo t q - k : Int) : ℚ)|
      _ = |((roundTo t q : ℚ) - q) - ((k : ℚ) - q)| := by rw [Int.cast_sub, sub_sub_sub_cancel_right]
      _ ≤ |(roundTo t q : ℚ) - q| + |(k : ℚ) - q| := abs_sub _ _
      _ < 1 / 2 + 1 / 2 := add_lt_add_of_le_of_lt (abs_roundTo_sub_le t q) h
      _ = 1 := add_halves 1
  rw [← Int.cast_abs] at hdist
  have hzero : |roundTo t q - k| < 1 := by exact_mod_cast hdist
  exact sub_eq_zero.mp (Int.abs_lt_one_iff.mp hzero)

@[simp] theorem roundTo_intCast (t : RoundTies) (k : Int) : roundTo t (k : ℚ) = k :=
  roundTo_eq_of_abs_sub_lt t (by norm_num)

/-- Each rounding is off by one half at most, so roundings in the wrong order, at least one apart, need arguments in the wrong
order. -/
theorem roundTo_mono (t : RoundTies) : Monotone (roundTo t) := by
  intro q₁ q₂ hle
  rcases hle.eq_or_lt with rfl | hlt
  · rfl
  · by_contra hgt
    have hgap : (roundTo t q₂ : ℚ) + 1 ≤ roundTo t q₁ := by exact_mod_cast not_le.mp hgt
    have hnear₁ := (abs_le.mp (abs_roundTo_sub_le t q₁)).2
    have hnear₂ := (abs_le.mp (abs_roundTo_sub_le t q₂)).1
    linarith

/-! ### Half way between two integers -/

section
variable {q : ℚ} {k : Int}

theorem floor_of_tie (h : q = k + 1 / 2) : ⌊q⌋ = k := by
  rw [Int.floor_eq_iff, h]
  constructor <;> linarith

theorem pos_iff_of_tie (h : q = k + 1 / 2) : 0 < q ↔ 0 ≤ k := by
  constructor
  · intro hpos
    have hlt : (-1 : ℚ) < k := by linarith
    have hlt' : -1 < k := by exact_mod_cast hlt
    omega
  · intro hk
    have hk' : (0 : ℚ) ≤ k := by exact_mod_cast hk
    linarith

/-- The three rules for a tie, with the sign of `q` read off the integer below it. -/
theorem roundTo_of_tie (h : q = k + 1 / 2) :
    roundTo .away q = (if 0 ≤ k then k + 1 else k) ∧ roundTo .even q = (if k % 2 = 0 then k else k + 1) ∧
      roundTo .up q = k + 1 := by
  have hrest : q - k = 1 / 2 := by linarith
  simp only [roundTo, floor_of_tie h, hrest, lt_irrefl, if_false, pos_iff_of_tie h, and_self]

end

end Sys2Proof.Rounding

open Sys2Proof.Machine Sys2Proof.Config Sys2Proof.Rounding

/-- Settles O22: off a tie the row's integer is nearer than one half, and at a tie the row is the rule of its `ROUND_TIES`. -/
theorem roundingTable : Obligations.RoundingTable := by
  refine ⟨fun t => ⟨?_, ?_, ?_, ?_, ?_, ?_⟩, ?_, ?_, ?_, ?_, ?_⟩
  · exact_mod_cast roundTo_intCast t 0
  · exact roundTo_eq_of_abs_sub_lt t (by norm_num [abs_lt])
  · exact roundTo_eq_of_abs_sub_lt t (by norm_num [abs_lt])
  · exact roundTo_eq_of_abs_sub_lt t (by norm_num [abs_lt])
  · exact roundTo_eq_of_abs_sub_lt t (by norm_num [abs_lt, deg2rad])
  · obtain ⟨haway, heven, hup⟩ := roundTo_of_tie (k := 1) (q := 3 / 2) (by norm_num)
    cases t with
    | away => exact haway
    | even => exact heven
    | up => exact hup
  · exact roundTo_of_tie (k := 0) (q := 1 / 2) (by norm_num)
  · exact roundTo_of_tie (k := -1) (q := -1 / 2) (by norm_num)
  · exact roundTo_of_tie (k := -2) (q := -3 / 2) (by norm_num)
  · exact roundTo_of_tie (k := 2) (q := 5 / 2) (by norm_num)
  · exact roundTo_of_tie (k := -3) (q := -5 / 2) (by norm_num)

end

section
/-! SUPPORT. The field scaler (`41_field_scaler.md` R121 to R125). The codes of a field are the integers from `lo(d)` to `top(d)`,
one for one: `codeOf` and `codeValue` are inverse to each other there, and the sentinel is the code of `top(d)`. What is said
of `fenc` and `fdec` follows from that and from rounding. -/

namespace Sys2Proof.Scaler

open Sys2Proof Sys2Proof.Machine Sys2Proof.Config Sys2Proof.Rounding

/-! ### Two's complement -/

theorem cast_two_pow (n : Nat) : ((2 ^ n : Nat) : Int) = 2 ^ n := Nat.cast_pow 2 n

section
variable {w : Nat}

theorem tc_of_nonneg {k : Int} (h0 : 0 ≤ k) (h1 : k < 2 ^ w) : tc w k = k.toNat := by
  rw [tc, Int.emod_eq_of_lt h0 h1]

theorem tc_of_neg {k : Int} (h0 : -2 ^ w ≤ k) (h1 : k < 0) : tc w k = (k + 2 ^ w).toNat := by
  rw [tc, ← Int.add_emod_right, Int.emod_eq_of_lt (by linarith) (by linarith)]

theorem sext_tc (hw : 1 ≤ w) {k : Int} (h0 : -2 ^ (w - 1) ≤ k) (h1 : k < 2 ^ (w - 1)) : sext w (tc w k) = k := by
  have hdouble : (2 : Int) * 2 ^ (w - 1) = 2 ^ w := mul_pow_sub_one (by omega) 2
  have hcast := cast_two_pow (w - 1)
  rw [sext]
  rcases lt_or_ge k 0 with hneg | hnonneg
  · rw [tc_of_neg (by omega) hneg, if_neg (by omega)]
    omega
  · rw [tc_of_nonneg hnonneg (by omega), if_pos (by omega)]
    omega

theorem tc_sext {c : Nat} (hc : c < 2 ^ w) : tc w (sext w c) = c := by
  have hmod : sext w c % 2 ^ w = (c : Int) % 2 ^ w := by
    rw [sext]
    split
    · rfl
    · exact Int.sub_emod_right _ _
  rw [tc, hmod, Int.emod_eq_of_lt (by omega) (by exact_mod_cast hc), Int.toNat_natCast]

theorem sext_bounds (hw : 1 ≤ w) {c : Nat} (hc : c < 2 ^ w) : -2 ^ (w - 1) ≤ sext w c ∧ sext w c < 2 ^ (w - 1) := by
  have hdouble : (2 : Nat) * 2 ^ (w - 1) = 2 ^ w := mul_pow_sub_one (by omega) 2
  have hcast := cast_two_pow (w - 1)
  have hcast' := cast_two_pow w
  rw [sext]
  split <;> omega

end

/-! ### The range of a field (R122) -/

theorem hiOf_le_topOf (d : FieldDesc) : hiOf d ≤ topOf d := by
  rw [hiOf]
  split <;> omega

/-- Even a field one bit wide has a code besides its sentinel. -/
theorem loOf_lt_topOf {d : FieldDesc} (hw : 1 ≤ d.width) : loOf d < topOf d := by
  have hhalf : (0 : Int) < 2 ^ (d.width - 1) := by positivity
  have hdouble : (2 : Int) * 2 ^ (d.width - 1) = 2 ^ d.width := mul_pow_sub_one (by omega) 2
  rw [loOf, topOf]
  split <;> omega

theorem loOf_le_hiOf {d : FieldDesc} (hw : 1 ≤ d.width) : loOf d ≤ hiOf d := by
  have hlt := loOf_lt_topOf hw
  rw [hiOf]
  split <;> omega

theorem clamp_eq_max_min {lo hi : Int} (h : lo ≤ hi) (k : Int) : clamp k lo hi = max lo (min hi k) := by
  rw [clamp]
  split_ifs <;> omega

theorem fencInt_rat {d : FieldDesc} (hw : 1 ≤ d.width) (t : RoundTies) (q : ℚ) :
    fencInt t d (.rat q) = max (loOf d) (min (hiOf d) (roundTo t (quotient d q))) :=
  clamp_eq_max_min (loOf_le_hiOf hw) _

theorem fencInt_bounds {d : FieldDesc} (hw : 1 ≤ d.width) (t : RoundTies) (v : PhysInput) :
    loOf d ≤ fencInt t d v ∧ fencInt t d v ≤ hiOf d := by
  have hle := loOf_le_hiOf hw
  cases v with
  | posInf => exact ⟨hle, le_rfl⟩
  | negInf => exact ⟨le_rfl, hle⟩
  | rat q =>
    rw [fencInt_rat hw]
    exact ⟨le_max_left _ _, max_le hle (min_le_left _ _)⟩

/-! ### Codes and integers -/

/-- The integer that a code stands for, the sentinel read as any other code. -/
def codeValue (d : FieldDesc) (c : Nat) : Int := if d.isSigned then sext d.width c else zext c

theorem fdecInt_sentinel {d : FieldDesc} (hs : d.hasSentinel = true) : fdecInt d (sentinel d) = none := by
  simp [fdecInt, hs]

theorem fdecInt_of_not_sentinel {d : FieldDesc} {c : Nat} (h : d.hasSentinel = true → c ≠ sentinel d) :
    fdecInt d c = some (codeValue d c) := by
  have hcond : ¬ (d.hasSentinel && decide (c = sentinel d)) = true := by simpa using h
  rw [fdecInt, if_neg hcond, codeValue]

theorem codeOf_eq_tc {d : FieldDesc} {k : Int} (hlo : loOf d ≤ k) (htop : k ≤ topOf d) : codeOf d k = tc d.width k := by
  rw [codeOf]
  split
  next => rfl
  next hu =>
    rw [loOf, if_neg hu] at hlo
    rw [topOf, if_neg hu] at htop
    rw [tc_of_nonneg hlo (by omega)]

theorem codeValue_codeOf {d : FieldDesc} (hw : 1 ≤ d.width) {k : Int} (hlo : loOf d ≤ k) (htop : k ≤ topOf d) :
    codeValue d (codeOf d k) = k := by
  rw [loOf] at hlo
  rw [topOf] at htop
  rw [codeValue, codeOf]
  split_ifs at hlo htop ⊢
  · exact sext_tc hw hlo (by omega)
  · exact Int.toNat_of_nonneg hlo

theorem codeOf_codeValue {d : FieldDesc} {c : Nat} (hc : c < 2 ^ d.width) : codeOf d (codeValue d c) = c := by
  rw [codeOf, codeValue]
  split_ifs
  · exact tc_sext hc
  · exact Int.toNat_natCast c

theorem codeValue_bounds {d : FieldDesc} (hw : 1 ≤ d.width) {c : Nat} (hc : c < 2 ^ d.width) :
    loOf d ≤ codeValue d c ∧ codeValue d c ≤ topOf d := by
  rw [loOf, topOf, codeValue]
  split_ifs
  · obtain ⟨hlo, hhi⟩ := sext_bounds hw hc
    exact ⟨hlo, by omega⟩
  · have hcast := cast_two_pow d.width
    constructor <;> simp only [zext] <;> omega

theorem topOf_eq_sentinel (d : FieldDesc) : topOf d = sentinel d := by
  rw [topOf, sentinel]
  split <;> rw [Nat.cast_sub Nat.one_le_two_pow, cast_two_pow, Nat.cast_one]

theorem sentinel_lt (d : FieldDesc) : sentinel d < 2 ^ d.width := by
  have hhalf : (2 : Nat) ^ (d.width - 1) ≤ 2 ^ d.width := Nat.pow_le_pow_right (by norm_num) (Nat.sub_le _ _)
  have hpos : 0 < (2 : Nat) ^ d.width := by positivity
  rw [sentinel]
  split <;> omega

theorem codeOf_topOf {d : FieldDesc} (hw : 1 ≤ d.width) : codeOf d (topOf d) = sentinel d := by
  rw [codeOf_eq_tc (loOf_lt_topOf hw).le le_rfl, topOf_eq_sentinel,
    tc_of_nonneg (Int.natCast_nonneg _) (by exact_mod_cast sentinel_lt d), Int.toNat_natCast]

/-- A code in the numeric range is told from the sentinel, and stands for the integer it was made from. -/
theorem fdecInt_codeOf {d : FieldDesc} (hw : 1 ≤ d.width) {k : Int} (hlo : loOf d ≤ k) (hhi : k ≤ hiOf d) :
    fdecInt d (codeOf d k) = some k := by
  have hvalue := codeValue_codeOf hw hlo (hhi.trans (hiOf_le_topOf d))
  rw [fdecInt_of_not_sentinel, hvalue]
  intro hs hsent
  have htop : k = topOf d := by
    rw [← hvalue, hsent, ← codeOf_topOf hw, codeValue_codeOf hw (loOf_lt_topOf hw).le le_rfl]
  rw [hiOf, if_pos hs] at hhi
  omega

/-- A code that is not the sentinel stands for an integer of the numeric range. -/
theorem codeValue_le_hiOf {d : FieldDesc} (hw : 1 ≤ d.width) {c : Nat} (hc : c < 2 ^ d.width)
    (h : d.hasSentinel = true → c ≠ sentinel d) : codeValue d c ≤ hiOf d := by
  have htop := (codeValue_bounds hw hc).2
  rw [hiOf]
  split
  next hs =>
    have hne : codeValue d c ≠ topOf d := fun heq => h hs (by rw [← codeOf_codeValue hc, heq, codeOf_topOf hw])
    omega
  next => exact htop

/-! ### `fenc` and `fdec` (R123, R125) -/

theorem fenc_none_eq_tc {d : FieldDesc} (hw : 1 ≤ d.width) (t : RoundTies) : fenc t d none = tc d.width (topOf d) :=
  (codeOf_topOf hw).symm.trans (codeOf_eq_tc (loOf_lt_topOf hw).le le_rfl)

theorem fenc_some_eq_tc {d : FieldDesc} (hw : 1 ≤ d.width) (t : RoundTies) (v : PhysInput) :
    fenc t d (some v) = tc d.width (fencInt t d v) := by
  obtain ⟨hlo, hhi⟩ := fencInt_bounds hw t v
  exact codeOf_eq_tc hlo (hhi.trans (hiOf_le_topOf d))

theorem fdec_fenc {d : FieldDesc} (hw : 1 ≤ d.width) (t : RoundTies) (v : PhysInput) :
    fdec d (fenc t d (some v)) = some (unscale d (fencInt t d v)) := by
  obtain ⟨hlo, hhi⟩ := fencInt_bounds hw t v
  rw [fdec, fenc, fdecInt_codeOf hw hlo hhi, Option.map_some]

theorem fdec_sentinel {d : FieldDesc} (hs : d.hasSentinel = true) : fdec d (sentinel d) = none := by
  rw [fdec, fdecInt_sentinel hs, Option.map_none]

theorem fdec_of_not_sentinel {d : FieldDesc} {c : Nat} (h : d.hasSentinel = true → c ≠ sentinel d) :
    fdec d c = some (unscale d (codeValue d c)) := by
  rw [fdec, fdecInt_of_not_sentinel h, Option.map_some]

theorem quotient_unscale {d : FieldDesc} (hscale : 0 < d.scale) (hunit : 0 < d.unit) (k : Int) :
    quotient d (unscale d k) = k := by
  rw [quotient, unscale, div_mul_cancel₀ _ hunit.ne', add_sub_cancel_right, mul_div_cancel_right₀ _ hscale.ne']

/-- A physical value is off by the rounding of its quotient, in counts of `scale / unit`. -/
theorem unscale_sub {d : FieldDesc} (hscale : 0 < d.scale) (hunit : 0 < d.unit) (k : Int) (q : ℚ) :
    unscale d k - q = ((k : ℚ) - quotient d q) * (d.scale / d.unit) := by
  have hs := hscale.ne'
  have hu := hunit.ne'
  rw [unscale, quotient]
  field_simp
  ring

theorem quotient_mono {d : FieldDesc} (hscale : 0 < d.scale) (hunit : 0 < d.unit) : Monotone (quotient d) := by
  intro q₁ q₂ hle
  unfold quotient
  gcongr

/-! ### The laws of R126 -/

theorem abs_unscale_roundTo_sub_le {d : FieldDesc} (hscale : 0 < d.scale) (hunit : 0 < d.unit) (t : RoundTies) (q : ℚ) :
    |unscale d (roundTo t (quotient d q)) - q| ≤ d.scale / d.unit / 2 := by
  have hcount : 0 < d.scale / d.unit := div_pos hscale hunit
  rw [unscale_sub hscale hunit, abs_mul, abs_of_pos hcount]
  calc |(roundTo t (quotient d q) : ℚ) - quotient d q| * (d.scale / d.unit) ≤ 1 / 2 * (d.scale / d.unit) :=
        mul_le_mul_of_nonneg_right (abs_roundTo_sub_le t _) hcount.le
    _ = d.scale / d.unit / 2 := one_div_mul_eq_div _ _

theorem fenc_ne_sentinel {d : FieldDesc} (hw : 1 ≤ d.width) (hs : d.hasSentinel = true) (t : RoundTies) (v : PhysInput) :
    fenc t d (some v) ≠ sentinel d := by
  intro hsent
  have hnone := fdec_sentinel hs
  rw [← hsent, fdec_fenc hw] at hnone
  exact Option.some_ne_none _ hnone

theorem fencInt_of_mem_range {d : FieldDesc} (hw : 1 ≤ d.width) {t : RoundTies} {q : ℚ}
    (hlo : loOf d ≤ roundTo t (quotient d q)) (hhi : roundTo t (quotient d q) ≤ hiOf d) :
    fencInt t d (.rat q) = roundTo t (quotient d q) := by
  rw [fencInt_rat hw, min_eq_right hhi, max_eq_right hlo]

theorem fencInt_of_hiOf_lt {d : FieldDesc} (hw : 1 ≤ d.width) {t : RoundTies} {q : ℚ}
    (h : hiOf d < roundTo t (quotient d q)) : fencInt t d (.rat q) = hiOf d := by
  rw [fencInt_rat hw, min_eq_left h.le, max_eq_right (loOf_le_hiOf hw)]

theorem fencInt_of_lt_loOf {d : FieldDesc} (hw : 1 ≤ d.width) {t : RoundTies} {q : ℚ}
    (h : roundTo t (quotient d q) < loOf d) : fencInt t d (.rat q) = loOf d := by
  rw [fencInt_rat hw, max_eq_left (min_le_of_right_le h.le)]

theorem fenc_fdec {d : FieldDesc} (hw : 1 ≤ d.width) (hscale : 0 < d.scale) (hunit : 0 < d.unit) (t : RoundTies) {c : Nat}
    (hc : c < 2 ^ d.width) : fenc t d ((fdec d c).map .rat) = c := by
  by_cases hsent : d.hasSentinel = true ∧ c = sentinel d
  · obtain ⟨hs, rfl⟩ := hsent
    rw [fdec_sentinel hs, Option.map_none, fenc]
  · have hknown : d.hasSentinel = true → c ≠ sentinel d := fun hs heq => hsent ⟨hs, heq⟩
    have hround : roundTo t (quotient d (unscale d (codeValue d c))) = codeValue d c := by
      rw [quotient_unscale hscale hunit, roundTo_intCast]
    have hlo := (codeValue_bounds hw hc).1
    have hhi := codeValue_le_hiOf hw hc hknown
    rw [fdec_of_not_sentinel hknown, Option.map_some, fenc,
      fencInt_of_mem_range hw (hround.symm ▸ hlo) (hround.symm ▸ hhi), hround, codeOf_codeValue hc]

theorem fencInt_mono {d : FieldDesc} (hw : 1 ≤ d.width) (hscale : 0 < d.scale) (hunit : 0 < d.unit) (t : RoundTies)
    {q₁ q₂ : ℚ} (h : q₁ ≤ q₂) : fencInt t d (.rat q₁) ≤ fencInt t d (.rat q₂) := by
  rw [fencInt_rat hw, fencInt_rat hw]
  exact max_le_max_left _ (min_le_min_left _ (roundTo_mono t (quotient_mono hscale hunit h)))

/-! ### The two commands -/

section
variable (s : State)

theorem exec_fenc (d : Desc) (v : Phys) :
    exec (.fenc d v) s = .next (s.respond (answerPacket
      ((fencCommand params.roundTies (descField d) (physIn v)).map (natOut 8)))) :=
  congrArg Host.Outcome.next (s.answer_eq_respond _)

theorem exec_fenc_unknown {d : Desc} {v : Phys} (hv : physIn v = none) (hs : d.hasSentinel = false) :
    exec (.fenc d v) s = .next (s.respond [0x7F#8]) := by
  have herr : fencCommand params.roundTies (descField d) (physIn v) = .error .illegalCommand := by
    simp [fencCommand, descField, hv, hs]
  rw [exec_fenc, herr]
  rfl

theorem exec_fenc_known {d : Desc} {v : Phys} (hknown : fencKnown d v = true) :
    exec (.fenc d v) s =
      .next (s.respond (0x00#8 :: leBytes 8 (fenc params.roundTies (descField d) (physIn v)))) := by
  have hrefuse : ((physIn v).isNone && !(descField d).hasSentinel) = !fencKnown d v := by
    rw [fencKnown, Bool.not_or, Option.not_isSome, Bool.and_comm]
    rfl
  have hok : fencCommand params.roundTies (descField d) (physIn v) =
      .ok (fenc params.roundTies (descField d) (physIn v)) := by
    rw [fencCommand, hrefuse, hknown]
    rfl
  rw [exec_fenc, hok]
  rfl

theorem exec_fdec (d : Desc) (raw : BitVec 64) :
    exec (.fdec d raw) s = .next (s.respond (0x00#8 :: physOut (fdec (descField d) raw.toNat))) := rfl

end

theorem wellFormed_fenc {d : Desc} {v : Phys} (h : (Instr.fenc d v).wellFormed = true) :
    1 ≤ d.width ∧ fencKnown d v = true := by
  simp only [Instr.wellFormed, descOk, widthOk, Bool.and_eq_true, decide_eq_true_iff] at h
  obtain ⟨⟨⟨⟨hw, -⟩, -⟩, -⟩, hknown⟩ := h
  exact ⟨hw, hknown⟩

/-- The unit of a descriptor operand is 1. -/
theorem quotient_descField (d : Desc) (q : ℚ) : quotient (descField d) q = (q - f64Rat d.offset) / f64Rat d.scale := by
  simp only [quotient, descField, mul_one]

theorem unscale_descField (d : Desc) (k : Int) : unscale (descField d) k = (k : ℚ) * f64Rat d.scale + f64Rat d.offset := by
  simp only [unscale, descField, div_one]

/-- R125's reading of a code: `2^width` less from half the range on. -/
theorem codeValue_descField (d : Desc) (c : Nat) : codeValue (descField d) c =
    if d.isSigned = true ∧ 2 ^ (d.width - 1) ≤ c then (c : Int) - 2 ^ d.width else c := by
  change (if d.isSigned then sext d.width c else zext c) = _
  cases hsigned : d.isSigned with
  | false => simp [zext]
  | true => simp only [sext, if_true, true_and, ← Nat.not_lt, ite_not]

end Sys2Proof.Scaler

open Sys2Proof Sys2Proof.Machine Sys2Proof.Config Sys2Proof.Rounding Sys2Proof.Scaler

/-- Settles O20: (a), (b) and (e) are that codes and integers are one for one with the sentinel at the top, (c) is that rounding
is off by one half at most, (d) is the clamp, (f) is that quotient, rounding and clamp are monotone. -/
theorem scalerLaws : Obligations.ScalerLaws := by
  intro t d hw hscale hunit
  refine ⟨fun hs => ⟨rfl, fdec_sentinel hs⟩, fun hs v => fenc_ne_sentinel hw hs t v, fun q hlo hhi => ?_,
    fun q => ⟨fun h => ?_, fun h => ?_⟩, fun c hc => fenc_fdec hw hscale hunit t hc,
    fun q₁ q₂ h => fencInt_mono hw hscale hunit t h⟩
  · refine ⟨_, fdec_fenc hw t (.rat q), ?_⟩
    rw [fencInt_of_mem_range hw hlo hhi]
    exact abs_unscale_roundTo_sub_le hscale hunit t q
  · rw [fenc, fencInt_of_hiOf_lt hw h]
  · rw [fenc, fencInt_of_lt_loOf hw h]

/-- Settles O18: the code is the two's complement pattern of the chosen integer, for each kind of value. -/
theorem fencCompletes : Obligations.FencCompletes := by
  refine ⟨fun d v s hv hs => exec_fenc_unknown s hv hs, fun d v s hwf => ?_⟩
  obtain ⟨hw, hknown⟩ := wellFormed_fenc hwf
  have hw' : 1 ≤ (descField d).width := hw
  dsimp only
  rw [exec_fenc_known s hknown]
  cases physIn v with
  | none => rw [fenc_none_eq_tc hw']; rfl
  | some x =>
    rw [fenc_some_eq_tc hw']
    cases x with
    | posInf => rfl
    | negInf => rfl
    | rat q => rw [fencInt_rat hw', quotient_descField]; rfl

/-- Settles O19: the sentinel code, and every other code. -/
theorem fdecCompletes : Obligations.FdecCompletes := by
  intro d raw s _ sent k
  have hk : codeValue (descField d) raw.toNat = k := codeValue_descField d raw.toNat
  rw [exec_fdec]
  by_cases hsent : d.hasSentinel = true ∧ raw.toNat = sent
  · have hcode : raw.toNat = sentinel (descField d) := hsent.2
    rw [if_pos hsent, hcode, fdec_sentinel hsent.1]
    rfl
  · rw [if_neg hsent, fdec_of_not_sentinel fun hs hcode => hsent ⟨hs, hcode⟩, hk, unscale_descField]
    rfl

end

section
/-! SUPPORT. The payload bit-packer (`42_bit_packer.md` R140 to R143, R145). A read is fixed by the bits of its field
(`bitRead_congr`) and a write by the bits it leaves (`getBit_bitWrite`), so each law is a comparison of bits. -/

namespace Sys2Proof.BitPacker

open Sys2Proof Sys2Proof.Machine

/-! ### Reading -/

theorem bitRead_eq_iff (B : Packet) (p : Nat) {w v : Nat} (hv : v < 2 ^ w) :
    bitRead B p w = v ↔ ∀ i < w, getBit B (p + i) = v.testBit i := by
  constructor
  · rintro rfl i hi
    rw [testBit_bitRead, decide_eq_true hi, Bool.true_and]
  · intro hbits
    refine Nat.eq_of_testBit_eq fun i => ?_
    rw [testBit_bitRead]
    by_cases hi : i < w
    · rw [decide_eq_true hi, Bool.true_and, hbits i hi]
    · have hhigh : v < 2 ^ i := hv.trans_le (Nat.pow_le_pow_right two_pos (Nat.not_lt.mp hi))
      rw [decide_eq_false hi, Bool.false_and, Nat.testBit_lt_two_pow hhigh]

/-- A read depends on the bits of its field and on no other. -/
theorem bitRead_congr {A B : Packet} {p w : Nat} (h : ∀ i < w, getBit A (p + i) = getBit B (p + i)) :
    bitRead A p w = bitRead B p w :=
  (bitRead_eq_iff A p (bitRead_lt B p w)).mpr fun i hi => by
    rw [h i hi, testBit_bitRead, decide_eq_true hi, Bool.true_and]

/-- R140's sum. -/
theorem bitRead_eq_sum (B : Packet) (p w : Nat) :
    bitRead B p w = ((List.range w).map fun i => (getBit B (p + i)).toNat * 2 ^ i).sum := by
  induction w with
  | zero => rfl
  | succ w ih => rw [bitRead, ih, List.range_succ, List.map_append, List.sum_append, List.map_singleton, List.sum_singleton]

/-! ### Writing -/

section
variable {B : Packet} {p w : Nat} (hin : p + w ≤ 8 * B.length) (v : Nat)
include hin

theorem getBit_bitWrite_inside {m : Nat} (hlo : p ≤ m) (hhi : m < p + w) :
    getBit (bitWrite B p w v) m = v.testBit (m - p) := by
  rw [getBit_bitWrite B p w v hin, if_pos ⟨hlo, hhi⟩]

theorem getBit_bitWrite_outside {m : Nat} (hout : ¬ (p ≤ m ∧ m < p + w)) :
    getBit (bitWrite B p w v) m = getBit B m := by
  rw [getBit_bitWrite B p w v hin, if_neg hout]

/-! ### The laws of R145 -/

theorem bitRead_bitWrite_same (hv : v < 2 ^ w) : bitRead (bitWrite B p w v) p w = v :=
  (bitRead_eq_iff _ p hv).mpr fun i hi => by
    rw [getBit_bitWrite_inside hin v (by omega) (by omega), Nat.add_sub_cancel_left]

theorem bitRead_bitWrite_disjoint {p₂ w₂ : Nat} (hdisj : p₂ + w₂ ≤ p ∨ p + w ≤ p₂) :
    bitRead (bitWrite B p w v) p₂ w₂ = bitRead B p₂ w₂ :=
  bitRead_congr fun _ _ => getBit_bitWrite_outside hin v (by omega)

theorem bitWrite_bitRead_same : bitWrite B p w (bitRead B p w) = B := by
  refine eq_of_getBit (length_bitWrite B p w _) fun m => ?_
  by_cases hm : p ≤ m ∧ m < p + w
  · obtain ⟨hlo, hhi⟩ := hm
    have hi : m - p < w := by omega
    rw [getBit_bitWrite_inside hin _ hlo hhi, testBit_bitRead, decide_eq_true hi, Bool.true_and, Nat.add_sub_cancel' hlo]
  · exact getBit_bitWrite_outside hin _ hm

/-- A bit lies in one of two disjoint fields or in neither; in each case both orders leave the same bit. -/
theorem bitWrite_comm {p₂ w₂ : Nat} (v₂ : Nat) (hin₂ : p₂ + w₂ ≤ 8 * B.length) (hdisj : p₂ + w₂ ≤ p ∨ p + w ≤ p₂) :
    bitWrite (bitWrite B p w v) p₂ w₂ v₂ = bitWrite (bitWrite B p₂ w₂ v₂) p w v := by
  have hin' : p + w ≤ 8 * (bitWrite B p₂ w₂ v₂).length := by rwa [length_bitWrite]
  have hin₂' : p₂ + w₂ ≤ 8 * (bitWrite B p w v).length := by rwa [length_bitWrite]
  refine eq_of_getBit (by simp only [length_bitWrite]) fun m => ?_
  rw [getBit_bitWrite _ _ _ _ hin₂', getBit_bitWrite _ _ _ _ hin', getBit_bitWrite _ _ _ _ hin,
    getBit_bitWrite _ _ _ _ hin₂]
  by_cases hfirst : p ≤ m ∧ m < p + w
  · have hsecond : ¬ (p₂ ≤ m ∧ m < p₂ + w₂) := by omega
    simp only [if_neg hsecond, if_pos hfirst]
  · simp only [if_neg hfirst]

end

/-! ### The two commands: one response, and nothing else -/

section
variable {pos : BitVec 16} {width : Nat} {buf : Packet} (s : State)

theorem fieldInside_of_le {p : Nat} (h : p + width ≤ 8 * buf.length) : fieldInside p width buf = true := decide_eq_true h

theorem fieldInside_of_lt {p : Nat} (h : 8 * buf.length < p + width) : fieldInside p width buf = false :=
  decide_eq_false (Nat.not_le.mpr h)

theorem exec_bins (pos : BitVec 16) (width : Nat) (raw : BitVec 64) (buf : Packet) :
    exec (.bins pos width raw buf) s =
      .next (s.respond (answerPacket ((bins pos.toNat width raw.toNat buf).map bufOut))) :=
  congrArg Host.Outcome.next (s.answer_eq_respond _)

theorem exec_bext (pos : BitVec 16) (width : Nat) (buf : Packet) :
    exec (.bext pos width buf) s = .next (s.respond (answerPacket ((bext pos.toNat width buf).map (natOut 8)))) :=
  congrArg Host.Outcome.next (s.answer_eq_respond _)

theorem exec_bins_inside (raw : BitVec 64) (h : pos.toNat + width ≤ 8 * buf.length) :
    exec (.bins pos width raw buf) s =
      .next (s.respond (0x00#8 :: bufOut (bitWrite buf pos.toNat width raw.toNat))) := by
  have hok : bins pos.toNat width raw.toNat buf = .ok (bitWrite buf pos.toNat width raw.toNat) := by
    rw [bins, fieldInside_of_le h, if_pos rfl]
  rw [exec_bins, hok]
  rfl

theorem exec_bins_outside (raw : BitVec 64) (h : 8 * buf.length < pos.toNat + width) :
    exec (.bins pos width raw buf) s = .next (s.respond [0x02#8]) := by
  have herr : bins pos.toNat width raw.toNat buf = .error .malformedPayload := by
    rw [bins, fieldInside_of_lt h, if_neg Bool.false_ne_true]
  rw [exec_bins, herr]
  rfl

theorem exec_bext_inside (h : pos.toNat + width ≤ 8 * buf.length) :
    exec (.bext pos width buf) s = .next (s.respond (0x00#8 :: leBytes 8 (bitRead buf pos.toNat width))) := by
  have hok : bext pos.toNat width buf = .ok (bitRead buf pos.toNat width) := by
    rw [bext, fieldInside_of_le h, if_pos rfl]
  rw [exec_bext, hok]
  rfl

theorem exec_bext_outside (h : 8 * buf.length < pos.toNat + width) :
    exec (.bext pos width buf) s = .next (s.respond [0x02#8]) := by
  have herr : bext pos.toNat width buf = .error .malformedPayload := by
    rw [bext, fieldInside_of_lt h, if_neg Bool.false_ne_true]
  rw [exec_bext, herr]
  rfl

end

end Sys2Proof.BitPacker

open Sys2Proof.Machine Sys2Proof.BitPacker

/-- Settles O27: (a) is that the field's bits are those of the value, (b) that a field's own bits change nothing, (c) that a
write leaves every bit outside its field. -/
theorem bitFieldLaws : Obligations.BitFieldLaws := fun B p w v hin hv =>
  ⟨bitRead_bitWrite_same hin v hv, bitWrite_bitRead_same hin,
    fun _ _ v₂ hin₂ _ hdisj => ⟨bitRead_bitWrite_disjoint hin v hdisj, bitWrite_comm hin v v₂ hin₂ hdisj⟩,
    length_bitWrite B p w v⟩

/-- Settles O28: the new buffer is the `bitWrite` of the field, and its bits are `getBit_bitWrite`. -/
theorem binsCompletes : Obligations.BinsCompletes := by
  refine ⟨fun _ _ raw _ s hout => exec_bins_outside s raw hout, fun pos width raw buf s hin =>
    ⟨bitWrite buf pos.toNat width raw.toNat, ?_, length_bitWrite .., fun m _ => getBit_bitWrite _ _ _ _ hin m⟩⟩
  rw [exec_bins_inside s raw hin, bufOut, length_bitWrite]

/-- Settles O29: the answer is the `bitRead` of the field, which is R140's sum. -/
theorem bextCompletes : Obligations.BextCompletes := by
  refine ⟨fun _ _ _ s hout => exec_bext_outside s hout, fun pos width buf s hin => ?_⟩
  rw [exec_bext_inside s hin, bitRead_eq_sum]
  rfl

end

section
/-! SUPPORT. Whole bytes of a buffer (`20_memory.md` R44, `42_bit_packer.md` R140, R141): the bits of a number are the bits of
its little-endian bytes, so a bit access to whole bytes is a byte access. -/

namespace Sys2Proof.WholeBytes

open Sys2Proof Sys2Proof.Machine Sys2Proof.RequestFormats Sys2Proof.BitPacker

/-! ### The bits of a byte string -/

theorem getBit_nil (m : Nat) : getBit [] m = false := by simp [getBit]

theorem getBit_cons (b : Byte) (B : Packet) (m : Nat) :
    getBit (b :: B) m = if m < 8 then b.getLsbD m else getBit B (m - 8) := by
  unfold getBit
  split
  next hlow => rw [Nat.div_eq_of_lt hlow, Nat.mod_eq_of_lt hlow, List.getD_cons_zero]
  next hhigh =>
    have hdiv : m / 8 = (m - 8) / 8 + 1 := by omega
    have hmod : m % 8 = (m - 8) % 8 := by omega
    rw [hdiv, hmod, List.getD_cons_succ]

theorem getBit_append (A B : Packet) (m : Nat) :
    getBit (A ++ B) m = if m < 8 * A.length then getBit A m else getBit B (m - 8 * A.length) := by
  unfold getBit
  split
  next hlow => rw [List.getD_append _ _ _ _ (by omega)]
  next hhigh =>
    have hdiv : m / 8 - A.length = (m - 8 * A.length) / 8 := by omega
    have hmod : m % 8 = (m - 8 * A.length) % 8 := by omega
    rw [List.getD_append_right _ _ _ _ (by omega), hdiv, hmod]

theorem testBit_ofLe (bs : Packet) (m : Nat) : (ofLe bs).testBit m = getBit bs m := by
  induction bs generalizing m with
  | nil => rw [ofLe, getBit_nil, Nat.zero_testBit]
  | cons b bs ih =>
    have hb : b.toNat < 2 ^ 8 := b.isLt
    rw [ofLe, Nat.add_comm, getBit_cons, ← ih, show (256 : Nat) = 2 ^ 8 from rfl, Nat.testBit_two_pow_mul_add _ hb]
    rfl

theorem getBit_leBytes {n m : Nat} (v : Nat) (h : m < 8 * n) : getBit (leBytes n v) m = v.testBit m := by
  rw [← testBit_ofLe, ofLe_leBytes_mod, show (256 : Nat) = 2 ^ 8 from rfl, ← pow_mul, Nat.testBit_mod_two_pow,
    decide_eq_true h, Bool.true_and]

/-! ### Reading whole bytes, and parts of a byte -/

theorem getBit_take_drop (B : Packet) (a : Nat) {n m : Nat} (h : m < 8 * n) :
    getBit ((B.drop a).take n) m = getBit B (8 * a + m) := by
  have hdiv : (8 * a + m) / 8 = a + m / 8 := by omega
  have hmod : (8 * a + m) % 8 = m % 8 := by omega
  unfold getBit
  rw [hdiv, hmod, List.getD_eq_getElem?_getD, List.getElem?_take_of_lt (by omega), List.getElem?_drop,
    ← List.getD_eq_getElem?_getD]

theorem bitRead_bytes (B : Packet) (a n : Nat) : bitRead B (8 * a) (8 * n) = memRead B a n :=
  (bitRead_eq_iff B _ (memRead_lt B a n)).mpr fun i hi => by
    rw [memRead, testBit_ofLe, getBit_take_drop B a hi]

/-- The low bits of a field. -/
theorem bitRead_low (B : Packet) (p w w' : Nat) : bitRead B p w = bitRead B p (w + w') % 2 ^ w := by
  refine (bitRead_eq_iff B p (Nat.mod_lt _ (by positivity))).mpr fun i hi => ?_
  rw [Nat.testBit_mod_two_pow, testBit_bitRead, decide_eq_true hi, decide_eq_true (by omega), Bool.true_and, Bool.true_and]

/-- The high bits of a field. -/
theorem bitRead_high (B : Packet) (p w w' : Nat) : bitRead B (p + w) w' = bitRead B p (w + w') / 2 ^ w := by
  have hlt : bitRead B p (w + w') / 2 ^ w < 2 ^ w' := by
    rw [Nat.div_lt_iff_lt_mul (by positivity), ← pow_add, Nat.add_comm w']
    exact bitRead_lt B p _
  refine (bitRead_eq_iff B _ hlt).mpr fun i hi => ?_
  rw [Nat.testBit_div_two_pow, testBit_bitRead, decide_eq_true (by omega), Bool.true_and, Nat.add_assoc, Nat.add_comm w]

/-! ### Writing whole bytes, and parts of a byte -/

/-- A write to whole bytes replaces them. -/
theorem bitWrite_bytes (A M C : Packet) (v : Nat) :
    bitWrite (A ++ M ++ C) (8 * A.length) (8 * M.length) v = A ++ leBytes M.length v ++ C := by
  refine eq_of_getBit (by simp) fun m => ?_
  rw [getBit_bitWrite _ _ _ _ (by simp only [List.length_append]; omega)]
  simp only [getBit_append, List.length_append, leBytes_length]
  by_cases hA : m < 8 * A.length
  · rw [if_neg (by omega), if_pos (by omega), if_pos hA, if_pos (by omega), if_pos hA]
  · by_cases hM : m < 8 * (A.length + M.length)
    · rw [if_pos (by omega), if_pos hM, if_neg hA, getBit_leBytes v (by omega)]
    · rw [if_neg (by omega), if_neg hM, if_neg hM]

/-- A write depends on the bits of the value below the width and on no other. -/
theorem bitWrite_congr (B : Packet) (p : Nat) {w v v' : Nat} (h : ∀ i < w, v.testBit i = v'.testBit i) :
    bitWrite B p w v = bitWrite B p w v' := by
  induction w with
  | zero => rfl
  | succ w ih => rw [bitWrite, bitWrite, ih fun i hi => h i (by omega), h w (by omega)]

/-- Two writes side by side are one write. -/
theorem bitWrite_adjacent (B : Packet) (p w w' : Nat) {v : Nat} (v' : Nat) (hv : v < 2 ^ w) :
    bitWrite (bitWrite B p w v) (p + w) w' v' = bitWrite B p (w + w') (2 ^ w * v' + v) := by
  induction w' with
  | zero => exact bitWrite_congr B p fun i hi => by rw [Nat.testBit_two_pow_mul_add v' hv, if_pos hi]
  | succ w' ih =>
    rw [← Nat.add_assoc w, bitWrite, bitWrite, ih, Nat.testBit_two_pow_mul_add v' hv, if_neg (by omega),
      Nat.add_sub_cancel_left, Nat.add_assoc]

end Sys2Proof.WholeBytes
end

section
/-! SUPPORT. The PGN encoders (`43_pgn_codecs.md`). An encoder writes its fields in the order of their positions, with no
gap: each write makes the finished part of the payload longer (`Written`). -/

namespace Sys2Proof.PgnCodecs

open Sys2Proof Sys2Proof.Machine Sys2Proof.Config Sys2Proof.RequestFormats Sys2Proof.Rounding Sys2Proof.Scaler
  Sys2Proof.BitPacker Sys2Proof.WholeBytes

/-! ### Payloads written from the front -/

/-- A payload of `L` bytes of which the first `k` are finished and are the bytes `A`. -/
structure Written (L k : Nat) (A P : Packet) : Prop where
  finished : A <+: P
  length_finished : A.length = k
  length_payload : P.length = L

namespace Written

theorem blank (L : Nat) : Written L 0 [] (Machine.blank L) := ⟨List.nil_prefix, rfl, List.length_replicate⟩

section
variable {L k : Nat} {A P : Packet} (h : Written L k A P)
include h

/-- A payload whose bytes are all finished. -/
theorem eq_of_full (hk : k = L) : P = A :=
  (h.finished.eq_of_length (by rw [h.length_finished, hk, h.length_payload])).symm

/-- A field that starts where the finished bytes end. -/
theorem writeBytes (n c : Nat) (hin : k + n ≤ L) :
    Written L (k + n) (A ++ leBytes n c) (bitWrite P (8 * k) (8 * n) c) := by
  obtain ⟨⟨R, rfl⟩, rfl, hlen⟩ := h
  rw [List.length_append] at hlen
  have hR : (R.take n).length = n := List.length_take_of_le (by omega)
  have hwrite := bitWrite_bytes A (R.take n) (R.drop n) c
  rw [hR, List.append_assoc, List.take_append_drop] at hwrite
  rw [hwrite]
  refine ⟨List.prefix_append _ _, by simp, ?_⟩
  simp only [List.length_append, leBytes_length, List.length_drop]
  omega

theorem putRaw {d : FieldDesc} (n : Nat) (hpos : d.pos = 8 * k) (hwidth : d.width = 8 * n) (hin : k + n ≤ L) (c : Nat) :
    Written L (k + n) (A ++ leBytes n c) (putRaw P d c) := by
  rw [Machine.putRaw, hpos, hwidth]
  exact h.writeBytes n c hin

theorem putField {d : FieldDesc} (n : Nat) (hpos : d.pos = 8 * k) (hwidth : d.width = 8 * n) (hin : k + n ≤ L)
    (t : RoundTies) (v : Option PhysInput) :
    Written L (k + n) (A ++ leBytes n (fenc t d v)) (putField t P d v) :=
  h.putRaw n hpos hwidth hin _

/-- Two fields of four bits share a byte, the first in its low half. -/
theorem putNibbles {d d' : FieldDesc} (hpos : d.pos = 8 * k) (hwidth : d.width = 4) (hpos' : d'.pos = 8 * k + 4)
    (hwidth' : d'.width = 4) (hin : k + 1 ≤ L) (c c' : BitVec 4) :
    Written L (k + 1) (A ++ [BitVec.ofNat 8 (c.toNat + 16 * c'.toNat)])
      (Machine.putRaw (Machine.putRaw P d c.toNat) d' c'.toNat) := by
  rw [Machine.putRaw, Machine.putRaw, hpos, hwidth, hpos', hwidth', bitWrite_adjacent P _ 4 4 _ c.isLt, Nat.add_comm (_ * _)]
  exact h.writeBytes 1 _ hin

end

end Written

/-! ### The encoders, byte by byte -/

theorem pencPosr_eq (t : RoundTies) (lat lon : Option PhysInput) :
    pencPosr t lat lon = leBytes 4 (fenc t posrLat lat) ++ leBytes 4 (fenc t posrLon lon) :=
  (((Written.blank 8).putField 4 rfl rfl (by omega) t lat).putField 4 rfl rfl (by omega) t lon).eq_of_full rfl

theorem pencVpos_eq (t : RoundTies) (lat lon : Option PhysInput) :
    pencVpos t lat lon = leBytes 4 (fenc t vpLat lat) ++ leBytes 4 (fenc t vpLon lon) :=
  (((Written.blank 8).putField 4 rfl rfl (by omega) t lat).putField 4 rfl rfl (by omega) t lon).eq_of_full rfl

theorem pencCogsog_eq (t : RoundTies) (sid ref : Byte) (cog sog : Option PhysInput) :
    pencCogsog t sid ref cog sog =
      sid :: ref :: (leBytes 2 (fenc t csCog cog) ++ leBytes 2 (fenc t csSog sog) ++ [0xFF#8, 0xFF#8]) := by
  have hids := ((Written.blank 8).putRaw (d := csSid) 1 rfl rfl (by omega) sid.toNat).putRaw (d := csRef) 1 rfl rfl
    (by omega) ref.toNat
  have hvalues := (hids.putField (d := csCog) 2 rfl rfl (by omega) t cog).putField (d := csSog) 2 rfl rfl (by omega) t sog
  have hall := hvalues.putRaw (d := csRsv) 2 rfl rfl (by omega) 0xFFFF
  rw [leBytes_one, leBytes_one] at hall
  exact hall.eq_of_full rfl

theorem pencVds_eq (t : RoundTies) (bearing speed : Option PhysInput) (pitch alt : Option Int) :
    pencVds t bearing speed pitch alt =
      leBytes 2 (fenc t vdBearing bearing) ++ leBytes 2 (fenc t vdSpeed speed) ++
        leBytes 2 (fenc t vdPitch (intNum pitch)) ++ leBytes 2 (fenc t vdAlt (intNum alt)) := by
  have hmotion := ((Written.blank 8).putField (d := vdBearing) 2 rfl rfl (by omega) t bearing).putField (d := vdSpeed) 2
    rfl rfl (by omega) t speed
  exact ((hmotion.putField (d := vdPitch) 2 rfl rfl (by omega) t _).putField (d := vdAlt) 2 rfl rfl (by omega) t
    _).eq_of_full rfl

/-- A number written in one byte. -/
theorem leBytes_byte (v : Nat) : leBytes 1 v = [BitVec.ofNat 8 v] := rfl

/-- The code of a value does not depend on where its field stands. -/
theorem fenc_gTid (t : RoundTies) (j : Nat) (v : Option PhysInput) : fenc t (gTid j) v = fenc t (gTid 0) v := by
  cases v <;> rfl

theorem fenc_gAge (t : RoundTies) (j : Nat) (v : Option PhysInput) : fenc t (gAge j) v = fenc t (gAge 0) v := by
  cases v <;> rfl

/-- R167's record of one station. -/
def stationBytes (t : RoundTies) (st : Option Int × Option Int) : Packet :=
  leBytes 2 (fenc t (gTid 0) (intNum st.1)) ++ leBytes 2 (fenc t (gAge 0) (intNum st.2))

/-- The station records from record `j` on, four bytes each. -/
theorem Written.putStations {L : Nat} (t : RoundTies) (l : List (Option Int × Option Int)) {j : Nat} {A P : Packet}
    (h : Written L (43 + 4 * j) A P) (hin : 43 + 4 * (j + l.length) ≤ L) :
    Written L (43 + 4 * (j + l.length)) (A ++ l.flatMap (stationBytes t)) (Machine.putStations t P j l) := by
  induction l generalizing j A P with
  | nil =>
    rw [List.flatMap_nil, List.append_nil]
    exact h
  | cons st l ih =>
    rw [List.length_cons] at hin
    have htid := h.putField (d := gTid j) 2 (by simp only [gTid, rawOptField]; omega) rfl (by omega) t (intNum st.1)
    have hage := htid.putField (d := gAge j) 2 (by simp only [gAge, rawOptField]; omega) rfl (by omega) t (intNum st.2)
    have hrecord : 43 + 4 * j + 2 + 2 = 43 + 4 * (j + 1) := by omega
    rw [hrecord, fenc_gTid, fenc_gAge, List.append_assoc] at hage
    have hrest := ih hage (by omega)
    have hcount : j + 1 + l.length = j + (l.length + 1) := by omega
    rw [hcount, List.append_assoc] at hrest
    rw [List.length_cons, List.flatMap_cons, stationBytes, Machine.putStations]
    exact hrest

/-- R167's payload, field by field. -/
def gnssBytes (t : RoundTies) (v : GnssValues) : Packet :=
  v.sid :: (leBytes 2 (fenc t gDate (intNum v.date)) ++ leBytes 4 (fenc t gTod v.tod) ++ leBytes 8 (fenc t gLat v.lat) ++
    leBytes 8 (fenc t gLon v.lon) ++ leBytes 8 (fenc t gAlt v.alt) ++
    BitVec.ofNat 8 (v.fixtype.toNat + 16 * v.method.toNat) :: v.integ ::
    (leBytes 1 (fenc t gNumsv (intNum v.numsv)) ++ leBytes 2 (fenc t gHdop (intNum v.hdop)) ++
      leBytes 2 (fenc t gPdop (intNum v.pdop)) ++ leBytes 4 (fenc t gGeoid (intNum v.geoid)) ++
      BitVec.ofNat 8 v.stations.length ::
      v.stations.flatMap (stationBytes t)))

theorem pencGnss_too_large (t : RoundTies) {v : GnssValues} (h : 3 < v.stations.length) :
    pencGnss t v = .error .payloadTooLarge := if_pos h

theorem pencGnss_eq (t : RoundTies) {v : GnssValues} (h : v.stations.length ≤ 3) :
    pencGnss t v = .ok (gnssBytes t v) := by
  have hfix := (Written.blank (43 + 4 * v.stations.length))
    |>.putRaw (d := gSid) 1 rfl rfl (by omega) v.sid.toNat
    |>.putField (d := gDate) 2 rfl rfl (by omega) t (intNum v.date)
    |>.putField (d := gTod) 4 rfl rfl (by omega) t v.tod
    |>.putField (d := gLat) 8 rfl rfl (by omega) t v.lat
    |>.putField (d := gLon) 8 rfl rfl (by omega) t v.lon
    |>.putField (d := gAlt) 8 rfl rfl (by omega) t v.alt
  have hall := hfix.putNibbles (d := gFixtype) (d' := gMethod) rfl rfl rfl rfl (by omega) v.fixtype v.method
    |>.putRaw (d := gInteg) 1 rfl rfl (by omega) v.integ.toNat
    |>.putField (d := gNumsv) 1 rfl rfl (by omega) t (intNum v.numsv)
    |>.putField (d := gHdop) 2 rfl rfl (by omega) t (intNum v.hdop)
    |>.putField (d := gPdop) 2 rfl rfl (by omega) t (intNum v.pdop)
    |>.putField (d := gGeoid) 4 rfl rfl (by omega) t (intNum v.geoid)
    |>.putRaw (d := gNref) 1 rfl rfl (by omega) v.stations.length
    |>.putStations (j := 0) t v.stations (by omega)
  refine (if_neg (Nat.not_lt.mpr h)).trans (congrArg Except.ok ((hall.eq_of_full (by omega)).trans ?_))
  simp only [gnssBytes, leBytes_byte, BitVec.ofNat_toNat, BitVec.setWidth_eq, List.append_assoc,
    List.nil_append, List.cons_append]

@[simp] theorem length_stationBytes (t : RoundTies) (st : Option Int × Option Int) : (stationBytes t st).length = 4 := by
  simp [stationBytes]

theorem length_gnssBytes (t : RoundTies) (v : GnssValues) : (gnssBytes t v).length = 43 + 4 * v.stations.length := by
  simp [gnssBytes, List.length_flatMap]; omega

/-! ### Integer codes (R153) -/

section
variable {pos w : Nat} {isSigned : Bool}

theorem quotient_rawOptField (q : ℚ) : quotient (rawOptField pos w isSigned) q = q := by
  simp only [quotient, rawOptField, mul_one, sub_zero, div_one]

theorem unscale_rawOptField (k : Int) : unscale (rawOptField pos w isSigned) k = k := by
  simp only [unscale, rawOptField, mul_one, add_zero, div_one]

theorem intNum_some (k : Int) : intNum (some k) = some (.rat k) := rfl

theorem one_le_sentinel {d : FieldDesc} (hw : 2 ≤ d.width) : 1 ≤ sentinel d := by
  have hhalf : 2 ^ 1 ≤ 2 ^ (d.width - 1) := Nat.pow_le_pow_right two_pos (by omega)
  have hfull : 2 ^ 1 ≤ 2 ^ d.width := Nat.pow_le_pow_right two_pos (by omega)
  rw [sentinel]
  split <;> omega

theorem codeValue_sentinel {d : FieldDesc} (hw : 1 ≤ d.width) : codeValue d (sentinel d) = topOf d := by
  rw [← codeOf_topOf hw, codeValue_codeOf hw (loOf_lt_topOf hw).le le_rfl]

/-- The largest known code is one below the sentinel. -/
theorem codeOf_hiOf {d : FieldDesc} (hw : 2 ≤ d.width) (hs : d.hasSentinel = true) : codeOf d (hiOf d) = sentinel d - 1 := by
  have hpos := one_le_sentinel hw
  have hlt : (sentinel d : Int) < 2 ^ d.width := by exact_mod_cast sentinel_lt d
  have htop := topOf_eq_sentinel d
  rw [codeOf_eq_tc (loOf_le_hiOf (by omega)) (hiOf_le_topOf d), hiOf, if_pos hs, tc_of_nonneg (by omega) (by omega)]
  omega

/-- A known code is written as it is, but the sentinel as the code below it. -/
theorem fenc_codeValue (t : RoundTies) (hw : 2 ≤ w) {c : Nat} (hc : c < 2 ^ w) :
    fenc t (rawOptField pos w isSigned) (intNum (some (codeValue (rawOptField pos w isSigned) c))) =
      if c = sentinel (rawOptField pos w isSigned) then sentinel (rawOptField pos w isSigned) - 1 else c := by
  set d := rawOptField pos w isSigned with hd
  have hwidth : 2 ≤ d.width := hw
  have hround : roundTo t (quotient d (codeValue d c)) = codeValue d c := by rw [quotient_rawOptField, roundTo_intCast]
  split
  next hsent =>
    have habove : hiOf d < roundTo t (quotient d (codeValue d c)) := by
      rw [hround, hsent, codeValue_sentinel (by omega), hiOf, if_pos (show d.hasSentinel = true from rfl)]
      omega
    rw [intNum_some, fenc, fencInt_of_hiOf_lt (by omega) habove, codeOf_hiOf hwidth rfl]
  next hknown =>
    have hfdec : (fdec d c).map .rat = intNum (some (codeValue d c)) := by
      rw [fdec_of_not_sentinel fun _ => hknown, unscale_rawOptField]
      rfl
    rw [← hfdec, fenc_fdec (by omega) one_pos one_pos t hc]

theorem fenc_rawIn (t : RoundTies) (hw : 2 ≤ w) (r : RawOpt w) :
    fenc t (rawOptField pos w false) (intNum (rawIn r)) =
      if r.known then min r.value.toNat (2 ^ w - 2) else 2 ^ w - 1 := by
  have hlt := r.value.isLt
  cases hknown : r.known with
  | false =>
    rw [rawIn, hknown]
    rfl
  | true =>
    have hvalue : rawIn r = some (codeValue (rawOptField pos w false) r.value.toNat) := by
      rw [rawIn, hknown]
      rfl
    have hsent : sentinel (rawOptField pos w false) = 2 ^ w - 1 := rfl
    rw [hvalue, fenc_codeValue t hw hlt, hsent, if_pos rfl]
    split <;> omega

theorem fenc_rawInSigned (t : RoundTies) (hw : 2 ≤ w) (r : RawOpt w) :
    fenc t (rawOptField pos w true) (intNum (rawInSigned r)) =
      if r.known then (if r.value.toNat = 2 ^ (w - 1) - 1 then 2 ^ (w - 1) - 2 else r.value.toNat)
      else 2 ^ (w - 1) - 1 := by
  cases hknown : r.known with
  | false =>
    rw [rawInSigned, hknown]
    rfl
  | true =>
    have hvalue : rawInSigned r = some (codeValue (rawOptField pos w true) r.value.toNat) := by
      rw [rawInSigned, hknown]
      rfl
    rw [hvalue, fenc_codeValue t hw r.value.isLt]
    rfl

end

/-! ### The encoder commands: one response, and nothing else -/

section
variable (s : State)

theorem exec_pencPosr (lat lon : Phys) : exec (.pencPosr lat lon) s =
    .next (s.respond (0x00#8 :: bufOut (pencPosr params.roundTies (physIn lat) (physIn lon)))) := rfl

theorem exec_pencVpos (lat lon : Phys) : exec (.pencVpos lat lon) s =
    .next (s.respond (0x00#8 :: bufOut (pencVpos params.roundTies (physIn lat) (physIn lon)))) := rfl

theorem exec_pencCogsog (sid ref : Byte) (cog sog : Phys) : exec (.pencCogsog sid ref cog sog) s =
    .next (s.respond (0x00#8 :: bufOut (pencCogsog params.roundTies sid ref (physIn cog) (physIn sog)))) := rfl

theorem exec_pencVds (bearing speed : Phys) (pitch alt : RawOpt 16) : exec (.pencVds bearing speed pitch alt) s =
    .next (s.respond (0x00#8 ::
      bufOut (pencVds params.roundTies (physIn bearing) (physIn speed) (rawIn pitch) (rawIn alt)))) := rfl

theorem exec_pencGnss (a : GnssArgs) :
    exec (.pencGnss a) s = .next (s.respond (answerPacket ((pencGnss params.roundTies (gnssIn a)).map bufOut))) :=
  congrArg Host.Outcome.next (s.answer_eq_respond _)

theorem length_stations_gnssIn (a : GnssArgs) : (gnssIn a).stations.length = a.stations.length := List.length_map _

theorem exec_pencGnss_too_large {a : GnssArgs} (h : 3 < a.stations.length) :
    exec (.pencGnss a) s = .next (s.respond [0x03#8]) := by
  rw [exec_pencGnss, pencGnss_too_large _ (by rwa [length_stations_gnssIn])]
  rfl

theorem exec_pencGnss_ok {a : GnssArgs} (h : a.stations.length ≤ 3) : exec (.pencGnss a) s =
    .next (s.respond (0x00#8 :: BitVec.ofNat 8 (43 + 4 * a.stations.length) :: gnssBytes params.roundTies (gnssIn a))) := by
  rw [exec_pencGnss, pencGnss_eq _ (by rwa [length_stations_gnssIn]), ← length_stations_gnssIn, ← length_gnssBytes]
  rfl

end

/-- The descriptor of the course, with the unit as R159 states it. -/
theorem csCog_eq : csCog = ⟨16, 16, 1 / 10 ^ 4, 0, 5030569068109113 / 2 ^ 58, false, true⟩ := by
  simp only [csCog, physField, deg2rad, FieldDesc.mk.injEq]
  norm_num

end Sys2Proof.PgnCodecs

open Sys2Proof Sys2Proof.Machine Sys2Proof.Config Sys2Proof.PgnCodecs

/-- Settles O30: the two fields fill the payload. -/
theorem pencPositionCompletes : Obligations.PencPositionCompletes := by
  intro lat lon s
  rw [exec_pencPosr, exec_pencVpos, pencPosr_eq, pencVpos_eq]
  exact ⟨rfl, rfl⟩

/-- Settles O31: the five fields fill the payload. -/
theorem pencCogsogCompletes : Obligations.PencCogsogCompletes := by
  intro sid ref cog sog s
  rw [exec_pencCogsog, pencCogsog_eq, csCog_eq]
  rfl

/-- Settles O32: the four fields fill the payload, and a known code is clamped below the sentinel. -/
theorem pencVdsCompletes : Obligations.PencVdsCompletes := by
  intro bearing speed pitch alt s code
  rw [exec_pencVds, pencVds_eq, vdPitch, vdAlt, fenc_rawIn _ (by omega), fenc_rawIn _ (by omega)]
  rfl

/-- Settles O33: the fields fill the payload (`pencGnss_eq`), and a known code is clamped below the sentinel. -/
theorem pencGnssCompletes : Obligations.PencGnssCompletes := by
  refine ⟨fun a s h => exec_pencGnss_too_large s h, ?_⟩
  intro a s h code8 code16 geoid
  have hdate : fenc params.roundTies gDate (intNum (rawIn a.date)) = code16 a.date := fenc_rawIn _ (by omega) _
  have hnumsv : fenc params.roundTies gNumsv (intNum (rawIn a.numsv)) = code8 a.numsv := fenc_rawIn _ (by omega) _
  have hhdop : fenc params.roundTies gHdop (intNum (rawIn a.hdop)) = code16 a.hdop := fenc_rawIn _ (by omega) _
  have hpdop : fenc params.roundTies gPdop (intNum (rawIn a.pdop)) = code16 a.pdop := fenc_rawIn _ (by omega) _
  have hgeoid : fenc params.roundTies gGeoid (intNum (rawInSigned a.geoid)) = geoid := fenc_rawInSigned _ (by omega) _
  have hstation (st : StationArg) : stationBytes params.roundTies (rawIn st.tid, rawIn st.age) =
      leBytes 2 (code16 st.tid) ++ leBytes 2 (code16 st.age) := by
    rw [stationBytes, gTid, gAge, fenc_rawIn _ (by omega), fenc_rawIn _ (by omega)]
    rfl
  rw [exec_pencGnss_ok s h]
  simp only [gnssBytes, gnssIn, List.length_map, List.flatMap_map, hdate, hnumsv, hhdop, hpdop, hgeoid, hstation]
  rfl

end

section
/-! SUPPORT. The PGN decoders (`43_pgn_codecs.md` R154, R160, R161, R166, R168, R172, R176): the length check, and each field
read as whole bytes. An integer code comes back as the bytes it was read from, unless it is the sentinel. -/

namespace Sys2Proof.PgnDecoders

open Sys2Proof Sys2Proof.Machine Sys2Proof.Config Sys2Proof.RequestFormats Sys2Proof.Scaler Sys2Proof.BitPacker
  Sys2Proof.WholeBytes Sys2Proof.PgnCodecs

/-! ### Fields of whole bytes -/

section
variable (P : Packet) {d : FieldDesc} (a n : Nat)

theorem getRaw_bytes (hpos : d.pos = 8 * a) (hwidth : d.width = 8 * n) : getRaw P d = memRead P a n := by
  rw [getRaw, hpos, hwidth, bitRead_bytes]

theorem getField_bytes (hpos : d.pos = 8 * a) (hwidth : d.width = 8 * n) : getField P d = fdec d (memRead P a n) := by
  rw [getField, hpos, hwidth, bitRead_bytes]

theorem getRaw_byte (hpos : d.pos = 8 * a) (hwidth : d.width = 8) : getRaw P d = byteAt P a := by
  rw [getRaw_bytes P a 1 hpos hwidth, memRead_one]

theorem ofNat_byteAt : BitVec.ofNat 8 (byteAt P a) = P.getD a 0#8 := by
  rw [byteAt, BitVec.ofNat_toNat, BitVec.setWidth_eq]

/-- The field in the low half of a byte. -/
theorem getRaw_lowNibble (hpos : d.pos = 8 * a) (hwidth : d.width = 4) : getRaw P d = byteAt P a % 16 := by
  rw [getRaw, hpos, hwidth, bitRead_low P _ 4 4, ← memRead_one, ← bitRead_bytes]
  rfl

/-- The field in the high half of a byte. -/
theorem getRaw_highNibble (hpos : d.pos = 8 * a + 4) (hwidth : d.width = 4) : getRaw P d = byteAt P a / 16 := by
  rw [getRaw, hpos, hwidth, bitRead_high P _ 4 4, ← memRead_one, ← bitRead_bytes]
  rfl

end

/-! ### Integer codes (R153) -/

/-- The response field of a code in `n` bytes whose sentinel is `sent`. -/
def codeOut (n sent c : Nat) : Packet := if c = sent then 0x00#8 :: leBytes n 0 else 0x01#8 :: leBytes n c

/-- A field of integer codes scales by 1, so its value is the integer itself. -/
theorem getInt_rawOptField (P : Packet) (pos w : Nat) (isSigned : Bool) :
    getInt P (rawOptField pos w isSigned) = fdecInt (rawOptField pos w isSigned) (bitRead P pos w) := by
  have hfloor : (fun q : ℚ => ⌊q⌋) ∘ unscale (rawOptField pos w isSigned) = id :=
    funext fun k => by rw [Function.comp_apply, unscale_rawOptField, Int.floor_intCast, id]
  rw [getInt, getField, fdec, Option.map_map, hfloor, Option.map_id, id]
  rfl

/-- A code is given back in the bytes it was read from. -/
theorem tc_codeValue {d : FieldDesc} (hw : 1 ≤ d.width) {c : Nat} (hc : c < 2 ^ d.width) :
    tc d.width (codeValue d c) = c := by
  obtain ⟨hlo, htop⟩ := codeValue_bounds hw hc
  rw [← codeOf_eq_tc hlo htop, codeOf_codeValue hc]

theorem rawOut_fdecInt {d : FieldDesc} {n c : Nat} (hn : 1 ≤ n) (hwidth : d.width = 8 * n) (hs : d.hasSentinel = true)
    (hc : c < 2 ^ d.width) : rawOut n (fdecInt d c) = codeOut n (sentinel d) c := by
  rw [codeOut]
  split
  next hsent =>
    rw [hsent, fdecInt_sentinel hs]
    rfl
  next hknown =>
    rw [fdecInt_of_not_sentinel fun _ => hknown, rawOut, ← hwidth, tc_codeValue (by omega) hc]

theorem rawOut_getInt (P : Packet) {a n pos w : Nat} {isSigned : Bool} (hn : 1 ≤ n) (hpos : pos = 8 * a)
    (hwidth : w = 8 * n) :
    rawOut n (getInt P (rawOptField pos w isSigned)) =
      codeOut n (sentinel (rawOptField pos w isSigned)) (memRead P a n) := by
  subst hpos hwidth
  rw [getInt_rawOptField, bitRead_bytes]
  exact rawOut_fdecInt hn rfl rfl (memRead_lt P a n)

/-! ### The short decoders -/

section
variable {P : Packet}

theorem pdecPosr_malformed (h : P.length ≠ 8) : pdecPosr P = .error .malformedPayload := if_pos h
theorem pdecVpos_malformed (h : P.length ≠ 8) : pdecVpos P = .error .malformedPayload := if_pos h
theorem pdecCogsog_malformed (h : P.length ≠ 8) : pdecCogsog P = .error .malformedPayload := if_pos h
theorem pdecVds_malformed (h : P.length ≠ 8) : pdecVds P = .error .malformedPayload := if_pos h

theorem pdecPosr_ok (h : P.length = 8) :
    pdecPosr P = .ok (fdec posrLat (memRead P 0 4), fdec posrLon (memRead P 4 4)) := by
  rw [pdecPosr, if_neg (not_not_intro h), getField_bytes P 0 4 rfl rfl, getField_bytes P 4 4 rfl rfl]

theorem pdecVpos_ok (h : P.length = 8) :
    pdecVpos P = .ok (fdec vpLat (memRead P 0 4), fdec vpLon (memRead P 4 4)) := by
  rw [pdecVpos, if_neg (not_not_intro h), getField_bytes P 0 4 rfl rfl, getField_bytes P 4 4 rfl rfl]

theorem pdecCogsog_ok (h : P.length = 8) :
    pdecCogsog P = .ok ⟨P.getD 0 0#8, P.getD 1 0#8, fdec csCog (memRead P 2 2), fdec csSog (memRead P 4 2)⟩ := by
  rw [pdecCogsog, if_neg (not_not_intro h), getRaw_byte P 0 rfl rfl, getRaw_byte P 1 rfl rfl, ofNat_byteAt, ofNat_byteAt,
    getField_bytes P 2 2 rfl rfl, getField_bytes P 4 2 rfl rfl]

theorem map_vdsOut_pdecVds (h : P.length = 8) : (pdecVds P).map vdsOut =
    .ok (physOut (fdec vdBearing (memRead P 0 2)) ++ physOut (fdec vdSpeed (memRead P 2 2)) ++
      codeOut 2 0xFFFF (memRead P 4 2) ++ codeOut 2 0xFFFF (memRead P 6 2)) := by
  rw [pdecVds, if_neg (not_not_intro h), Except.map, vdsOut, getField_bytes P 0 2 rfl rfl, getField_bytes P 2 2 rfl rfl,
    vdPitch, vdAlt, rawOut_getInt P (a := 4) (by omega) rfl rfl, rawOut_getInt P (a := 6) (by omega) rfl rfl]
  rfl

end

/-! ### The GNSS decoder -/

theorem stationCount_eq {r : Nat} (hr : r ≤ 255) :
    stationCount r = if 4 ≤ r ∧ r ≤ 254 then none else some (if r = 255 then 0 else r) := by
  by_cases hfew : r ≤ 3
  · rw [stationCount, if_pos hfew, if_neg (by omega), if_neg (by omega)]
  · by_cases hnone : r = 255
    · rw [stationCount, if_neg hfew, if_pos hnone, if_neg (by omega), if_pos hnone]
    · rw [stationCount, if_neg hfew, if_neg hnone, if_pos (by omega)]

/-- R166, R168: which payloads are malformed, and with how many stations the others are read. -/
theorem pdecGnss_eq (P : Packet) : pdecGnss P =
    if P.length < 43 ∨ (4 ≤ byteAt P 42 ∧ byteAt P 42 ≤ 254) ∨
        P.length ≠ 43 + 4 * (if byteAt P 42 = 255 then 0 else byteAt P 42) then .error .malformedPayload
    else .ok (gnssFields P (if byteAt P 42 = 255 then 0 else byteAt P 42)) := by
  rw [pdecGnss, getRaw_byte P 42 rfl rfl, stationCount_eq (byteAt_le P 42)]
  by_cases hshort : P.length < 43
  · rw [if_pos hshort, if_pos (.inl hshort)]
  · by_cases hmany : 4 ≤ byteAt P 42 ∧ byteAt P 42 ≤ 254
    · rw [if_neg hshort, if_pos hmany, if_pos (.inr (.inl hmany))]
    · simp only [hshort, hmany, if_false, false_or]

theorem stationsOut_eq_flatMap (l : List (Option Int × Option Int)) :
    stationsOut l = l.flatMap fun st => rawOut 2 st.1 ++ rawOut 2 st.2 := by
  induction l with
  | nil => rfl
  | cons st l ih => rw [stationsOut, ih, List.flatMap_cons]

theorem gnssOut_gnssFields (P : Packet) (n : Nat) : gnssOut (gnssFields P n) =
    P.getD 0 0#8 :: (codeOut 2 0xFFFF (memRead P 1 2) ++ physOut (fdec gTod (memRead P 3 4)) ++
      physOut (fdec gLat (memRead P 7 8)) ++ physOut (fdec gLon (memRead P 15 8)) ++ physOut (fdec gAlt (memRead P 23 8)) ++
      BitVec.ofNat 8 (byteAt P 31 % 16) :: BitVec.ofNat 8 (byteAt P 31 / 16) :: P.getD 32 0#8 ::
      (codeOut 1 0xFF (memRead P 33 1) ++ codeOut 2 0xFFFF (memRead P 34 2) ++ codeOut 2 0xFFFF (memRead P 36 2) ++
        codeOut 4 0x7FFFFFFF (memRead P 38 4) ++ P.getD 42 0#8 ::
        (List.range n).flatMap fun j =>
          codeOut 2 0xFFFF (memRead P (43 + 4 * j) 2) ++ codeOut 2 0xFFFF (memRead P (45 + 4 * j) 2))) := by
  have hdate : rawOut 2 (getInt P gDate) = codeOut 2 0xFFFF (memRead P 1 2) := rawOut_getInt P (by omega) rfl rfl
  have hnumsv : rawOut 1 (getInt P gNumsv) = codeOut 1 0xFF (memRead P 33 1) := rawOut_getInt P (by omega) rfl rfl
  have hhdop : rawOut 2 (getInt P gHdop) = codeOut 2 0xFFFF (memRead P 34 2) := rawOut_getInt P (by omega) rfl rfl
  have hpdop : rawOut 2 (getInt P gPdop) = codeOut 2 0xFFFF (memRead P 36 2) := rawOut_getInt P (by omega) rfl rfl
  have hgeoid : rawOut 4 (getInt P gGeoid) = codeOut 4 0x7FFFFFFF (memRead P 38 4) :=
    rawOut_getInt P (by omega) rfl rfl
  have htid (j : Nat) : rawOut 2 (getInt P (gTid j)) = codeOut 2 0xFFFF (memRead P (43 + 4 * j) 2) :=
    rawOut_getInt P (by omega) (by omega) rfl
  have hage (j : Nat) : rawOut 2 (getInt P (gAge j)) = codeOut 2 0xFFFF (memRead P (45 + 4 * j) 2) :=
    rawOut_getInt P (by omega) (by omega) rfl
  have hfixtype : natOut 1 (BitVec.ofNat 4 (getRaw P gFixtype)).toNat = [BitVec.ofNat 8 (byteAt P 31 % 16)] := by
    rw [getRaw_lowNibble P 31 rfl rfl, BitVec.toNat_ofNat, Nat.mod_mod]
    rfl
  have hmethod : natOut 1 (BitVec.ofNat 4 (getRaw P gMethod)).toNat = [BitVec.ofNat 8 (byteAt P 31 / 16)] := by
    have hle := byteAt_le P 31
    rw [getRaw_highNibble P 31 rfl rfl, BitVec.toNat_ofNat, Nat.mod_eq_of_lt (by omega)]
    rfl
  simp only [gnssOut, gnssFields, hdate, hnumsv, hhdop, hpdop, hgeoid, hfixtype, hmethod, stationsOut_eq_flatMap,
    List.flatMap_map, htid, hage, getField_bytes P (d := gTod) 3 4 rfl rfl, getField_bytes P (d := gLat) 7 8 rfl rfl,
    getField_bytes P (d := gLon) 15 8 rfl rfl, getField_bytes P (d := gAlt) 23 8 rfl rfl,
    getRaw_byte P (d := gSid) 0 rfl rfl, getRaw_byte P (d := gInteg) 32 rfl rfl, getRaw_byte P (d := gNref) 42 rfl rfl,
    ofNat_byteAt, List.append_assoc, List.cons_append, List.nil_append]

/-! ### The decoder commands: one response, and nothing else -/

section
variable (s : State) (P : Packet)

theorem exec_pdecPosr : exec (.pdecPosr P) s = .next (s.respond (answerPacket ((pdecPosr P).map positionOut))) :=
  congrArg Host.Outcome.next (s.answer_eq_respond _)

theorem exec_pdecVpos : exec (.pdecVpos P) s = .next (s.respond (answerPacket ((pdecVpos P).map positionOut))) :=
  congrArg Host.Outcome.next (s.answer_eq_respond _)

theorem exec_pdecCogsog : exec (.pdecCogsog P) s = .next (s.respond (answerPacket ((pdecCogsog P).map cogsogOut))) :=
  congrArg Host.Outcome.next (s.answer_eq_respond _)

theorem exec_pdecVds : exec (.pdecVds P) s = .next (s.respond (answerPacket ((pdecVds P).map vdsOut))) :=
  congrArg Host.Outcome.next (s.answer_eq_respond _)

theorem exec_pdecGnss : exec (.pdecGnss P) s = .next (s.respond (answerPacket ((pdecGnss P).map gnssOut))) :=
  congrArg Host.Outcome.next (s.answer_eq_respond _)

end

end Sys2Proof.PgnDecoders

open Sys2Proof Sys2Proof.Machine Sys2Proof.PgnCodecs Sys2Proof.PgnDecoders

/-- Settles O34: the length check, and each field read as whole bytes. -/
theorem pdecPositionCompletes : Obligations.PdecPositionCompletes := by
  refine ⟨fun P s h => ?_, fun P s h => ?_⟩
  · rw [exec_pdecPosr, exec_pdecVpos, pdecPosr_malformed h, pdecVpos_malformed h]
    exact ⟨rfl, rfl⟩
  · rw [exec_pdecPosr, exec_pdecVpos, pdecPosr_ok h, pdecVpos_ok h]
    exact ⟨rfl, rfl⟩

/-- Settles O35: the length check, and each field read as whole bytes; bytes 6 and 7 belong to no field of PGN 129026. -/
theorem pdecCourseSpeedCompletes : Obligations.PdecCourseSpeedCompletes := by
  refine ⟨fun P s h => ?_, fun P s h => ?_⟩
  · rw [exec_pdecCogsog, exec_pdecVds, pdecCogsog_malformed h, pdecVds_malformed h]
    exact ⟨rfl, rfl⟩
  · rw [exec_pdecCogsog, exec_pdecVds, pdecCogsog_ok h, map_vdsOut_pdecVds h, csCog_eq]
    exact ⟨rfl, rfl⟩

/-- Settles O36: the two cases of `pdecGnss_eq`; the second has the length that byte 42 announces. -/
theorem pdecGnssCompletes : Obligations.PdecGnssCompletes := by
  refine ⟨fun P s h => ?_, fun P n s hlen hcount => ?_⟩
  · rw [exec_pdecGnss, pdecGnss_eq, if_pos h]
    rfl
  · have hn : (if byteAt P 42 = 255 then 0 else byteAt P 42) = n := by
      split <;> omega
    have hwellformed : ¬ (P.length < 43 ∨ (4 ≤ byteAt P 42 ∧ byteAt P 42 ≤ 254) ∨ P.length ≠ 43 + 4 * n) := by
      omega
    rw [exec_pdecGnss, pdecGnss_eq, hn, if_neg hwellformed, Except.map, gnssOut_gnssFields]
    rfl

end

section
/-! SUPPORT. The Fast Packet sender (`44_fast_packet.md` R200 to R203): the header byte in arithmetic, and the frames of a
message as a map over their indices. -/

namespace Sys2Proof.Sender

open Sys2Proof Sys2Proof.Machine Sys2Proof.Config Sys2Proof.Identifier

/-! ### The frames of a message (R200 to R203) -/

/-- The sequence counter and the frame index do not overlap, so `|` is `+`. -/
theorem headerByte_eq (S : SeqCounter) {i : Nat} (hi : i < 8) : headerByte S i = BitVec.ofNat 8 (S.toNat + 32 * i) := by
  have hS : S.toNat < 2 ^ 5 := S.isLt
  apply BitVec.eq_of_toNat_eq
  have hshift : (BitVec.ofNat 8 i <<< 5).toNat = i <<< 5 := by
    rw [BitVec.toNat_shiftLeft, BitVec.toNat_ofNat, Nat.mod_eq_of_lt (by omega : i < 2 ^ 8)]
    exact Nat.mod_eq_of_lt (by rw [Nat.shiftLeft_eq]; omega)
  have hseq : (S.zeroExtend 8).toNat = S.toNat := BitVec.toNat_setWidth_of_le (by omega)
  rw [headerByte, BitVec.toNat_or, hshift, hseq, Nat.or_comm, ← Nat.shiftLeft_add_eq_or_of_lt hS, Nat.shiftLeft_eq,
    BitVec.toNat_ofNat]
  omega

theorem framesOut_eq_flatMap (fs : List Frame) : framesOut fs = fs.flatMap fun f => leBytes 4 f.id.toNat ++ f.data := by
  induction fs with
  | nil => rfl
  | cons f fs ih => rw [framesOut, ih, List.flatMap_cons]; rfl

/-- The data bytes of frame `i` of a message. -/
def frameData (S : SeqCounter) (P : Packet) (i : Nat) : Packet :=
  if i = 0 then headerFrame S P else contFrame S P i

section
variable (id : Ident) (S : SeqCounter) {P : Packet}

theorem fptx_empty (h : P.length = 0) : fptx id S P = .error .malformedPayload := if_pos h

theorem fptx_too_large (h : 55 < P.length) : fptx id S P = .error .payloadTooLarge := by
  simp only [fptx]
  rw [if_neg (by omega), if_pos h]

theorem fptx_ok (hpos : 1 ≤ P.length) (hle : P.length ≤ 55) :
    fptx id S P = .ok (⟨id, headerFrame S P⟩ ::
      (List.range (contCount P.length)).map fun j => ⟨id, contFrame S P (j + 1)⟩) := by
  simp only [fptx]
  rw [if_neg (by omega), if_neg (Nat.not_lt.mpr hle)]

/-- The index of a continuation frame fits three bits (R201). -/
theorem contCount_le_seven (hle : P.length ≤ 55) : contCount P.length ≤ 7 := by
  rw [contCount]
  omega

/-- The frames in the order of their indices. -/
theorem fptx_eq_map_range (hpos : 1 ≤ P.length) (hle : P.length ≤ 55) :
    fptx id S P = .ok ((List.range (1 + contCount P.length)).map fun i => ⟨id, frameData S P i⟩) := by
  rw [fptx_ok id S hpos hle, Nat.add_comm, List.range_succ_eq_map, List.map_cons, List.map_map]
  rfl

theorem exec_fptx (P : Packet) (s : State) :
    exec (.fptx id S P) s = .next (s.respond (answerPacket ((fptx id S P).map fptxOut))) :=
  congrArg Host.Outcome.next (s.answer_eq_respond _)

end

/-- A frame of a message with its index below 8, byte by byte. -/
theorem frameData_eq (S : SeqCounter) (P : Packet) {i : Nat} (hi : i < 8) :
    frameData S P i = BitVec.ofNat 8 (S.toNat + 32 * i) ::
      (if i = 0 then BitVec.ofNat 8 P.length :: (List.range 6).map (fun p => P.getD p 0xFF#8)
      else (List.range 7).map fun j => P.getD (6 + 7 * (i - 1) + j) 0xFF#8) := by
  rw [← headerByte_eq S hi]
  by_cases h0 : i = 0
  · subst h0
    rfl
  · rw [frameData, if_neg h0, if_neg h0]
    rfl

end Sys2Proof.Sender

open Sys2Proof.Machine Sys2Proof.Sender

/-- Settles O41: the two refused lengths, and the frames one by one (`frameData_eq`). -/
theorem fptxCompletes : Obligations.FptxCompletes := by
  refine ⟨fun id S P s => ⟨fun hempty => ?_, fun hlarge => ?_⟩, fun id S P s hpos hle => ?_⟩
  · rw [exec_fptx, fptx_empty id S hempty]
    rfl
  · rw [exec_fptx, fptx_too_large id S hlarge]
    rfl
  · rw [exec_fptx, fptx_eq_map_range id S hpos hle, Except.map, answerPacket, fptxOut, framesOut_eq_flatMap,
      List.length_map, List.length_range, List.flatMap_map]
    refine congrArg (fun fs => Host.Outcome.next (s.respond (_ :: _ :: fs))) (List.flatMap_congr fun i hi => ?_)
    have hi : i < 8 := by
      have hN := contCount_le_seven hle
      rw [List.mem_range] at hi
      omega
    rw [frameData_eq S P hi]

end

section
/-! SUPPORT. The Fast Packet receiver (`44_fast_packet.md` R210 to R222): which sessions the sweep keeps, what `FPTICK` and
`FPRX` answer, and what a dropped frame leaves. -/

namespace Sys2Proof.Receiver

open Sys2Proof Sys2Proof.Machine Sys2Proof.Config Sys2Proof.RequestFormats Sys2Proof.Identifier

/-! ### The sweep (R213) and the counter (R210) -/

theorem expired_iff {c : Params} {now : Ticks} {sn : Session} :
    expired c now sn = true ↔ sn.last.toNat ≤ now.toNat ∧ c.fpTimeout < now.toNat - sn.last.toNat := by
  rw [expired, decide_eq_true_iff, age]
  split <;> omega

theorem mem_sweep_iff {c : Params} {now : Ticks} {t : List Session} {sn : Session} : sn ∈ sweep c now t ↔
    sn ∈ t ∧ ¬ (sn.last.toNat ≤ now.toNat ∧ c.fpTimeout < now.toNat - sn.last.toNat) := by
  rw [mem_sweep, ← expired_iff, Bool.not_eq_true]

theorem sweepCount_eq_sub (c : Params) (now : Ticks) (t : List Session) :
    sweepCount c now t = t.length - (sweep c now t).length := by
  have := length_sweep_add_count c now t
  omega

theorem bump_eq (d : BitVec 32) : bump d = BitVec.ofNat 32 (min (d.toNat + 1) (2 ^ 32 - 1)) := by
  have hd : d.toNat < 2 ^ 32 := d.isLt
  apply BitVec.eq_of_toNat_eq
  rw [bump, BitVec.toNat_ofNat]
  split
  next hsat => rw [hsat]; rfl
  next hne =>
    have hlt : d.toNat ≠ 0xFFFFFFFF := fun h => hne (BitVec.eq_of_toNat_eq h)
    rw [BitVec.toNat_add, BitVec.toNat_ofNat]
    omega

/-! ### `FPTICK` (R222) -/

theorem readFptick_ok {bs : Packet} {i : Instr} (h : readFptick bs = .ok i) :
    bs.length = 8 ∧ ∃ now : Ticks, i = .fptick now := by
  obtain ⟨⟨now, rest⟩, hread, hfinish⟩ := except_bind_ok h
  obtain ⟨hrest, hi, -⟩ := finish_ok hfinish
  have hbs : bs = leBytes 8 now.toNat ++ rest := readBits_ok hread
  rw [hbs, hrest, List.append_nil, leBytes_length]
  exact ⟨rfl, now, hi⟩

theorem exec_fptick (now : Ticks) (s : State) : exec (.fptick now) s =
    .next ((s.sweep params now).respond (0x00#8 :: leBytes 2 (min (sweepCount params now s.sess) 65535))) := rfl

/-! ### What `FPRX` answers, and what a dropped frame leaves (R210, R214) -/

theorem returnOk_fprxOut (t : State) (r : FprxResult) :
    t.returnOk (fprxOut r) = t.respond (fprxReply (dispositionCode r.disp) r.nexp r.id r.payload) := by
  rw [State.returnOk_eq_respond, fprxOut, bufOut, fprxReply]
  simp only [List.cons_append, List.append_assoc]
  rfl

theorem exec_fprx (id : Ident) (dlc : Nat) (data : Packet) (now : Ticks) (s : State) : exec (.fprx id dlc data now) s =
    .next ((fprx params id dlc data now s).1.respond (fprxReply (dispositionCode (fprx params id dlc data now s).2.disp)
      (fprx params id dlc data now s).2.nexp (fprx params id dlc data now s).2.id
      (fprx params id dlc data now s).2.payload)) :=
  congrArg Host.Outcome.next (returnOk_fprxOut _ _)

theorem fprx_of_error {c : Params} {id : Ident} {dlc : Nat} {data : Packet} {now : Ticks} {s : State} {d : Disposition}
    (h : acceptFrame c (sweep c now s.sess) id dlc data now s.opened = .error d) :
    fprx c id dlc data now s = ((s.sweep c now).countDrop, ⟨d, sweepCount c now s.sess, id, []⟩) := by
  simp only [fprx, State.sweep_sess, State.sweep_opened, h]

theorem exec_fprx_dropped {id : Ident} {dlc : Nat} {data : Packet} {now : Ticks} {s : State} {d : Disposition}
    (h : acceptFrame params (sweep params now s.sess) id dlc data now s.opened = .error d) :
    exec (.fprx id dlc data now) s = .next (afterDrop s id now (dispositionCode d)) := by
  rw [exec_fprx, fprx_of_error h, sweepCount_eq_sub, afterDrop, ← bump_eq]
  rfl

/-! ### The fields of a frame (R212) -/

theorem frameIndex_eq (data : Packet) : frameIndex data = byteAt data 0 / 32 := by
  have := byteAt_le data 0
  rw [frameIndex, toNat_extractLsb'_div]
  change byteAt data 0 / 32 % 8 = _
  omega

theorem acceptFrame_of_badDlc (c : Params) (t : List Session) (id : Ident) {dlc : Nat} (data : Packet) (now : Ticks)
    (n : Nat) (h : dlc ≠ 8) : acceptFrame c t id dlc data now n = .error .dropBadDlc := if_pos h

theorem acceptFrame_first (c : Params) (t : List Session) (id : Ident) {data : Packet} (now : Ticks) (n : Nat)
    (h : frameIndex data = 0) : acceptFrame c t id 8 data now n = acceptFirst c t id data now n := by
  rw [acceptFrame, if_neg (not_not.mpr rfl), if_pos h]

theorem acceptFrame_cont (c : Params) (t : List Session) (id : Ident) {data : Packet} (now : Ticks) (n : Nat)
    (h : frameIndex data ≠ 0) : acceptFrame c t id 8 data now n = acceptCont t id data now := by
  rw [acceptFrame, if_neg (not_not.mpr rfl), if_neg h]

theorem acceptFirst_of_badLen (c : Params) (t : List Session) (id : Ident) {data : Packet} (now : Ticks) (n : Nat)
    (h : (frameLen data).toNat = 0 ∨ 55 < (frameLen data).toNat) :
    acceptFirst c t id data now n = .error .dropBadLen := if_pos h

end Sys2Proof.Receiver

open Sys2Proof.Machine Sys2Proof.Config Sys2Proof.Receiver

/-- Settles O43: both reasons come before the table is looked at, and a dropped frame leaves `afterDrop`. -/
theorem garbledFramesAreDropped : Obligations.GarbledFramesAreDropped := by
  intro id dlc data now s
  refine ⟨fun hdlc => exec_fprx_dropped (acceptFrame_of_badDlc params _ id data now _ hdlc.ne),
    fun hfirst hlen => exec_fprx_dropped (d := .dropBadLen) ?_⟩
  rw [acceptFrame_first _ _ _ _ _ ((frameIndex_eq data).trans hfirst)]
  exact acceptFirst_of_badLen params _ id now _ hlen

/-- Settles O50: `FPTICK` is the sweep and the number of sessions it removed. -/
theorem fptickCompletes : Obligations.FptickCompletes := by
  refine ⟨fun rest i hdec => readFptick_ok hdec, fun now s => ⟨_, exec_fptick now s, fun sn => mem_sweep_iff,
    List.filter_sublist, rfl, rfl, rfl, ?_⟩⟩
  rw [sweepCount_eq_sub]
  rfl

end

section
/-! SUPPORT. Fast Packet round trip (`44_fast_packet.md` R223): each frame of a message that is stored takes its index off the
indices still pending (`Receiving`), and the one that takes the last off delivers the payload. -/

namespace Sys2Proof.RoundTrip

open Sys2Proof Sys2Proof.Machine Sys2Proof.Config Sys2Proof.Identifier Sys2Proof.Sender Sys2Proof.Receiver

/-! ### The frames of a message as the receiver reads them (R212) -/

theorem frameIndex_headerByte (S : SeqCounter) {i : Nat} (hi : i < 8) (rest : Packet) :
    frameIndex (headerByte S i :: rest) = i := by
  have hS : S.toNat < 2 ^ 5 := S.isLt
  rw [frameIndex, List.getD_cons_zero, toNat_extractLsb'_div, headerByte_eq S hi, BitVec.toNat_ofNat]
  omega

theorem frameSeq_headerByte (S : SeqCounter) {i : Nat} (hi : i < 8) (rest : Packet) :
    frameSeq (headerByte S i :: rest) = S := by
  have hS : S.toNat < 2 ^ 5 := S.isLt
  apply BitVec.eq_of_toNat_eq
  rw [frameSeq, List.getD_cons_zero, toNat_extractLsb'_div, headerByte_eq S hi, BitVec.toNat_ofNat]
  omega

theorem frameIndex_headerFrame (S : SeqCounter) (P : Packet) : frameIndex (headerFrame S P) = 0 :=
  frameIndex_headerByte S (by omega) _

theorem frameIndex_contFrame (S : SeqCounter) (P : Packet) {i : Nat} (hi : i < 8) : frameIndex (contFrame S P i) = i :=
  frameIndex_headerByte S hi _

theorem frameSeq_contFrame (S : SeqCounter) (P : Packet) {i : Nat} (hi : i < 8) : frameSeq (contFrame S P i) = S :=
  frameSeq_headerByte S hi _

theorem frameLen_headerFrame (S : SeqCounter) {P : Packet} (hle : P.length ≤ 55) :
    (frameLen (headerFrame S P)).toNat = P.length :=
  Nat.mod_eq_of_lt (by omega)

theorem length_padBytes (P : Packet) (b n : Nat) : (padBytes P b n).length = n := by
  rw [padBytes, List.length_map, List.length_range]

theorem length_headerFrame (S : SeqCounter) (P : Packet) : (headerFrame S P).length = 8 := rfl

theorem length_contFrame (S : SeqCounter) (P : Packet) (i : Nat) : (contFrame S P i).length = 8 := rfl

theorem take_drop_headerFrame (S : SeqCounter) (P : Packet) : ((headerFrame S P).drop 2).take 6 = padBytes P 0 6 := rfl

theorem take_drop_contFrame (S : SeqCounter) (P : Packet) (i : Nat) :
    ((contFrame S P i).drop 1).take 7 = padBytes P (contOffset i) 7 := rfl

/-- Below the length of the payload, padded bytes are payload bytes. -/
theorem getElem?_padBytes {P : Packet} {b n j : Nat} (hj : j < n) (hP : b + j < P.length) :
    (padBytes P b n)[j]? = P[b + j]? := by
  rw [padBytes, List.getElem?_map, List.getElem?_range hj, Option.map_some, padByte, List.getD_eq_getElem _ _ hP,
    List.getElem?_eq_getElem hP]

/-- Storing a stretch of padded payload bytes puts the payload there, and leaves the padding out. -/
theorem getElem?_storeBytes_padBytes {P buf : Packet} (hbuf : P.length ≤ buf.length) (b n p : Nat) :
    (storeBytes P.length buf b (padBytes P b n))[p]? =
      if b ≤ p ∧ p < b + n ∧ p < P.length then P[p]? else buf[p]? := by
  rw [getElem?_storeBytes, length_padBytes]
  by_cases hp : b ≤ p ∧ p < b + n ∧ p < P.length
  · rw [if_pos (by omega), if_pos hp, getElem?_padBytes (by omega) (by omega), Nat.add_sub_cancel' hp.1]
  · rw [if_neg (by omega), if_neg hp]

/-! ### Completion (R219) -/

theorem getLsbD_seenBit {i : Nat} (hi : i < 8) (j : Nat) : (seenBit i).getLsbD j = decide (j = i) := by
  change (BitVec.twoPow 8 i).getLsbD j = _
  rw [BitVec.getLsbD_twoPow, decide_eq_true hi, Bool.true_and]
  exact decide_eq_decide.mpr eq_comm

/-- A message is complete when the frames seen are exactly those with an index up to `N(L)`. -/
theorem sessionComplete_iff (sn : Session) :
    sessionComplete sn = true ↔ ∀ i, sn.seen.getLsbD i = decide (i ≤ contCount sn.len.toNat) := by
  rw [sessionComplete, decide_eq_true_iff, fullMask]
  constructor
  · intro h i
    rw [← BitVec.testBit_toNat, h, Nat.testBit_two_pow_sub_one]
    exact decide_eq_decide.mpr Nat.lt_succ_iff
  · intro h
    refine Nat.eq_of_testBit_eq fun i => ?_
    rw [BitVec.testBit_toNat, h, Nat.testBit_two_pow_sub_one]
    exact decide_eq_decide.mpr Nat.lt_succ_iff.symm

/-! ### A session that has received some frames of a message -/

/-- `sn` is the session of identifier `id` for the message with counter `S` and payload `P` when the continuation frames with
the indices `pending` are still to come, and all its other frames are stored. -/
structure Receiving (id : Ident) (S : SeqCounter) (P : Packet) (pending : List Nat) (sn : Session) : Prop where
  key : sn.key = id
  seq : sn.seq = S
  fits : P.length ≤ 55
  buf_len : sn.buf.length = 55
  message : HoldsMessage sn P
  nodup : pending.Nodup
  indices : ∀ i ∈ pending, 1 ≤ i ∧ i ≤ contCount P.length
  seen : ∀ i, sn.seen.getLsbD i = decide (i ≤ contCount P.length ∧ i ∉ pending)

section
variable {id : Ident} {S : SeqCounter} {P : Packet} {pending : List Nat} {i : Nat} {sn : Session}

/-- The session that frame 0 opens waits for all the continuation frames. -/
theorem receiving_openSession (id : Ident) (S : SeqCounter) (now : Ticks) (n : Nat) (hle : P.length ≤ 55)
    (hpending : pending.Perm ((List.range (contCount P.length)).map (· + 1))) :
    Receiving id S P pending (openSession id (headerFrame S P) now n) where
  key := rfl
  seq := frameSeq_headerByte S (by omega) _
  fits := hle
  buf_len := by rw [openSession, length_storeBytes, length_freshBuf]
  message := by
    refine ⟨frameLen_headerFrame S hle, fun p ⟨hp, hseen⟩ => ?_⟩
    have hp : p < P.length := (frameLen_headerFrame S hle) ▸ hp
    have hframe : frameOf p = 0 := by
      rwa [openSession, getLsbD_seenBit (by omega), decide_eq_true_iff] at hseen
    rw [frameOf] at hframe
    rw [openSession, frameLen_headerFrame S hle, take_drop_headerFrame,
      getElem?_storeBytes_padBytes (by rwa [length_freshBuf]), if_pos (by omega)]
  nodup := hpending.nodup_iff.mpr (List.nodup_range.map (add_left_injective 1))
  indices := fun i hi => by
    obtain ⟨j, hj, rfl⟩ := List.mem_map.mp (hpending.mem_iff.mp hi)
    exact ⟨Nat.succ_pos j, List.mem_range.mp hj⟩
  seen := fun i => by
    have hmem : i ∈ pending ↔ 1 ≤ i ∧ i ≤ contCount P.length := by
      rw [hpending.mem_iff, List.mem_map]
      exact ⟨fun ⟨j, hj, hij⟩ => by rw [List.mem_range] at hj; omega,
        fun hi => ⟨i - 1, List.mem_range.mpr (by omega), by omega⟩⟩
    rw [openSession, getLsbD_seenBit (by omega), decide_eq_decide, hmem]
    omega

/-- The index of a pending frame fits its three bits. -/
theorem Receiving.index_lt (h : Receiving id S P (i :: pending) sn) : i < 8 := by
  have hi := (h.indices i List.mem_cons_self).2
  have hN := contCount_le_seven h.fits
  omega

theorem Receiving.frameIndex_ne_zero (h : Receiving id S P (i :: pending) sn) : frameIndex (contFrame S P i) ≠ 0 := by
  rw [frameIndex_contFrame S P h.index_lt]
  exact Nat.pos_iff_ne_zero.mp (h.indices i List.mem_cons_self).1

/-- A pending continuation frame passes the checks of R218. -/
theorem Receiving.acceptCont {t : List Session} (h : Receiving id S P (i :: pending) sn)
    (hlookup : lookupSession id t = some sn) (now : Ticks) :
    Machine.acceptCont t id (contFrame S P i) now = .ok (extendSession sn (contFrame S P i) now) := by
  obtain ⟨-, hi⟩ := h.indices i List.mem_cons_self
  have hunseen : sn.seen.getLsbD i = false := by
    rw [h.seen, decide_eq_false]
    exact fun hseen => hseen.2 List.mem_cons_self
  simp only [Machine.acceptCont, hlookup]
  rw [frameSeq_contFrame S P h.index_lt, frameIndex_contFrame S P h.index_lt, h.message.1, hunseen,
    if_neg (not_not.mpr h.seq), if_neg (Nat.not_lt.mpr hi), if_neg Bool.false_ne_true]

/-- The session with a pending frame stored waits for the others. -/
theorem Receiving.extendSession (h : Receiving id S P (i :: pending) sn) (now : Ticks) :
    Receiving id S P pending (Machine.extendSession sn (contFrame S P i) now) := by
  obtain ⟨hpos, hi⟩ := h.indices i List.mem_cons_self
  obtain ⟨hnew, hnodup⟩ := List.nodup_cons.mp h.nodup
  have hindex : frameIndex (contFrame S P i) = i := frameIndex_contFrame S P h.index_lt
  have hseen (j : Nat) : (Machine.extendSession sn (contFrame S P i) now).seen.getLsbD j =
      (sn.seen.getLsbD j || decide (j = i)) := by
    rw [Machine.extendSession, hindex, BitVec.getLsbD_or, getLsbD_seenBit h.index_lt]
  refine
    { key := h.key, seq := h.seq, fits := h.fits, buf_len := ?_, message := ⟨h.message.1, fun p ⟨hp, hstored⟩ => ?_⟩
      nodup := hnodup, indices := fun j hj => h.indices j (List.mem_cons_of_mem i hj), seen := fun j => ?_ }
  · rw [Machine.extendSession, length_storeBytes, h.buf_len]
  · have hp : p < P.length := h.message.1 ▸ hp
    rw [hseen, Bool.or_eq_true, decide_eq_true_iff] at hstored
    rw [Machine.extendSession, h.message.1, hindex, take_drop_contFrame,
      getElem?_storeBytes_padBytes (by rw [h.buf_len]; exact h.fits)]
    split
    next => rfl
    next houtside =>
      have hother : frameOf p ≠ i := by
        rw [frameOf]
        rw [contOffset] at houtside
        omega
      exact h.message.2 p ⟨h.message.1.symm ▸ hp, hstored.resolve_right hother⟩
  · rw [hseen, h.seen, ← Bool.decide_or]
    refine decide_eq_decide.mpr ?_
    rw [List.mem_cons]
    by_cases hj : j = i
    · subst hj
      simp [hi, hnew]
    · simp [hj]

/-- A message is complete when no frame is pending. -/
theorem Receiving.complete_iff (h : Receiving id S P pending sn) : sessionComplete sn = true ↔ pending = [] := by
  rw [sessionComplete_iff, h.message.1, List.eq_nil_iff_forall_not_mem]
  refine forall_congr' fun i => ?_
  rw [h.seen, decide_eq_decide]
  exact ⟨fun hseen hi => (hseen.mpr (h.indices i hi).2).2 hi, fun hi => and_iff_left hi⟩

/-- A complete session holds the payload. -/
theorem Receiving.payload (h : Receiving id S P [] sn) : sn.buf.take sn.len.toNat = P := by
  obtain ⟨hlen, hstored⟩ := h.message
  refine List.ext_getElem? fun p => ?_
  rw [hlen, List.getElem?_take]
  split
  next hp =>
    refine hstored p ⟨hlen.symm ▸ hp, ?_⟩
    rw [h.seen, decide_eq_true_iff, frameOf, contCount]
    exact ⟨by omega, List.not_mem_nil⟩
  next hp => rw [List.getElem?_eq_none (by omega)]

end

/-! ### One frame offered to the machine -/

theorem decode_encode_fprx (id : Ident) {data : Packet} (now : Ticks) (h : data.length = 8) :
    decode (encode (.fprx id 8 data now)) = .ok (.fprx id 8 data now) := by
  have hbytes (rest : Packet) : readBytes 8 (data ++ rest) = .ok (data, rest) := h ▸ readBytes_append data rest
  have hnow : readBits 8 64 (writeBits 8 now) = .ok (now, []) := by
    simpa only [List.append_nil] using readBits_writeBits now (by omega) []
  change readFprx (writeBits 4 id ++ writeNat 8 ++ data ++ writeBits 8 now) = _
  rw [readFprx, List.append_assoc, List.append_assoc, readBits_writeBits id (by omega), except_ok_bind]
  simp only [readNat_writeNat (by omega : 8 < 256), hbytes, hnow, except_ok_bind]
  exact finish_nil (by simp [Instr.wellFormed, frameOk, h])

theorem offers_cons (id : Ident) (data : Packet) (now : Ticks) (rest : List (Packet × Ticks)) :
    offers id ((data, now) :: rest) = .request (encode (.fprx id 8 data now)) :: offers id rest := rfl

/-- The state in which session `sn` has been stored from the frame that stood first in the host's stream. -/
def afterStore (s : State) (data : Packet) (now : Ticks) (sn : Session) : State :=
  ((s.popInbox.sweep params now).putSession sn).countOpened data

section
variable {id : Ident} {data : Packet} {now : Ticks} {rest : List (Packet × Ticks)} {s : State} {sn : Session}

theorem step_offer (hin : s.inbox = offers id ((data, now) :: rest)) (hlen : data.length = 8) :
    step s = exec (.fprx id 8 data now) s.popInbox := by
  rw [offers_cons] at hin
  simp only [step, hin, decode_encode_fprx id now hlen]

theorem fprx_of_ok {c : Params} (h : acceptFrame c (sweep c now s.sess) id 8 data now s.opened = .ok sn) :
    fprx c id 8 data now s =
      finishFrame (((s.sweep c now).putSession sn).countOpened data) sn (sweepCount c now s.sess) id := by
  simp only [fprx, State.sweep_sess, State.sweep_opened, h]

variable (hin : s.inbox = offers id ((data, now) :: rest)) (hlen : data.length = 8)
  (haccept : acceptFrame params (sweep params now s.sess) id 8 data now s.opened = .ok sn)
include hin hlen haccept

theorem step_accepted (hpartial : sessionComplete sn = false) : step s =
    .next ((afterStore s data now sn).respond (fprxReply 0x00#8 (sweepCount params now s.sess) id [])) := by
  have hfprx : fprx params id 8 data now s.popInbox =
      (afterStore s data now sn, ⟨.accepted, sweepCount params now s.sess, id, []⟩) :=
    (fprx_of_ok (s := s.popInbox) haccept).trans (if_neg (Bool.eq_false_iff.mp hpartial))
  rw [step_offer hin hlen, exec_fprx, hfprx]
  rfl

theorem step_completed (hcomplete : sessionComplete sn = true) : step s =
    .next (((afterStore s data now sn).dropSession id).respond
      (fprxReply 0x01#8 (sweepCount params now s.sess) id (sn.buf.take sn.len.toNat))) := by
  have hfprx : fprx params id 8 data now s.popInbox = ((afterStore s data now sn).dropSession id,
      ⟨.complete, sweepCount params now s.sess, id, sn.buf.take sn.len.toNat⟩) :=
    (fprx_of_ok (s := s.popInbox) haccept).trans (if_pos hcomplete)
  rw [step_offer hin hlen, exec_fprx, hfprx]
  rfl

end

/-! ### All the frames -/

/-- A session outlives a sweep that comes at most `FP_TIMEOUT` ticks after its last frame. -/
theorem lookupSession_sweep_of_live {c : Params} {now : Ticks} {t : List Session} {id : Ident} {sn : Session}
    (hw : tableWf t = true) (hlookup : lookupSession id t = some sn)
    (hlive : now.toNat - sn.last.toNat ≤ c.fpTimeout) : lookupSession id (sweep c now t) = some sn := by
  have hkept : expired c now sn = false := Bool.eq_false_iff.mpr fun h => by
    have := (expired_iff.mp h).2
    omega
  rw [lookupSession_sweep hw, hlookup, Option.filter_some, hkept]
  rfl

theorem run_succ_of_next {M : Host.Core} {s t : M.State} (k : Nat) (h : M.step s = .next t) :
    M.run (k + 1) s = M.run k t := by
  simp only [Host.Core.run, h]

/-- From `s` the machine answers `ACCEPTED` to the next `k` frames and then delivers `P`, taking the last
action of the host's stream, leaving no session for `id` and dropping nothing. -/
def Delivers (id : Ident) (P : Packet) (k : Nat) (s : State) : Prop :=
  ∃ (t : State) (replies : List Packet) (reply : Packet), Sys2Proof.core.run (k + 1) s = .next t ∧
    t.responses = s.responses ++ replies ++ [reply] ∧ replies.length = k ∧
    (∀ r ∈ replies, ∃ n : Nat, r = fprxReply 0x00#8 n id []) ∧ (∃ n : Nat, reply = fprxReply 0x01#8 n id P) ∧
    t.inbox = [] ∧ lookupSession id t.sess = none ∧ t.dropped = s.dropped

theorem Delivers.of_completed {id : Ident} {P : Packet} {s t : State} (hstep : step s = .next t)
    (hresponses : ∃ n, t.responses = s.responses ++ [fprxReply 0x01#8 n id P]) (hinbox : t.inbox = [])
    (hlookup : lookupSession id t.sess = none) (hdropped : t.dropped = s.dropped) : Delivers id P 0 s := by
  obtain ⟨n, hresponses⟩ := hresponses
  refine ⟨t, [], fprxReply 0x01#8 n id P, run_succ_of_next (M := Sys2Proof.core) 0 hstep, ?_, rfl,
    List.forall_mem_nil _, ⟨n, rfl⟩, hinbox, hlookup, hdropped⟩
  rw [hresponses, List.append_nil]

theorem Delivers.of_accepted {id : Ident} {P : Packet} {k : Nat} {s t : State} (h : Delivers id P k t)
    (hstep : step s = .next t) (hresponses : ∃ n, t.responses = s.responses ++ [fprxReply 0x00#8 n id []])
    (hdropped : t.dropped = s.dropped) : Delivers id P (k + 1) s := by
  obtain ⟨n, hresponses⟩ := hresponses
  obtain ⟨u, replies, reply, hrun, hu, hlength, hreplies, hreply, hinbox, hlookup, hudropped⟩ := h
  refine ⟨u, fprxReply 0x00#8 n id [] :: replies, reply, (run_succ_of_next (M := Sys2Proof.core) _ hstep).trans hrun, ?_,
    congrArg (· + 1) hlength, ?_, hreply, hinbox, hlookup, hudropped.trans hdropped⟩
  · rw [hu, hresponses, List.append_assoc s.responses, List.singleton_append]
  · exact List.forall_mem_cons.mpr ⟨⟨n, rfl⟩, hreplies⟩

/-- If the next frame is stored and leaves `pending`, and the frames of `pending` follow it, the payload is delivered. -/
theorem delivers_of_receiving {id : Ident} {S : SeqCounter} {P : Packet} (pending : List Nat) {data : Packet} {now : Ticks}
    {times : List Ticks} {s : State} {sn : Session}
    (hin : s.inbox = offers id ((data :: pending.map (contFrame S P)).zip (now :: times))) (hlen : data.length = 8)
    (haccept : acceptFrame params (sweep params now s.sess) id 8 data now s.opened = .ok sn)
    (hreceiving : Receiving id S P pending sn) (hlast : sn.last = now) (hw : tableWf s.sess = true)
    (htimes : times.length = pending.length) (hsteady : steadyTimes params (now :: times)) :
    Delivers id P pending.length s := by
  induction pending generalizing data now times s sn with
  | nil =>
    have hcomplete : sessionComplete sn = true := hreceiving.complete_iff.mpr rfl
    refine .of_completed (step_completed hin hlen haccept hcomplete) ⟨sweepCount params now s.sess, ?_⟩
      (congrArg List.tail hin) (lookupSession_deleteSession_same id _) rfl
    rw [hreceiving.payload]
    rfl
  | cons i pending ih =>
    obtain ⟨next, times, rfl⟩ : ∃ next times', times = next :: times' := List.exists_cons_of_length_eq_add_one htimes
    have hpartial : sessionComplete sn = false := Bool.eq_false_iff.mpr fun h => by
      cases hreceiving.complete_iff.mp h
    obtain ⟨⟨-, hnext⟩, hsteady⟩ := List.isChain_cons_cons.mp hsteady
    have hstored : lookupSession id (storeSession sn (sweep params now s.sess)) = some sn :=
      hreceiving.key ▸ lookupSession_storeSession_same sn _
    have hw' : tableWf (storeSession sn (sweep params now s.sess)) = true := tableWf_storeSession (tableWf_sweep hw)
    have hlive := lookupSession_sweep_of_live hw' hstored (hlast ▸ hnext)
    have haccept' : acceptFrame params (sweep params next (storeSession sn (sweep params now s.sess))) id 8
        (contFrame S P i) next (afterStore s data now sn).opened = .ok (extendSession sn (contFrame S P i) next) :=
      (acceptFrame_cont _ _ _ _ _ hreceiving.frameIndex_ne_zero).trans (hreceiving.acceptCont hlive next)
    have hrest : Delivers id P pending.length
        ((afterStore s data now sn).respond (fprxReply 0x00#8 (sweepCount params now s.sess) id [])) :=
      ih (congrArg List.tail hin) (length_contFrame S P i) haccept' (hreceiving.extendSession next) rfl hw'
        (Nat.succ.inj htimes) hsteady
    exact hrest.of_accepted (step_accepted hin hlen haccept hpartial) ⟨_, rfl⟩ rfl

/-- Frame 0 of a message is stored when its identifier has a session or finds room (R215, R217). -/
theorem acceptFrame_headerFrame {c : Params} {t : List Session} {id : Ident} {S : SeqCounter} {P : Packet} (now : Ticks)
    (n : Nat) (hpos : 1 ≤ P.length) (hle : P.length ≤ 55)
    (hroom : lookupSession id t ≠ none ∨ tableFull c t.length = false) :
    acceptFrame c t id 8 (headerFrame S P) now n = .ok (openSession id (headerFrame S P) now n) := by
  have hfree : ¬ ((lookupSession id t).isNone && tableFull c t.length) = true := by
    rw [Bool.and_eq_true, Option.isNone_iff_eq_none]
    rintro ⟨hnone, hfull⟩
    rcases hroom with h | h
    · exact h hnone
    · cases hfull.symm.trans h
  have hlen : ¬ (P.length = 0 ∨ fpMaxLen < P.length) := by
    change ¬ (P.length = 0 ∨ 55 < P.length)
    omega
  rw [acceptFrame_first _ _ _ _ _ (frameIndex_headerFrame S P)]
  simp only [acceptFirst, frameLen_headerFrame S hle]
  rw [if_neg hlen, if_neg hfree]

theorem fptx_eq_ok_iff {id : Ident} {S : SeqCounter} {P : Packet} {frames : List Frame} :
    fptx id S P = .ok frames ↔ (1 ≤ P.length ∧ P.length ≤ 55) ∧ frames = ⟨id, headerFrame S P⟩ ::
      (List.range (contCount P.length)).map fun j => ⟨id, contFrame S P (j + 1)⟩ := by
  by_cases hempty : P.length = 0
  · rw [fptx_empty id S hempty]
    simp [hempty]
  by_cases hlarge : 55 < P.length
  · rw [fptx_too_large id S hlarge]
    simp [hlarge]
  rw [fptx_ok id S (by omega) (by omega), Except.ok.injEq, eq_comm (b := frames)]
  exact (and_iff_right ⟨by omega, by omega⟩).symm

/-- Continuation frames in any order are the frames of their indices in that order. -/
theorem exists_indices_of_perm {id : Ident} {S : SeqCounter} {P : Packet} {N : Nat} (hN : N ≤ 7) {order : List Frame}
    (h : order.Perm ((List.range N).map fun j => ⟨id, contFrame S P (j + 1)⟩)) :
    ∃ pending : List Nat, pending.Perm ((List.range N).map (· + 1)) ∧
      order.map Frame.data = pending.map (contFrame S P) := by
  have hindex : ∀ j ∈ List.range N, frameIndex (contFrame S P (j + 1)) = j + 1 := fun j hj => by
    rw [List.mem_range] at hj
    exact frameIndex_contFrame S P (by omega)
  refine ⟨order.map fun f => frameIndex f.data, ?_, ?_⟩
  · refine (h.map _).trans (List.Perm.of_eq ?_)
    rw [List.map_map]
    exact List.map_congr_left hindex
  · rw [List.map_map]
    refine List.map_congr_left fun f hf => ?_
    obtain ⟨j, hj, rfl⟩ := List.mem_map.mp (h.mem_iff.mp hf)
    exact congrArg (contFrame S P) (hindex j hj).symm

end Sys2Proof.RoundTrip

open Sys2Proof.Machine Sys2Proof.Sender Sys2Proof.RoundTrip

/-- Settles O55: frame 0 opens a session that waits for all the continuation frames, whatever their order, and each of them
takes its index off (`delivers_of_receiving`). -/
theorem fastPacketRoundTrip : Obligations.FastPacketRoundTrip := by
  intro id S P s first conts order times hinv hfptx hperm hlen hsteady hroom hin
  obtain ⟨⟨hpos, hle⟩, hframes⟩ := fptx_eq_ok_iff.mp hfptx
  obtain ⟨rfl, rfl⟩ := List.cons.inj hframes
  obtain ⟨pending, hpending, hdata⟩ := exists_indices_of_perm (contCount_le_seven hle) hperm
  have hcount : order.length = pending.length := by simpa using congrArg List.length hdata
  obtain ⟨now, times, rfl⟩ : ∃ now times', times = now :: times' :=
    List.exists_cons_of_length_eq_add_one (hlen.trans (Nat.add_comm 1 _))
  have htimes : times.length = order.length := by
    rw [List.length_cons] at hlen
    omega
  rw [List.map_cons, hdata] at hin
  rw [List.length_cons, htimes, hcount]
  exact delivers_of_receiving pending hin (length_headerFrame S P)
    (acceptFrame_headerFrame now s.opened hpos hle hroom) (receiving_openSession id S now s.opened hle hpending) rfl
    hinv.rising (htimes.trans hcount) hsteady

end

section
/-! SUPPORT. The system command `RDCNT` (`45_system.md` R240): the one request the decoder reads as it, and its response. -/

namespace Sys2Proof.SystemCommand

open Sys2Proof Sys2Proof.Machine

/-- Format `N` (`30_encoding.md` R80) has no operand: after the opcode comes the end of the request. -/
theorem decode_opcode_rdcnt (rest : Packet) : decode (0x50#8 :: rest) = finish .rdcnt rest := rfl

/-- The response goes onto the state as it stands: no sweep before it, and `DROPPED` is not cleared. -/
theorem exec_rdcnt (s : State) : exec .rdcnt s =
    .next (s.respond (0x00#8 :: (leBytes 4 s.dropped.toNat ++ leBytes 2 (min s.sess.length 65535)))) :=
  congrArg Host.Outcome.next (State.returnOk_eq_respond s (rdcntOut (rdcnt s)))

end Sys2Proof.SystemCommand

open Sys2Proof Sys2Proof.Machine Sys2Proof.SystemCommand

/-- Settles O51: a byte after the opcode is refused at the end of the request, and `exec_rdcnt` is the response. -/
theorem rdcntCompletes : Obligations.RdcntCompletes := by
  refine ⟨fun rest i hdec => ?_, exec_rdcnt⟩
  rw [decode_opcode_rdcnt] at hdec
  obtain ⟨hrest, hi, -⟩ := finish_ok hdec
  exact ⟨hrest, hi⟩

end

section
/-! SUPPORT. Failures (`60_exceptions.md` R261 to R263, R266): the table of the commands that fail (`Fails`). A command of the
table is answered with its status byte, and every other command with a response whose first byte is `OK`. -/

namespace Sys2Proof.Failures

open Sys2Proof Sys2Proof.Machine Sys2Proof.Config Sys2Proof.Identifier Sys2Proof.Scaler Sys2Proof.BitPacker
  Sys2Proof.PgnCodecs Sys2Proof.PgnDecoders Sys2Proof.Sender Sys2Proof.Receiver Sys2Proof.SystemCommand

/-! ### Which commands fail, and how -/

/-- Command `i` fails with status `st`: one constructor for each condition of R261 to R263 and for the `IllegalCommand` of
`FENC` (`41_field_scaler.md` R123). -/
inductive Fails : Instr → Status → Prop where
  | addressing {pgn : Pgn} {priority : BitVec 3} {sa da : Byte} (hpdu2 : 240 ≤ pgn.toNat / 256 % 256) (hda : da ≠ 0xFF#8) :
      Fails (.idbuild pgn priority sa da) .invalidAddressing
  | unknownValue {d : Desc} {v : Phys} (hvalue : physIn v = none) (hsentinel : d.hasSentinel = false) :
      Fails (.fenc d v) .illegalCommand
  | shortPayload {i : Instr} {P : Packet} (hi : i = .pdecPosr P ∨ i = .pdecCogsog P ∨ i = .pdecVpos P ∨ i = .pdecVds P)
      (hlen : P.length ≠ 8) : Fails i .malformedPayload
  | gnssPayload {P : Packet} (h : P.length < 43 ∨ (4 ≤ byteAt P 42 ∧ byteAt P 42 ≤ 254) ∨
      P.length ≠ 43 + 4 * (if byteAt P 42 = 255 then 0 else byteAt P 42)) : Fails (.pdecGnss P) .malformedPayload
  | insertOutside {pos : BitVec 16} {width : Nat} {raw : BitVec 64} {buf : Packet}
      (h : 8 * buf.length < pos.toNat + width) : Fails (.bins pos width raw buf) .malformedPayload
  | extractOutside {pos : BitVec 16} {width : Nat} {buf : Packet} (h : 8 * buf.length < pos.toNat + width) :
      Fails (.bext pos width buf) .malformedPayload
  | emptyMessage {id : Ident} {seq : SeqCounter} : Fails (.fptx id seq []) .malformedPayload
  | longMessage {id : Ident} {seq : SeqCounter} {P : Packet} (h : 55 < P.length) : Fails (.fptx id seq P) .payloadTooLarge
  | manyStations {args : GnssArgs} (h : 3 < args.stations.length) : Fails (.pencGnss args) .payloadTooLarge

/-! ### What a command answers -/

section
variable {i : Instr} {s : State} {α : Type} {r : Except Status α} {out : α → Packet}
  (h : exec i s = .next (s.respond (answerPacket (r.map out))))
include h

theorem exec_of_ok {a : α} (hr : r = .ok a) : exec i s = .next (s.respond (0x00#8 :: out a)) := by
  rw [h, hr]
  rfl

theorem exec_of_error {st : Status} (hr : r = .error st) : exec i s = .next (s.respond [statusCode st]) := by
  rw [h, hr]
  rfl

end

@[simp] theorem lastResponse_respond (s : State) (p : Packet) : lastResponse (s.respond p) = p := by
  simp [lastResponse]

theorem packet_eq_of_respond_eq {s t : State} {p q : Packet} (h : s.respond p = t.respond q) : p = q := by
  simpa using congrArg lastResponse h

theorem statusCode_injective : Function.Injective statusCode := by
  intro a b
  cases a <;> cases b <;> decide

theorem Fails.exec_eq {i : Instr} {st : Status} (h : Fails i st) (s : State) :
    exec i s = .next (s.respond [statusCode st]) := by
  cases h with
  | addressing hpdu2 hda => exact exec_idbuild_error s (idbuild_pdu2_of_ne_broadcast _ _ hpdu2 hda)
  | unknownValue hvalue hsentinel => exact exec_fenc_unknown s hvalue hsentinel
  | shortPayload hi hlen =>
    rcases hi with rfl | rfl | rfl | rfl
    · exact exec_of_error (exec_pdecPosr s _) (pdecPosr_malformed hlen)
    · exact exec_of_error (exec_pdecCogsog s _) (pdecCogsog_malformed hlen)
    · exact exec_of_error (exec_pdecVpos s _) (pdecVpos_malformed hlen)
    · exact exec_of_error (exec_pdecVds s _) (pdecVds_malformed hlen)
  | gnssPayload h => exact exec_of_error (exec_pdecGnss s _) ((pdecGnss_eq _).trans (if_pos h))
  | insertOutside h => exact exec_bins_outside s _ h
  | extractOutside h => exact exec_bext_outside s h
  | emptyMessage => exact exec_of_error (exec_fptx _ _ _ s) (fptx_empty _ _ rfl)
  | longMessage h => exact exec_of_error (exec_fptx _ _ _ s) (fptx_too_large _ _ h)
  | manyStations h => exact exec_pencGnss_too_large s h

/-- A pure command that does not fail is answered `OK`. -/
theorem exec_ok_or_fails {i : Instr} (hpure : isPure i = true) (s : State) :
    (∃ fields : Packet, exec i s = .next (s.respond (0x00#8 :: fields))) ∨ ∃ st : Status, Fails i st := by
  cases i with
  | idbuild pgn priority sa da =>
    rcases Nat.lt_or_ge (pgn.toNat / 256 % 256) 240 with hpdu1 | hpdu2
    · exact .inl ⟨_, exec_idbuild_ok s (idbuild_pdu1 _ _ hpdu1 _)⟩
    · by_cases hda : da = 0xFF#8
      · exact .inl ⟨_, exec_idbuild_ok s (hda ▸ idbuild_pdu2 _ _ hpdu2)⟩
      · exact .inr ⟨_, .addressing hpdu2 hda⟩
  | idpack c => exact .inl ⟨_, exec_idpack s c⟩
  | idparse raw => exact .inl ⟨_, exec_idparse s raw⟩
  | idpgn c => exact .inl ⟨_, exec_idpgn s c⟩
  | fenc d v =>
    cases hknown : fencKnown d v with
    | true => exact .inl ⟨_, exec_fenc_known s hknown⟩
    | false =>
      obtain ⟨hsentinel, hvalue⟩ := Bool.or_eq_false_iff.mp hknown
      exact .inr ⟨_, .unknownValue (Option.not_isSome_iff_eq_none.mp (Bool.eq_false_iff.mp hvalue)) hsentinel⟩
  | fdec d raw => exact .inl ⟨_, exec_fdec s d raw⟩
  | bins pos width raw buf =>
    rcases Nat.lt_or_ge (8 * buf.length) (pos.toNat + width) with hout | hin
    · exact .inr ⟨_, .insertOutside hout⟩
    · exact .inl ⟨_, exec_bins_inside s raw hin⟩
  | bext pos width buf =>
    rcases Nat.lt_or_ge (8 * buf.length) (pos.toNat + width) with hout | hin
    · exact .inr ⟨_, .extractOutside hout⟩
    · exact .inl ⟨_, exec_bext_inside s hin⟩
  | pencPosr lat lon => exact .inl ⟨_, exec_pencPosr s lat lon⟩
  | pencCogsog sid ref cog sog => exact .inl ⟨_, exec_pencCogsog s sid ref cog sog⟩
  | pencGnss args =>
    rcases Nat.lt_or_ge 3 args.stations.length with hmany | hfew
    · exact .inr ⟨_, .manyStations hmany⟩
    · exact .inl ⟨_, exec_pencGnss_ok s hfew⟩
  | pencVpos lat lon => exact .inl ⟨_, exec_pencVpos s lat lon⟩
  | pencVds bearing speed pitch alt => exact .inl ⟨_, exec_pencVds s bearing speed pitch alt⟩
  | pdecPosr P =>
    by_cases hlen : P.length = 8
    · exact .inl ⟨_, exec_of_ok (exec_pdecPosr s P) (pdecPosr_ok hlen)⟩
    · exact .inr ⟨_, .shortPayload (.inl rfl) hlen⟩
  | pdecCogsog P =>
    by_cases hlen : P.length = 8
    · exact .inl ⟨_, exec_of_ok (exec_pdecCogsog s P) (pdecCogsog_ok hlen)⟩
    · exact .inr ⟨_, .shortPayload (.inr (.inl rfl)) hlen⟩
  | pdecGnss P =>
    by_cases hmalformed : P.length < 43 ∨ (4 ≤ byteAt P 42 ∧ byteAt P 42 ≤ 254) ∨
        P.length ≠ 43 + 4 * (if byteAt P 42 = 255 then 0 else byteAt P 42)
    · exact .inr ⟨_, .gnssPayload hmalformed⟩
    · exact .inl ⟨_, exec_of_ok (exec_pdecGnss s P) ((pdecGnss_eq P).trans (if_neg hmalformed))⟩
  | pdecVpos P =>
    by_cases hlen : P.length = 8
    · exact .inl ⟨_, exec_of_ok (exec_pdecVpos s P) (pdecVpos_ok hlen)⟩
    · exact .inr ⟨_, .shortPayload (.inr (.inr (.inl rfl))) hlen⟩
  | pdecVds P =>
    by_cases hlen : P.length = 8
    · exact .inl ⟨_, exec_of_ok (exec_pdecVds s P) (if_neg (not_not.mpr hlen))⟩
    · exact .inr ⟨_, .shortPayload (.inr (.inr (.inr rfl))) hlen⟩
  | fptx id seq P =>
    rcases Nat.lt_or_ge 55 P.length with hlong | hle
    · exact .inr ⟨_, .longMessage hlong⟩
    · cases P with
      | nil => exact .inr ⟨_, .emptyMessage⟩
      | cons b P => exact .inl ⟨_, exec_of_ok (exec_fptx _ _ _ s) (fptx_ok id seq (Nat.le_add_left 1 _) hle)⟩
  | fprx | fptick | rdcnt => exact absurd hpure Bool.false_ne_true

/-- R48: a pure command gives a response and does nothing else. -/
theorem exec_of_isPure {i : Instr} (hpure : isPure i = true) (s : State) :
    ∃ p : Packet, exec i s = .next (s.respond p) := by
  rcases exec_ok_or_fails hpure s with ⟨fields, hok⟩ | ⟨st, hfails⟩
  · exact ⟨_, hok⟩
  · exact ⟨_, hfails.exec_eq s⟩

theorem eq_of_isPure_eq_false {i : Instr} (h : isPure i = false) :
    (∃ (id : Ident) (dlc : Nat) (data : Packet) (now : Ticks), i = .fprx id dlc data now) ∨
      (∃ now : Ticks, i = .fptick now) ∨ i = .rdcnt := by
  cases i with
  | fprx id dlc data now => exact .inl ⟨id, dlc, data, now, rfl⟩
  | fptick now => exact .inr (.inl ⟨now, rfl⟩)
  | rdcnt => exact .inr (.inr rfl)
  | _ => exact absurd h Bool.false_ne_true.symm

/-- R266: `FPRX`, `FPTICK` and `RDCNT` are always answered `OK`. -/
theorem exec_of_not_isPure {i : Instr} (h : isPure i = false) (s : State) :
    ∃ (t : State) (fields : Packet), exec i s = .next (t.respond (0x00#8 :: fields)) := by
  rcases eq_of_isPure_eq_false h with ⟨id, dlc, data, now, rfl⟩ | ⟨now, rfl⟩ | rfl
  · exact ⟨_, _, exec_fprx id dlc data now s⟩
  · exact ⟨_, _, exec_fptick now s⟩
  · exact ⟨_, _, exec_rdcnt s⟩

theorem respond_ok_ne_raise {st : Status} (hst : st ≠ .ok) (s t : State) (fields : Packet) :
    t.respond (0x00#8 :: fields) ≠ s.respond [statusCode st] := by
  intro h
  have hbyte : statusCode .ok = statusCode st := (List.cons.inj (packet_eq_of_respond_eq h)).1
  exact hst (statusCode_injective hbyte).symm

/-- The commands answered with the single byte of a failure are those of the table. -/
theorem exec_eq_raise_iff {st : Status} (hst : st ≠ .ok) (i : Instr) (s : State) :
    exec i s = .next (s.respond [statusCode st]) ↔ Fails i st := by
  refine ⟨fun hraise => ?_, fun h => h.exec_eq s⟩
  have not_ok {t : State} {fields : Packet} : exec i s ≠ .next (t.respond (0x00#8 :: fields)) := fun hok =>
    respond_ok_ne_raise hst s t fields (Host.Outcome.next.inj (hok.symm.trans hraise))
  cases hpure : isPure i with
  | false =>
    obtain ⟨t, fields, hok⟩ := exec_of_not_isPure hpure s
    exact absurd hok not_ok
  | true =>
    rcases exec_ok_or_fails hpure s with ⟨fields, hok⟩ | ⟨st', hfails⟩
    · exact absurd hok not_ok
    · have hbytes := packet_eq_of_respond_eq (Host.Outcome.next.inj ((hfails.exec_eq s).symm.trans hraise))
      rwa [← statusCode_injective (List.singleton_inj.mp hbytes)]

end Sys2Proof.Failures

open Sys2Proof Sys2Proof.Machine Sys2Proof.Failures

/-- Settles O9: `IDBUILD` has the one row of the table with this status. -/
theorem invalidAddressingExactly : Obligations.InvalidAddressingExactly := by
  intro i s
  refine (exec_eq_raise_iff (st := .invalidAddressing) Status.noConfusion i s).trans ⟨fun h => ?_, ?_⟩
  · cases h with
    | addressing hpdu2 hda => exact ⟨_, _, _, _, rfl, hpdu2, hda⟩
  · rintro ⟨pgn, priority, sa, da, rfl, hpdu2, hda⟩
    exact .addressing hpdu2 hda

/-- Settles O10: the five rows of the table with this status. -/
theorem malformedPayloadExactly : Obligations.MalformedPayloadExactly := by
  intro i s
  refine (exec_eq_raise_iff (st := .malformedPayload) Status.noConfusion i s).trans ⟨fun h => ?_, ?_⟩
  · cases h with
    | shortPayload hi hlen => exact .inl ⟨_, hi, hlen⟩
    | gnssPayload hmalformed => exact .inr (.inl ⟨_, rfl, hmalformed⟩)
    | insertOutside hout => exact .inr (.inr (.inl ⟨_, _, _, _, rfl, hout⟩))
    | extractOutside hout => exact .inr (.inr (.inr (.inl ⟨_, _, _, rfl, hout⟩)))
    | emptyMessage => exact .inr (.inr (.inr (.inr ⟨_, _, rfl⟩)))
  · rintro (⟨P, hi, hlen⟩ | ⟨P, rfl, hmalformed⟩ | ⟨pos, width, raw, buf, rfl, hout⟩ | ⟨pos, width, buf, rfl, hout⟩ |
      ⟨id, seq, rfl⟩)
    · exact .shortPayload hi hlen
    · exact .gnssPayload hmalformed
    · exact .insertOutside hout
    · exact .extractOutside hout
    · exact .emptyMessage

/-- Settles O11: the two rows of the table with this status. -/
theorem payloadTooLargeExactly : Obligations.PayloadTooLargeExactly := by
  intro i s
  refine (exec_eq_raise_iff (st := .payloadTooLarge) Status.noConfusion i s).trans ⟨fun h => ?_, ?_⟩
  · cases h with
    | longMessage hlong => exact .inl ⟨_, _, _, rfl, hlong⟩
    | manyStations hmany => exact .inr ⟨_, rfl, hmany⟩
  · rintro (⟨id, seq, payload, rfl, hlong⟩ | ⟨args, rfl, hmany⟩)
    · exact .longMessage hlong
    · exact .manyStations hmany

end

section
/-! SUPPORT. The counter `DROPPED` (`10_state.md` R26, `60_exceptions.md` R279): which dispositions are drops, read from the
response byte, and what each command leaves in the counter. -/

namespace Sys2Proof.DropCounter

open Sys2Proof Sys2Proof.Machine Sys2Proof.Config Sys2Proof.Receiver Sys2Proof.SystemCommand Sys2Proof.Failures

theorem toNat_bump (d : BitVec 32) : (bump d).toNat = min (d.toNat + 1) (2 ^ 32 - 1) := by
  rw [bump_eq, BitVec.toNat_ofNat]
  omega

/-- R210: the disposition bytes of the drops are those from 0x10 on. -/
theorem isDrop_iff (d : Disposition) : isDrop d = true ↔ 0x10 ≤ (dispositionCode d).toNat := by
  cases d <;> decide

/-- R26: a drop counts, and a frame that is stored does not, whether or not it completes its message. -/
theorem fprx_dropped (c : Params) (id : Ident) (dlc : Nat) (data : Packet) (now : Ticks) (s : State) :
    (fprx c id dlc data now s).1.dropped =
      if isDrop (fprx c id dlc data now s).2.disp then bump s.dropped else s.dropped := by
  rcases fprx_cases c id dlc data now s with ⟨d, herror, h⟩ | ⟨sn, -, -, h⟩ | ⟨sn, -, -, h⟩
  · rw [h, if_pos (acceptFrame_error herror)]
    rfl
  · rw [h]
    rfl
  · rw [h]
    rfl

theorem exec_dropped {i : Instr} {s t : State} (h : exec i s = .next t)
    (hother : ∀ (id : Ident) (dlc : Nat) (data : Packet) (now : Ticks), i ≠ .fprx id dlc data now) :
    t.dropped = s.dropped := by
  cases hpure : isPure i with
  | true =>
    obtain ⟨p, hp⟩ := exec_of_isPure hpure s
    cases hp.symm.trans h
    rfl
  | false =>
    rcases eq_of_isPure_eq_false hpure with ⟨id, dlc, data, now, hi⟩ | ⟨now, rfl⟩ | rfl
    · exact absurd hi (hother id dlc data now)
    · cases h
      rfl
    · cases h
      rfl

end Sys2Proof.DropCounter

open Sys2Proof Sys2Proof.Machine Sys2Proof.Config Sys2Proof.Receiver Sys2Proof.SystemCommand Sys2Proof.Failures
  Sys2Proof.DropCounter

/-- Settles O52: `FPRX` counts the dispositions that are drops (`fprx_dropped`, `isDrop_iff`), and the other commands leave the
counter (`exec_dropped`). -/
theorem droppedCountsDrops : Obligations.DroppedCountsDrops := by
  refine ⟨State.reset_dropped, fun s => ⟨_, exec_rdcnt s, ?_⟩, fun i s t => exec_dropped,
    fun id dlc data now s t h => ?_⟩
  · rw [lastResponse_respond, List.drop_one, List.tail_cons]
    exact List.take_left' (leBytes_length 4 _)
  · rw [exec_fprx] at h
    cases h
    refine ⟨dispositionCode (fprx params id dlc data now s).2.disp, by rw [lastResponse_respond]; rfl, ?_⟩
    rw [State.respond_dropped, fprx_dropped, ← toNat_bump]
    simp only [isDrop_iff, apply_ite BitVec.toNat]

end

section
/-! SUPPORT. Encodings (`30_encoding.md` Part B). The decoder of each format reads the operands that the encoder wrote and leaves
the bytes after them; a request it accepts is the encoder's; and each operand it answers stands at the offset where it was
read. -/

namespace Sys2Proof.Encodings

open Sys2Proof Sys2Proof.Machine Sys2Proof.Config Sys2Proof.Laws Sys2Proof.RequestFormats

/-! ### Decoding what was encoded -/

theorem width_lt_of_descOk {d : Desc} (h : descOk d = true) : d.width < 256 := by
  simp only [descOk, widthOk, Bool.and_eq_true, decide_eq_true_iff] at h
  omega

theorem width_lt_of_widthOk {w : Nat} (h : widthOk w = true) : w < 256 := by
  simp only [widthOk, Bool.and_eq_true, decide_eq_true_iff] at h
  omega

theorem readGnss_writeGnss {a : GnssArgs} (h : a.stations.length < 256) (rest : Packet) :
    readGnss (writeGnss a ++ rest) = .ok (a, rest) := by
  have hraw8 (x : RawOpt 8) (rest : Packet) : readRaw 1 (writeRaw 1 x ++ rest) = .ok (x, rest) := readRaw_writeRaw 1 x rest
  have hraw16 (x : RawOpt 16) (rest : Packet) : readRaw 2 (writeRaw 2 x ++ rest) = .ok (x, rest) :=
    readRaw_writeRaw 2 x rest
  have hraw32 (x : RawOpt 32) (rest : Packet) : readRaw 4 (writeRaw 4 x ++ rest) = .ok (x, rest) :=
    readRaw_writeRaw 4 x rest
  simp [readGnss, writeGnss, List.append_assoc, readBits_writeBits, hraw8, hraw16, hraw32, readPhys_writePhys,
    readNat_writeNat h, readStations_writeStations]

/-- The five payload decoders share format `D`. -/
theorem readPayload_writeBuf {make : Packet → Instr} {b : Packet} (h : bufOk b = true) (rest : Packet) :
    readPayload make (writeBuf b ++ rest) = finish (make b) rest := by
  simp [readPayload, readBuf_writeBuf (length_of_bufOk h)]

/-- The decoder reads the operands of a well-formed command and leaves what follows them for the end of the request. -/
theorem decodeOperands_encodeOperands {i : Instr} (h : i.wellFormed = true) (rest : Packet) :
    decodeOperands (opcode i) (encodeOperands i ++ rest) = finish i rest := by
  have hraw16 (x : RawOpt 16) (rest : Packet) : readRaw 2 (writeRaw 2 x ++ rest) = .ok (x, rest) :=
    readRaw_writeRaw 2 x rest
  cases i with
  | idbuild pgn priority sa da =>
    simp [opcode, encodeOperands, decodeOperands, readIdbuild, List.append_assoc, readBits_writeBits]
  | idpack id | idpgn id => simp [opcode, encodeOperands, decodeOperands, readFormatC, readCanId_writeCanId]
  | idparse raw => simp [opcode, encodeOperands, decodeOperands, readIdparse, readBits_writeBits]
  | fenc desc value =>
    obtain ⟨hdesc, -⟩ := Bool.and_eq_true_iff.mp h
    simp [opcode, encodeOperands, decodeOperands, readFenc, List.append_assoc,
      readDesc_writeDesc (width_lt_of_descOk hdesc), readPhys_writePhys]
  | fdec desc raw =>
    obtain ⟨hdesc, -⟩ := Bool.and_eq_true_iff.mp h
    simp [opcode, encodeOperands, decodeOperands, readFdec, List.append_assoc,
      readDesc_writeDesc (width_lt_of_descOk hdesc), readBits_writeBits]
  | bins pos width raw buf =>
    obtain ⟨hwidthraw, hbuf⟩ := Bool.and_eq_true_iff.mp h
    obtain ⟨hwidth, -⟩ := Bool.and_eq_true_iff.mp hwidthraw
    simp [opcode, encodeOperands, decodeOperands, readBins, List.append_assoc, readBits_writeBits,
      readNat_writeNat (width_lt_of_widthOk hwidth), readBuf_writeBuf (length_of_bufOk hbuf)]
  | bext pos width buf =>
    obtain ⟨hwidth, hbuf⟩ := Bool.and_eq_true_iff.mp h
    simp [opcode, encodeOperands, decodeOperands, readBext, List.append_assoc, readBits_writeBits,
      readNat_writeNat (width_lt_of_widthOk hwidth), readBuf_writeBuf (length_of_bufOk hbuf)]
  | pencPosr lat lon | pencVpos lat lon =>
    simp [opcode, encodeOperands, decodeOperands, readTwoPhys, List.append_assoc, readPhys_writePhys]
  | pencCogsog sid ref cog sog =>
    simp [opcode, encodeOperands, decodeOperands, readCogsog, List.append_assoc, readBits_writeBits, readPhys_writePhys]
  | pencGnss args =>
    have hcount : args.stations.length < 256 := Nat.lt_succ_of_le (of_decide_eq_true h)
    simp [opcode, encodeOperands, decodeOperands, readPencGnss, readGnss_writeGnss hcount]
  | pencVds bearing speed pitch alt =>
    simp [opcode, encodeOperands, decodeOperands, readVds, List.append_assoc, readPhys_writePhys, hraw16]
  | pdecPosr payload | pdecCogsog payload | pdecGnss payload | pdecVpos payload | pdecVds payload =>
    exact readPayload_writeBuf h rest
  | fptx id seq payload =>
    have hcount : payload.length < 256 := Nat.lt_succ_of_le (of_decide_eq_true h)
    simp [opcode, encodeOperands, decodeOperands, readFptx, List.append_assoc, readBits_writeBits, readBuf_writeBuf hcount]
  | fprx id dlc data now =>
    obtain ⟨hdlc, hdata⟩ := Bool.and_eq_true_iff.mp h
    have hdlc : dlc < 256 := (of_decide_eq_true hdlc).trans_lt (by norm_num)
    have hbytes (rest : Packet) : readBytes 8 (data ++ rest) = .ok (data, rest) :=
      of_decide_eq_true hdata ▸ readBytes_append data rest
    simp [opcode, encodeOperands, decodeOperands, readFprx, List.append_assoc, readBits_writeBits, readNat_writeNat hdlc,
      hbytes]
  | fptick now => simp [opcode, encodeOperands, decodeOperands, readFptick, readBits_writeBits]
  | rdcnt => rfl

theorem decode_encode {i : Instr} (h : i.wellFormed = true) : decode (encode i) = .ok i := by
  have hread := decodeOperands_encodeOperands h []
  rw [List.append_nil, finish_nil h] at hread
  exact hread

/-! ### Encoding what was decoded -/

section
variable {bs : Packet} {i : Instr}

theorem readIdbuild_ok (h : readIdbuild bs = .ok i) : encode i = 0x10#8 :: bs := by
  obtain ⟨⟨pgn, bs₁⟩, hpgn, h⟩ := except_bind_ok h
  obtain ⟨⟨priority, bs₂⟩, hpriority, h⟩ := except_bind_ok h
  obtain ⟨⟨sa, bs₃⟩, hsa, h⟩ := except_bind_ok h
  obtain ⟨⟨da, bs₄⟩, hda, h⟩ := except_bind_ok h
  obtain ⟨rfl, rfl, -⟩ := finish_ok h
  rw [readBits_ok hpgn, readBits_ok hpriority, readBits_ok hsa, readBits_ok hda]
  simp [encode, opcode, encodeOperands]

theorem readFormatC_ok {make : CanId → Instr} (h : readFormatC make bs = .ok i) :
    ∃ c, i = make c ∧ bs = writeCanId c := by
  obtain ⟨⟨c, bs₁⟩, hc, h⟩ := except_bind_ok h
  obtain ⟨rfl, rfl, -⟩ := finish_ok h
  exact ⟨c, rfl, by rw [readCanId_ok hc, List.append_nil]⟩

theorem readIdparse_ok (h : readIdparse bs = .ok i) : encode i = 0x12#8 :: bs := by
  obtain ⟨⟨raw, bs₁⟩, hraw, h⟩ := except_bind_ok h
  obtain ⟨rfl, rfl, -⟩ := finish_ok h
  rw [readBits_ok hraw, List.append_nil]
  rfl

theorem readFenc_ok (h : readFenc bs = .ok i) : encode i = 0x20#8 :: bs := by
  obtain ⟨⟨desc, bs₁⟩, hdesc, h⟩ := except_bind_ok h
  obtain ⟨⟨value, bs₂⟩, hvalue, h⟩ := except_bind_ok h
  obtain ⟨rfl, rfl, -⟩ := finish_ok h
  rw [(readDesc_ok hdesc).1, readPhys_ok hvalue, List.append_nil]
  rfl

theorem readFdec_ok (h : readFdec bs = .ok i) : encode i = 0x21#8 :: bs := by
  obtain ⟨⟨desc, bs₁⟩, hdesc, h⟩ := except_bind_ok h
  obtain ⟨⟨raw, bs₂⟩, hraw, h⟩ := except_bind_ok h
  obtain ⟨rfl, rfl, -⟩ := finish_ok h
  rw [(readDesc_ok hdesc).1, readBits_ok hraw, List.append_nil]
  rfl

theorem readBins_ok (h : readBins bs = .ok i) : encode i = 0x28#8 :: bs := by
  obtain ⟨⟨pos, bs₁⟩, hpos, h⟩ := except_bind_ok h
  obtain ⟨⟨width, bs₂⟩, hwidth, h⟩ := except_bind_ok h
  obtain ⟨⟨raw, bs₃⟩, hraw, h⟩ := except_bind_ok h
  obtain ⟨⟨buf, bs₄⟩, hbuf, h⟩ := except_bind_ok h
  obtain ⟨rfl, rfl, -⟩ := finish_ok h
  rw [readBits_ok hpos, (readNat_ok hwidth).1, readBits_ok hraw, (readBuf_ok hbuf).1]
  simp [encode, opcode, encodeOperands]

theorem readBext_ok (h : readBext bs = .ok i) : encode i = 0x29#8 :: bs := by
  obtain ⟨⟨pos, bs₁⟩, hpos, h⟩ := except_bind_ok h
  obtain ⟨⟨width, bs₂⟩, hwidth, h⟩ := except_bind_ok h
  obtain ⟨⟨buf, bs₃⟩, hbuf, h⟩ := except_bind_ok h
  obtain ⟨rfl, rfl, -⟩ := finish_ok h
  rw [readBits_ok hpos, (readNat_ok hwidth).1, (readBuf_ok hbuf).1]
  simp [encode, opcode, encodeOperands]

theorem readTwoPhys_ok {make : Phys → Phys → Instr} (h : readTwoPhys make bs = .ok i) :
    ∃ lat lon, i = make lat lon ∧ bs = writePhys lat ++ writePhys lon := by
  obtain ⟨⟨lat, bs₁⟩, hlat, h⟩ := except_bind_ok h
  obtain ⟨⟨lon, bs₂⟩, hlon, h⟩ := except_bind_ok h
  obtain ⟨rfl, rfl, -⟩ := finish_ok h
  exact ⟨lat, lon, rfl, by rw [readPhys_ok hlat, readPhys_ok hlon, List.append_nil]⟩

theorem readCogsog_ok (h : readCogsog bs = .ok i) : encode i = 0x31#8 :: bs := by
  obtain ⟨⟨sid, bs₁⟩, hsid, h⟩ := except_bind_ok h
  obtain ⟨⟨ref, bs₂⟩, href, h⟩ := except_bind_ok h
  obtain ⟨⟨cog, bs₃⟩, hcog, h⟩ := except_bind_ok h
  obtain ⟨⟨sog, bs₄⟩, hsog, h⟩ := except_bind_ok h
  obtain ⟨rfl, rfl, -⟩ := finish_ok h
  rw [readBits_ok hsid, readBits_ok href, readPhys_ok hcog, readPhys_ok hsog]
  simp [encode, opcode, encodeOperands]

theorem readGnss_ok {a : GnssArgs} {rest : Packet} (h : readGnss bs = .ok (a, rest)) : bs = writeGnss a ++ rest := by
  obtain ⟨⟨sid, bs₁⟩, hsid, h⟩ := except_bind_ok h
  obtain ⟨⟨date, bs₂⟩, hdate, h⟩ := except_bind_ok h
  obtain ⟨⟨tod, bs₃⟩, htod, h⟩ := except_bind_ok h
  obtain ⟨⟨lat, bs₄⟩, hlat, h⟩ := except_bind_ok h
  obtain ⟨⟨lon, bs₅⟩, hlon, h⟩ := except_bind_ok h
  obtain ⟨⟨alt, bs₆⟩, halt, h⟩ := except_bind_ok h
  obtain ⟨⟨fixtype, bs₇⟩, hfixtype, h⟩ := except_bind_ok h
  obtain ⟨⟨method, bs₈⟩, hmethod, h⟩ := except_bind_ok h
  obtain ⟨⟨integ, bs₉⟩, hinteg, h⟩ := except_bind_ok h
  obtain ⟨⟨numsv, bs₁₀⟩, hnumsv, h⟩ := except_bind_ok h
  obtain ⟨⟨hdop, bs₁₁⟩, hhdop, h⟩ := except_bind_ok h
  obtain ⟨⟨pdop, bs₁₂⟩, hpdop, h⟩ := except_bind_ok h
  obtain ⟨⟨geoid, bs₁₃⟩, hgeoid, h⟩ := except_bind_ok h
  obtain ⟨⟨nref, bs₁₄⟩, hnref, h⟩ := except_bind_ok h
  obtain ⟨⟨stations, bs₁₅⟩, hstations, h⟩ := except_bind_ok h
  cases h
  obtain ⟨hbytes, hcount⟩ := readStations_ok hstations
  rw [readBits_ok hsid, readRaw_ok hdate, readPhys_ok htod, readPhys_ok hlat, readPhys_ok hlon, readPhys_ok halt,
    readBits_ok hfixtype, readBits_ok hmethod, readBits_ok hinteg, readRaw_ok hnumsv, readRaw_ok hhdop, readRaw_ok hpdop,
    readRaw_ok hgeoid, (readNat_ok hnref).1, hbytes, ← hcount]
  simp only [writeGnss, List.append_assoc]

theorem readPencGnss_ok (h : readPencGnss bs = .ok i) : encode i = 0x32#8 :: bs := by
  obtain ⟨⟨args, bs₁⟩, hargs, h⟩ := except_bind_ok h
  obtain ⟨rfl, rfl, -⟩ := finish_ok h
  rw [readGnss_ok hargs, List.append_nil]
  rfl

theorem readVds_ok (h : readVds bs = .ok i) : encode i = 0x34#8 :: bs := by
  obtain ⟨⟨bearing, bs₁⟩, hbearing, h⟩ := except_bind_ok h
  obtain ⟨⟨speed, bs₂⟩, hspeed, h⟩ := except_bind_ok h
  obtain ⟨⟨pitch, bs₃⟩, hpitch, h⟩ := except_bind_ok h
  obtain ⟨⟨alt, bs₄⟩, halt, h⟩ := except_bind_ok h
  obtain ⟨rfl, rfl, -⟩ := finish_ok h
  rw [readPhys_ok hbearing, readPhys_ok hspeed, readRaw_ok hpitch, readRaw_ok halt]
  simp [encode, opcode, encodeOperands]

theorem readPayload_ok {make : Packet → Instr} (h : readPayload make bs = .ok i) :
    ∃ payload, i = make payload ∧ bs = writeBuf payload := by
  obtain ⟨⟨payload, bs₁⟩, hpayload, h⟩ := except_bind_ok h
  obtain ⟨rfl, rfl, -⟩ := finish_ok h
  exact ⟨payload, rfl, by rw [(readBuf_ok hpayload).1, List.append_nil]⟩

theorem readFptx_ok (h : readFptx bs = .ok i) : encode i = 0x40#8 :: bs := by
  obtain ⟨⟨id, bs₁⟩, hid, h⟩ := except_bind_ok h
  obtain ⟨⟨seq, bs₂⟩, hseq, h⟩ := except_bind_ok h
  obtain ⟨⟨payload, bs₃⟩, hpayload, h⟩ := except_bind_ok h
  obtain ⟨rfl, rfl, -⟩ := finish_ok h
  rw [readBits_ok hid, readBits_ok hseq, (readBuf_ok hpayload).1]
  simp [encode, opcode, encodeOperands]

theorem readFprx_ok (h : readFprx bs = .ok i) : encode i = 0x41#8 :: bs := by
  obtain ⟨⟨id, bs₁⟩, hid, h⟩ := except_bind_ok h
  obtain ⟨⟨dlc, bs₂⟩, hdlc, h⟩ := except_bind_ok h
  obtain ⟨⟨data, bs₃⟩, hdata, h⟩ := except_bind_ok h
  obtain ⟨⟨now, bs₄⟩, hnow, h⟩ := except_bind_ok h
  obtain ⟨rfl, rfl, -⟩ := finish_ok h
  rw [readBits_ok hid, (readNat_ok hdlc).1, (readBytes_ok hdata).1, readBits_ok hnow]
  simp [encode, opcode, encodeOperands]

theorem encode_of_readFptick (h : readFptick bs = .ok i) : encode i = 0x42#8 :: bs := by
  obtain ⟨⟨now, bs₁⟩, hnow, h⟩ := except_bind_ok h
  obtain ⟨rfl, rfl, -⟩ := finish_ok h
  rw [readBits_ok hnow, List.append_nil]
  rfl

end

/-- An accepted request is the one the encoder writes for its command: one case for each row of the opcode table. -/
theorem encode_of_decodeOperands {op : Byte} {bs : Packet} {i : Instr} (h : decodeOperands op bs = .ok i) :
    encode i = op :: bs := by
  have hop {n : Nat} (hn : op.toNat = n) : op = BitVec.ofNat 8 n := by rw [← hn, BitVec.ofNat_toNat, BitVec.setWidth_eq]
  unfold decodeOperands at h
  split at h
  next hn => rw [hop hn, readIdbuild_ok h]
  next hn => obtain ⟨c, rfl, rfl⟩ := readFormatC_ok h; rw [hop hn]; rfl
  next hn => rw [hop hn, readIdparse_ok h]
  next hn => obtain ⟨c, rfl, rfl⟩ := readFormatC_ok h; rw [hop hn]; rfl
  next hn => rw [hop hn, readFenc_ok h]
  next hn => rw [hop hn, readFdec_ok h]
  next hn => rw [hop hn, readBins_ok h]
  next hn => rw [hop hn, readBext_ok h]
  next hn => obtain ⟨lat, lon, rfl, rfl⟩ := readTwoPhys_ok h; rw [hop hn]; rfl
  next hn => rw [hop hn, readCogsog_ok h]
  next hn => rw [hop hn, readPencGnss_ok h]
  next hn => obtain ⟨lat, lon, rfl, rfl⟩ := readTwoPhys_ok h; rw [hop hn]; rfl
  next hn => rw [hop hn, readVds_ok h]
  next hn => obtain ⟨payload, rfl, rfl⟩ := readPayload_ok h; rw [hop hn]; rfl
  next hn => obtain ⟨payload, rfl, rfl⟩ := readPayload_ok h; rw [hop hn]; rfl
  next hn => obtain ⟨payload, rfl, rfl⟩ := readPayload_ok h; rw [hop hn]; rfl
  next hn => obtain ⟨payload, rfl, rfl⟩ := readPayload_ok h; rw [hop hn]; rfl
  next hn => obtain ⟨payload, rfl, rfl⟩ := readPayload_ok h; rw [hop hn]; rfl
  next hn => rw [hop hn, readFptx_ok h]
  next hn => rw [hop hn, readFprx_ok h]
  next hn => rw [hop hn, encode_of_readFptick h]
  next hn =>
    obtain ⟨rfl, rfl, -⟩ := finish_ok h
    rw [hop hn]
    rfl
  next => cases h

theorem encode_of_decode {p : Packet} {i : Instr} (h : decode p = .ok i) : encode i = p := by
  cases p with
  | nil => cases h
  | cons op bs => exact encode_of_decodeOperands h

theorem wellFormed_of_decode {p : Packet} {i : Instr} (h : decode p = .ok i) : i.wellFormed = true := by
  obtain ⟨haccept, hrefuse⟩ := decode_accepts_legal p
  by_cases hlegal : LegalRequest p
  · obtain ⟨j, hj, hwf⟩ := haccept hlegal
    cases h.symm.trans hj
    exact hwf
  · obtain ⟨e, he⟩ := hrefuse hlegal
    cases h.symm.trans he

end Sys2Proof.Encodings

open Sys2Proof.Encodings

/-- Settles O1: the decoder reads the operands that the encoder wrote, and no byte is left for the end of the request. -/
theorem decodeInvertsEncode : Obligations.DecodeInvertsEncode := fun _ => decode_encode

/-- Settles O2: each reader answers only what stood there, and the end of the request checks the ranges. -/
theorem encodeInvertsDecode : Obligations.EncodeInvertsDecode :=
  fun _ _ h => ⟨wellFormed_of_decode h, encode_of_decode h⟩

end

section
/-! SUPPORT. Operands by byte offset (`30_encoding.md` R73 to R80): each reader answers what stands at the offset it is at, and goes
on behind it. -/

namespace Sys2Proof.OperandOffsets

open Sys2Proof Sys2Proof.Machine Sys2Proof.Config Sys2Proof.RequestFormats

/-! ### The operand readers -/

/-- A read that answered was legal, and its answer is the one at its offset. -/
theorem of_ok {α : Type} {x : Except Reject α} {legal : Prop} {a b : α} (hx : AcceptsExactly x legal (· = a))
    (h : x = .ok b) : legal ∧ b = a := by
  by_cases hlegal : legal
  · obtain ⟨c, hc, rfl⟩ := hx.1 hlegal
    cases h.symm.trans hc
    exact ⟨hlegal, rfl⟩
  · obtain ⟨e, he⟩ := hx.2 hlegal
    cases h.symm.trans he

theorem toNat_flagOf {p : Packet} {k : Nat} (h : byteAt p k ≤ 1) : (flagOf p k).toNat = byteAt p k := by
  unfold flagOf
  generalize byteAt p k = n at h ⊢
  interval_cases n <;> rfl

theorem toNat_patternAt (p : Packet) (k : Nat) : (patternAt p k).toNat = memRead p k 8 :=
  Nat.mod_eq_of_lt (memRead_lt p k 8)

section
variable {p rest : Packet} {k : Nat}

theorem readBits_stands {n w : Nat} {v : BitVec w} (h : readBits n w (p.drop k) = .ok (v, rest)) :
    v.toNat = memRead p k n ∧ rest = p.drop (k + n) := by
  obtain ⟨⟨-, hfits⟩, heq⟩ := of_ok (readBits_at n w p k) h
  cases heq
  exact ⟨Nat.mod_eq_of_lt hfits, rfl⟩

theorem readByte_stands {w : Nat} {v : BitVec w} (h : readBits 1 w (p.drop k) = .ok (v, rest)) :
    v.toNat = byteAt p k ∧ rest = p.drop (k + 1) := by
  rw [← memRead_one]
  exact readBits_stands h

theorem readNat_stands {n : Nat} (h : readNat (p.drop k) = .ok (n, rest)) : n = byteAt p k ∧ rest = p.drop (k + 1) := by
  obtain ⟨-, heq⟩ := of_ok (readNat_at p k) h
  cases heq
  exact ⟨rfl, rfl⟩

theorem readBytes_stands {n : Nat} {b : Packet} (h : readBytes n (p.drop k) = .ok (b, rest)) :
    b = (p.drop k).take n ∧ rest = p.drop (k + n) := by
  obtain ⟨-, heq⟩ := of_ok (readBytes_at n p k) h
  cases heq
  exact ⟨rfl, rfl⟩

theorem readCanId_stands {c : CanId} (h : readCanId (p.drop k) = .ok (c, rest)) :
    canIdAt p k c ∧ rest = p.drop (k + 6) := by
  obtain ⟨⟨-, hpriority, hreserved, hpage⟩, heq⟩ := of_ok (readCanId_at p k) h
  cases heq
  have hbyte (j : Nat) : (BitVec.ofNat 8 (byteAt p j)).toNat = byteAt p j :=
    Nat.mod_eq_of_lt (Nat.lt_succ_of_le (byteAt_le p j))
  exact ⟨⟨Nat.mod_eq_of_lt (Nat.lt_succ_of_le hpriority), Nat.mod_eq_of_lt (Nat.lt_succ_of_le hreserved),
    Nat.mod_eq_of_lt (Nat.lt_succ_of_le hpage), hbyte _, hbyte _, hbyte _⟩, rfl⟩

theorem readPhys_stands {v : Phys} (h : readPhys (p.drop k) = .ok (v, rest)) : physAt p k v ∧ rest = p.drop (k + 9) := by
  obtain ⟨⟨-, hknown⟩, heq⟩ := of_ok (readPhys_at p k) h
  cases heq
  exact ⟨⟨toNat_flagOf hknown, toNat_patternAt p (k + 1)⟩, rfl⟩

theorem readRaw_stands {n : Nat} {v : RawOpt (8 * n)} (h : readRaw n (p.drop k) = .ok (v, rest)) :
    rawAt p k n v ∧ rest = p.drop (k + 1 + n) := by
  obtain ⟨⟨-, hknown⟩, heq⟩ := of_ok (readRaw_at n p k) h
  cases heq
  exact ⟨⟨toNat_flagOf hknown, Nat.mod_eq_of_lt (memRead_lt p (k + 1) n)⟩, rfl⟩

theorem readDesc_stands {d : Desc} (h : readDesc (p.drop k) = .ok (d, rest)) : descAt p k d ∧ rest = p.drop (k + 18) := by
  obtain ⟨⟨-, hflags⟩, heq⟩ := of_ok (readDesc_at p k) h
  cases heq
  have hbits : ((BitVec.ofNat 2 (byteAt p k)).getLsbD 0).toNat + 2 * ((BitVec.ofNat 2 (byteAt p k)).getLsbD 1).toNat =
      byteAt p k := (twoBits_toNat _).symm.trans (Nat.mod_eq_of_lt hflags)
  exact ⟨⟨hbits, rfl, toNat_patternAt p (k + 2), toNat_patternAt p (k + 10)⟩, rfl⟩

/-- A buffer at the end of its request reaches the end of the packet. -/
theorem readBuf_stands {b : Packet} (h : readBuf (p.drop k) = .ok (b, [])) : bufAt p k b := by
  obtain ⟨hin, heq⟩ := of_ok (readBuf_at p k) h
  obtain ⟨rfl, hrest⟩ := Prod.mk.inj heq
  have hend : p.length ≤ k + 1 + byteAt p k := List.drop_eq_nil_iff.mp hrest.symm
  have hlen : (p.drop (k + 1)).length ≤ byteAt p k := by rw [List.length_drop]; omega
  refine ⟨?_, List.take_of_length_le hlen⟩
  rw [bufOf, List.length_take, List.length_drop]
  omega

theorem readStations_stands {n : Nat} {l : List StationArg} (h : readStations n (p.drop k) = .ok (l, rest)) :
    ∀ j st, l[j]? = some st → rawAt p (k + 6 * j) 2 st.tid ∧ rawAt p (k + 3 + 6 * j) 2 st.age := by
  induction n generalizing k l rest with
  | zero =>
    cases h
    intro j st hst
    cases hst
  | succ n ih =>
    obtain ⟨⟨tid, bs₁⟩, hread, h⟩ := except_bind_ok h
    obtain ⟨htid, rfl⟩ := readRaw_stands hread
    obtain ⟨⟨age, bs₂⟩, hread, h⟩ := except_bind_ok h
    obtain ⟨hage, rfl⟩ := readRaw_stands hread
    obtain ⟨⟨l', bs₃⟩, hrest, h⟩ := except_bind_ok h
    cases h
    intro j st hst
    cases j with
    | zero =>
      cases hst
      exact ⟨htid, hage⟩
    | succ j =>
      have hfirst : k + 6 * (j + 1) = k + 1 + 2 + 1 + 2 + 6 * j := by omega
      have hsecond : k + 3 + 6 * (j + 1) = k + 1 + 2 + 1 + 2 + 3 + 6 * j := by omega
      rw [hfirst, hsecond]
      exact ih hrest j st hst

end

/-! ### The formats -/

section
variable {p : Packet} {i : Instr}

theorem readIdbuild_operandsAt (hop : byteAt p 0 = 0x10) (h : readIdbuild (p.drop 1) = .ok i) : operandsAt p i := by
  obtain ⟨⟨pgn, bs₁⟩, hread, h⟩ := except_bind_ok h
  obtain ⟨hpgn, rfl⟩ := readBits_stands hread
  obtain ⟨⟨priority, bs₂⟩, hread, h⟩ := except_bind_ok h
  obtain ⟨hpriority, rfl⟩ := readByte_stands hread
  obtain ⟨⟨sa, bs₃⟩, hread, h⟩ := except_bind_ok h
  obtain ⟨hsa, rfl⟩ := readByte_stands hread
  obtain ⟨⟨da, bs₄⟩, hread, h⟩ := except_bind_ok h
  obtain ⟨hda, rfl⟩ := readByte_stands hread
  obtain ⟨-, rfl, -⟩ := finish_ok h
  exact ⟨hop, hpgn, hpriority, hsa, hda⟩

theorem readFormatC_stands {make : CanId → Instr} (h : readFormatC make (p.drop 1) = .ok i) :
    ∃ c, i = make c ∧ canIdAt p 1 c := by
  obtain ⟨⟨c, bs₁⟩, hc, h⟩ := except_bind_ok h
  obtain ⟨-, rfl, -⟩ := finish_ok h
  exact ⟨c, rfl, (readCanId_stands hc).1⟩

theorem readIdparse_operandsAt (hop : byteAt p 0 = 0x12) (h : readIdparse (p.drop 1) = .ok i) : operandsAt p i := by
  obtain ⟨⟨raw, bs₁⟩, hraw, h⟩ := except_bind_ok h
  obtain ⟨-, rfl, -⟩ := finish_ok h
  exact ⟨hop, (readBits_stands hraw).1⟩

theorem readFenc_operandsAt (hop : byteAt p 0 = 0x20) (h : readFenc (p.drop 1) = .ok i) : operandsAt p i := by
  obtain ⟨⟨desc, bs₁⟩, hread, h⟩ := except_bind_ok h
  obtain ⟨hdesc, rfl⟩ := readDesc_stands hread
  obtain ⟨⟨value, bs₂⟩, hvalue, h⟩ := except_bind_ok h
  obtain ⟨-, rfl, -⟩ := finish_ok h
  exact ⟨hop, hdesc, (readPhys_stands hvalue).1⟩

theorem readFdec_operandsAt (hop : byteAt p 0 = 0x21) (h : readFdec (p.drop 1) = .ok i) : operandsAt p i := by
  obtain ⟨⟨desc, bs₁⟩, hread, h⟩ := except_bind_ok h
  obtain ⟨hdesc, rfl⟩ := readDesc_stands hread
  obtain ⟨⟨raw, bs₂⟩, hraw, h⟩ := except_bind_ok h
  obtain ⟨-, rfl, -⟩ := finish_ok h
  exact ⟨hop, hdesc, (readBits_stands hraw).1⟩

theorem readBins_operandsAt (hop : byteAt p 0 = 0x28) (h : readBins (p.drop 1) = .ok i) : operandsAt p i := by
  obtain ⟨⟨pos, bs₁⟩, hread, h⟩ := except_bind_ok h
  obtain ⟨hpos, rfl⟩ := readBits_stands hread
  obtain ⟨⟨width, bs₂⟩, hread, h⟩ := except_bind_ok h
  obtain ⟨hwidth, rfl⟩ := readNat_stands hread
  obtain ⟨⟨raw, bs₃⟩, hread, h⟩ := except_bind_ok h
  obtain ⟨hraw, rfl⟩ := readBits_stands hread
  obtain ⟨⟨buf, bs₄⟩, hbuf, h⟩ := except_bind_ok h
  obtain ⟨rfl, rfl, -⟩ := finish_ok h
  exact ⟨hop, hpos, hwidth, hraw, readBuf_stands hbuf⟩

theorem readBext_operandsAt (hop : byteAt p 0 = 0x29) (h : readBext (p.drop 1) = .ok i) : operandsAt p i := by
  obtain ⟨⟨pos, bs₁⟩, hread, h⟩ := except_bind_ok h
  obtain ⟨hpos, rfl⟩ := readBits_stands hread
  obtain ⟨⟨width, bs₂⟩, hread, h⟩ := except_bind_ok h
  obtain ⟨hwidth, rfl⟩ := readNat_stands hread
  obtain ⟨⟨buf, bs₃⟩, hbuf, h⟩ := except_bind_ok h
  obtain ⟨rfl, rfl, -⟩ := finish_ok h
  exact ⟨hop, hpos, hwidth, readBuf_stands hbuf⟩

theorem readTwoPhys_stands {make : Phys → Phys → Instr} (h : readTwoPhys make (p.drop 1) = .ok i) :
    ∃ lat lon, i = make lat lon ∧ physAt p 1 lat ∧ physAt p 10 lon := by
  obtain ⟨⟨lat, bs₁⟩, hread, h⟩ := except_bind_ok h
  obtain ⟨hlat, rfl⟩ := readPhys_stands hread
  obtain ⟨⟨lon, bs₂⟩, hlon, h⟩ := except_bind_ok h
  obtain ⟨-, rfl, -⟩ := finish_ok h
  exact ⟨lat, lon, rfl, hlat, (readPhys_stands hlon).1⟩

theorem readCogsog_operandsAt (hop : byteAt p 0 = 0x31) (h : readCogsog (p.drop 1) = .ok i) : operandsAt p i := by
  obtain ⟨⟨sid, bs₁⟩, hread, h⟩ := except_bind_ok h
  obtain ⟨hsid, rfl⟩ := readByte_stands hread
  obtain ⟨⟨ref, bs₂⟩, hread, h⟩ := except_bind_ok h
  obtain ⟨href, rfl⟩ := readByte_stands hread
  obtain ⟨⟨cog, bs₃⟩, hread, h⟩ := except_bind_ok h
  obtain ⟨hcog, rfl⟩ := readPhys_stands hread
  obtain ⟨⟨sog, bs₄⟩, hsog, h⟩ := except_bind_ok h
  obtain ⟨-, rfl, -⟩ := finish_ok h
  exact ⟨hop, hsid, href, hcog, (readPhys_stands hsog).1⟩

theorem readPencGnss_operandsAt (hop : byteAt p 0 = 0x32) (h : readPencGnss (p.drop 1) = .ok i) : operandsAt p i := by
  obtain ⟨⟨args, bs₀⟩, hargs, hend⟩ := except_bind_ok h
  obtain ⟨-, rfl, -⟩ := finish_ok hend
  obtain ⟨⟨sid, bs₁⟩, hread, h⟩ := except_bind_ok hargs
  obtain ⟨hsid, rfl⟩ := readByte_stands hread
  obtain ⟨⟨date, bs₂⟩, hread, h⟩ := except_bind_ok h
  obtain ⟨hdate, rfl⟩ := readRaw_stands hread
  obtain ⟨⟨tod, bs₃⟩, hread, h⟩ := except_bind_ok h
  obtain ⟨htod, rfl⟩ := readPhys_stands hread
  obtain ⟨⟨lat, bs₄⟩, hread, h⟩ := except_bind_ok h
  obtain ⟨hlat, rfl⟩ := readPhys_stands hread
  obtain ⟨⟨lon, bs₅⟩, hread, h⟩ := except_bind_ok h
  obtain ⟨hlon, rfl⟩ := readPhys_stands hread
  obtain ⟨⟨alt, bs₆⟩, hread, h⟩ := except_bind_ok h
  obtain ⟨halt, rfl⟩ := readPhys_stands hread
  obtain ⟨⟨fixtype, bs₇⟩, hread, h⟩ := except_bind_ok h
  obtain ⟨hfixtype, rfl⟩ := readByte_stands hread
  obtain ⟨⟨method, bs₈⟩, hread, h⟩ := except_bind_ok h
  obtain ⟨hmethod, rfl⟩ := readByte_stands hread
  obtain ⟨⟨integ, bs₉⟩, hread, h⟩ := except_bind_ok h
  obtain ⟨hinteg, rfl⟩ := readByte_stands hread
  obtain ⟨⟨numsv, bs₁₀⟩, hread, h⟩ := except_bind_ok h
  obtain ⟨hnumsv, rfl⟩ := readRaw_stands hread
  obtain ⟨⟨hdop, bs₁₁⟩, hread, h⟩ := except_bind_ok h
  obtain ⟨hhdop, rfl⟩ := readRaw_stands hread
  obtain ⟨⟨pdop, bs₁₂⟩, hread, h⟩ := except_bind_ok h
  obtain ⟨hpdop, rfl⟩ := readRaw_stands hread
  obtain ⟨⟨geoid, bs₁₃⟩, hread, h⟩ := except_bind_ok h
  obtain ⟨hgeoid, rfl⟩ := readRaw_stands hread
  obtain ⟨⟨nref, bs₁₄⟩, hread, h⟩ := except_bind_ok h
  obtain ⟨hnref, rfl⟩ := readNat_stands hread
  obtain ⟨⟨stations, bs₁₅⟩, hstations, h⟩ := except_bind_ok h
  cases h
  exact ⟨hop, hsid, hdate, htod, hlat, hlon, halt, hfixtype, hmethod, hinteg, hnumsv, hhdop, hpdop, hgeoid,
    (readStations_ok hstations).2.trans hnref, readStations_stands hstations⟩

theorem readVds_operandsAt (hop : byteAt p 0 = 0x34) (h : readVds (p.drop 1) = .ok i) : operandsAt p i := by
  obtain ⟨⟨bearing, bs₁⟩, hread, h⟩ := except_bind_ok h
  obtain ⟨hbearing, rfl⟩ := readPhys_stands hread
  obtain ⟨⟨speed, bs₂⟩, hread, h⟩ := except_bind_ok h
  obtain ⟨hspeed, rfl⟩ := readPhys_stands hread
  obtain ⟨⟨pitch, bs₃⟩, hread, h⟩ := except_bind_ok h
  obtain ⟨hpitch, rfl⟩ := readRaw_stands hread
  obtain ⟨⟨alt, bs₄⟩, halt, h⟩ := except_bind_ok h
  obtain ⟨-, rfl, -⟩ := finish_ok h
  exact ⟨hop, hbearing, hspeed, hpitch, (readRaw_stands halt).1⟩

theorem readPayload_stands {make : Packet → Instr} (h : readPayload make (p.drop 1) = .ok i) :
    ∃ payload, i = make payload ∧ bufAt p 1 payload := by
  obtain ⟨⟨payload, bs₁⟩, hpayload, h⟩ := except_bind_ok h
  obtain ⟨rfl, rfl, -⟩ := finish_ok h
  exact ⟨payload, rfl, readBuf_stands hpayload⟩

theorem readFptx_operandsAt (hop : byteAt p 0 = 0x40) (h : readFptx (p.drop 1) = .ok i) : operandsAt p i := by
  obtain ⟨⟨id, bs₁⟩, hread, h⟩ := except_bind_ok h
  obtain ⟨hid, rfl⟩ := readBits_stands hread
  obtain ⟨⟨seq, bs₂⟩, hread, h⟩ := except_bind_ok h
  obtain ⟨hseq, rfl⟩ := readByte_stands hread
  obtain ⟨⟨payload, bs₃⟩, hpayload, h⟩ := except_bind_ok h
  obtain ⟨rfl, rfl, -⟩ := finish_ok h
  exact ⟨hop, hid, hseq, readBuf_stands hpayload⟩

theorem readFprx_operandsAt (hop : byteAt p 0 = 0x41) (h : readFprx (p.drop 1) = .ok i) : operandsAt p i := by
  obtain ⟨⟨id, bs₁⟩, hread, h⟩ := except_bind_ok h
  obtain ⟨hid, rfl⟩ := readBits_stands hread
  obtain ⟨⟨dlc, bs₂⟩, hread, h⟩ := except_bind_ok h
  obtain ⟨hdlc, rfl⟩ := readNat_stands hread
  obtain ⟨⟨data, bs₃⟩, hread, h⟩ := except_bind_ok h
  obtain ⟨hdata, rfl⟩ := readBytes_stands hread
  obtain ⟨⟨now, bs₄⟩, hnow, h⟩ := except_bind_ok h
  obtain ⟨-, rfl, -⟩ := finish_ok h
  exact ⟨hop, hid, hdlc, hdata, (readBits_stands hnow).1⟩

theorem readFptick_operandsAt (hop : byteAt p 0 = 0x42) (h : readFptick (p.drop 1) = .ok i) : operandsAt p i := by
  obtain ⟨⟨now, bs₁⟩, hnow, h⟩ := except_bind_ok h
  obtain ⟨-, rfl, -⟩ := finish_ok h
  exact ⟨hop, (readBits_stands hnow).1⟩

end

/-- One case for each row of the opcode table. -/
theorem operandsAt_of_decode {p : Packet} {i : Instr} (h : decode p = .ok i) : operandsAt p i := by
  have hdec : decodeOperands (p.getD 0 0#8) (p.drop 1) = .ok i := by
    cases p with
    | nil => cases h
    | cons op bs => exact h
  unfold decodeOperands at hdec
  split at hdec
  next hop => exact readIdbuild_operandsAt hop hdec
  next hop => obtain ⟨c, rfl, hc⟩ := readFormatC_stands hdec; exact ⟨hop, hc⟩
  next hop => exact readIdparse_operandsAt hop hdec
  next hop => obtain ⟨c, rfl, hc⟩ := readFormatC_stands hdec; exact ⟨hop, hc⟩
  next hop => exact readFenc_operandsAt hop hdec
  next hop => exact readFdec_operandsAt hop hdec
  next hop => exact readBins_operandsAt hop hdec
  next hop => exact readBext_operandsAt hop hdec
  next hop => obtain ⟨lat, lon, rfl, hvalues⟩ := readTwoPhys_stands hdec; exact ⟨hop, hvalues⟩
  next hop => exact readCogsog_operandsAt hop hdec
  next hop => exact readPencGnss_operandsAt hop hdec
  next hop => obtain ⟨lat, lon, rfl, hvalues⟩ := readTwoPhys_stands hdec; exact ⟨hop, hvalues⟩
  next hop => exact readVds_operandsAt hop hdec
  next hop => obtain ⟨payload, rfl, hbuf⟩ := readPayload_stands hdec; exact ⟨hop, hbuf⟩
  next hop => obtain ⟨payload, rfl, hbuf⟩ := readPayload_stands hdec; exact ⟨hop, hbuf⟩
  next hop => obtain ⟨payload, rfl, hbuf⟩ := readPayload_stands hdec; exact ⟨hop, hbuf⟩
  next hop => obtain ⟨payload, rfl, hbuf⟩ := readPayload_stands hdec; exact ⟨hop, hbuf⟩
  next hop => obtain ⟨payload, rfl, hbuf⟩ := readPayload_stands hdec; exact ⟨hop, hbuf⟩
  next hop => exact readFptx_operandsAt hop hdec
  next hop => exact readFprx_operandsAt hop hdec
  next hop => exact readFptick_operandsAt hop hdec
  next hop =>
    obtain ⟨-, rfl, -⟩ := finish_ok hdec
    exact hop
  next => cases hdec

end Sys2Proof.OperandOffsets

open Sys2Proof.OperandOffsets

/-- Settles O4: the reads of a format go through the packet in the order of its table. -/
theorem operandsStandAtTheirOffsets : Obligations.OperandsStandAtTheirOffsets := fun _ _ => operandsAt_of_decode

/-- Settles O5, by evaluation. -/
theorem specPacketsDecode : Obligations.SpecPacketsDecode := by
  unfold Obligations.SpecPacketsDecode
  decide

end

section
/-! SUPPORT. One step (`00_scope.md` R16, R18; `60_exceptions.md` R266, R273): what a request leaves in the two streams, and which
status byte its response begins with. -/

namespace Sys2Proof.Steps

open Sys2Proof Sys2Proof.Machine Sys2Proof.Config Sys2Proof.Identifier Sys2Proof.Scaler Sys2Proof.BitPacker
  Sys2Proof.PgnCodecs Sys2Proof.PgnDecoders Sys2Proof.Sender Sys2Proof.Receiver Sys2Proof.SystemCommand
  Sys2Proof.Failures Sys2Proof.RequestFormats

theorem popInbox_of_cons {s : State} {a : HostAction} {rest : List HostAction} (hin : s.inbox = a :: rest) :
    s.popInbox = { s with inbox := rest } := by
  rw [State.popInbox, hin, List.tail_cons]

theorem step_of_decode_ok {s : State} {p : Packet} {rest : List HostAction} {i : Instr}
    (hin : s.inbox = .request p :: rest) (hdec : decode p = .ok i) : step s = exec i { s with inbox := rest } := by
  rw [← popInbox_of_cons hin]
  simp only [step, hin, hdec]

theorem step_of_reset {s : State} {rest : List HostAction} (hin : s.inbox = .reset :: rest) :
    step s = .next { s with inbox := rest, sess := [], dropped := 0#32 } := by
  simp only [step, hin, popInbox_of_cons hin]
  rfl

/-- `FPRX` leaves both streams to its response. -/
theorem fprx_streams (c : Params) (id : Ident) (dlc : Nat) (data : Packet) (now : Ticks) (s : State) :
    (fprx c id dlc data now s).1.inbox = s.inbox ∧ (fprx c id dlc data now s).1.responses = s.responses := by
  rcases fprx_cases c id dlc data now s with ⟨d, -, h⟩ | ⟨sn, -, -, h⟩ | ⟨sn, -, -, h⟩ <;> rw [h] <;> exact ⟨rfl, rfl⟩

/-- R48: the response of a pure command is made from its operands. -/
theorem exec_eq_respond_of_isPure {i : Instr} (hpure : isPure i = true) :
    ∃ r : Packet, ∀ s : State, exec i s = .next (s.respond r) := by
  cases i with
  | idbuild pgn priority sa da => exact ⟨_, fun s => exec_idbuild s pgn priority sa da⟩
  | idpack c => exact ⟨_, fun s => exec_idpack s c⟩
  | idparse raw => exact ⟨_, fun s => exec_idparse s raw⟩
  | idpgn c => exact ⟨_, fun s => exec_idpgn s c⟩
  | fenc d v => exact ⟨_, fun s => exec_fenc s d v⟩
  | fdec d raw => exact ⟨_, fun s => exec_fdec s d raw⟩
  | bins pos width raw buf => exact ⟨_, fun s => exec_bins s pos width raw buf⟩
  | bext pos width buf => exact ⟨_, fun s => exec_bext s pos width buf⟩
  | pencPosr lat lon => exact ⟨_, fun s => exec_pencPosr s lat lon⟩
  | pencCogsog sid ref cog sog => exact ⟨_, fun s => exec_pencCogsog s sid ref cog sog⟩
  | pencGnss args => exact ⟨_, fun s => exec_pencGnss s args⟩
  | pencVpos lat lon => exact ⟨_, fun s => exec_pencVpos s lat lon⟩
  | pencVds bearing speed pitch alt => exact ⟨_, fun s => exec_pencVds s bearing speed pitch alt⟩
  | pdecPosr P => exact ⟨_, fun s => exec_pdecPosr s P⟩
  | pdecCogsog P => exact ⟨_, fun s => exec_pdecCogsog s P⟩
  | pdecGnss P => exact ⟨_, fun s => exec_pdecGnss s P⟩
  | pdecVpos P => exact ⟨_, fun s => exec_pdecVpos s P⟩
  | pdecVds P => exact ⟨_, fun s => exec_pdecVds s P⟩
  | fptx id seq P => exact ⟨_, fun s => exec_fptx id seq P s⟩
  | fprx | fptick | rdcnt => exact absurd hpure Bool.false_ne_true

/-- R266: the other three commands answer `OK`, and leave the rest of the host's stream. -/
theorem exec_ok_of_not_isPure {i : Instr} (h : isPure i = false) (s : State) :
    ∃ (t : State) (fields : Packet), exec i s = .next t ∧ t.responses = s.responses ++ [0x00#8 :: fields] ∧
      t.inbox = s.inbox := by
  rcases eq_of_isPure_eq_false h with ⟨id, dlc, data, now, rfl⟩ | ⟨now, rfl⟩ | rfl
  · obtain ⟨hinbox, hresponses⟩ := fprx_streams params id dlc data now s
    exact ⟨_, _, exec_fprx id dlc data now s, congrArg (· ++ [fprxReply _ _ _ _]) hresponses, hinbox⟩
  · exact ⟨_, _, exec_fptick now s, rfl, rfl⟩
  · exact ⟨_, _, exec_rdcnt s, rfl, rfl⟩

/-- The failures of the table of R261 to R263 are those of R266. -/
theorem statusCode_mem_of_fails {i : Instr} {st : Status} (h : Fails i st) :
    statusCode st = 0x7F#8 ∨ statusCode st ∈ statusesOf i := by
  cases h with
  | unknownValue => exact .inl rfl
  | shortPayload hi hlen => rcases hi with rfl | rfl | rfl | rfl <;> exact .inr List.mem_cons_self
  | longMessage => exact .inr (List.mem_cons_of_mem _ List.mem_cons_self)
  | addressing | gnssPayload | insertOutside | extractOutside | emptyMessage | manyStations =>
    exact .inr List.mem_cons_self

/-- R16: a command gives one response; it fails with one byte, or answers `OK` with its results. -/
theorem exec_one_response (i : Instr) (s : State) :
    ∃ (t : State) (status : Byte) (fields : Packet), exec i s = .next t ∧ t.inbox = s.inbox ∧
      t.responses = s.responses ++ [status :: fields] ∧ (status ≠ 0x00#8 → fields = []) ∧
      (status = 0x00#8 ∨ status = 0x7F#8 ∨ status ∈ statusesOf i) := by
  cases hpure : isPure i with
  | false =>
    obtain ⟨t, fields, hexec, hresponses, hinbox⟩ := exec_ok_of_not_isPure hpure s
    exact ⟨t, 0x00#8, fields, hexec, hinbox, hresponses, fun h => absurd rfl h, .inl rfl⟩
  | true =>
    rcases exec_ok_or_fails hpure s with ⟨fields, hexec⟩ | ⟨st, hfails⟩
    · exact ⟨_, 0x00#8, fields, hexec, rfl, rfl, fun h => absurd rfl h, .inl rfl⟩
    · exact ⟨_, statusCode st, [], hfails.exec_eq s, rfl, rfl, fun _ => rfl, .inr (statusCode_mem_of_fails hfails)⟩

end Sys2Proof.Steps

open Sys2Proof Sys2Proof.Machine Sys2Proof.RequestFormats Sys2Proof.Steps

/-- Settles O7: the decoder refuses the request, or its command gives one response (`exec_one_response`). -/
theorem oneResponsePerRequest : Obligations.OneResponsePerRequest := by
  intro s p rest hin
  cases hdec : decode p with
  | error e =>
    exact ⟨_, 0x7F#8, [], step_of_decode_error hin hdec, rfl, rfl, fun _ => rfl, .inr (.inl rfl)⟩
  | ok i =>
    obtain ⟨t, status, fields, hexec, hinbox, hresponses, hfields, hstatus⟩ := exec_one_response i { s with inbox := rest }
    exact ⟨t, status, fields, (step_of_decode_ok hin hdec).trans hexec, hinbox, hresponses, hfields,
      hstatus.imp_right (·.imp_right fun h => ⟨i, rfl, h⟩)⟩

/-- Settles O6: `step_of_decode_ok`. -/
theorem stepRunsDecodedCommand : Obligations.StepRunsDecodedCommand := fun _ _ _ _ => step_of_decode_ok

/-- Settles O8: `step_of_reset`, and the reset state by its definition. -/
theorem resetClearsTableAndCounter : Obligations.ResetClearsTableAndCounter :=
  ⟨⟨rfl, rfl, rfl⟩, fun _ _ => step_of_reset⟩

/-- Settles O12: a pure command is one response, and each of the other three answers `OK`. -/
theorem failuresLeaveNoTrace : Obligations.FailuresLeaveNoTrace :=
  fun _ => ⟨exec_eq_respond_of_isPure, exec_ok_of_not_isPure⟩

end

section
/-! SUPPORT. Received frames (`44_fast_packet.md` R201, R213 to R219): which check decides what becomes of a frame, and the state
and the response of a frame that is stored. -/

namespace Sys2Proof.Reception

open Sys2Proof Sys2Proof.Machine Sys2Proof.Config Sys2Proof.RequestFormats Sys2Proof.Receiver Sys2Proof.RoundTrip

/-! ### The bytes of a frame -/

theorem frameIndex_lt (data : Packet) : frameIndex data < 8 := by
  have hle := byteAt_le data 0
  rw [frameIndex_eq]
  omega

theorem toNat_frameSeq (data : Packet) : (frameSeq data).toNat = byteAt data 0 % 32 := by
  rw [frameSeq, Identifier.toNat_extractLsb'_div, pow_zero, Nat.div_one]
  rfl

theorem toNat_frameLen (data : Packet) : (frameLen data).toNat = byteAt data 1 := rfl

theorem frameSeq_eq_iff (S : SeqCounter) (data : Packet) : S = frameSeq data ↔ S.toNat = byteAt data 0 % 32 := by
  rw [← toNat_frameSeq, BitVec.toNat_inj]

/-! ### A frame 0 against the swept table (R215, R217) -/

theorem tableFull_eq_true_iff {c : Params} {n : Nat} :
    tableFull c n = true ↔ ∃ cap, c.fpSessions = some cap ∧ cap ≤ n := by
  unfold tableFull
  cases c.fpSessions <;> simp

theorem tableFull_eq_false_iff {c : Params} {n : Nat} :
    tableFull c n = false ↔ ∀ cap, c.fpSessions = some cap → n < cap := by
  unfold tableFull
  cases c.fpSessions <;> simp

section
variable {c : Params} {t : List Session} {id : Ident} {data : Packet} (now : Ticks) (n : Nat)
  (hfirst : frameIndex data = 0) (hpos : 1 ≤ byteAt data 1) (hle : byteAt data 1 ≤ 55)
include hfirst hpos hle

theorem acceptFrame_of_legalLen : acceptFrame c t id 8 data now n =
    if (lookupSession id t).isNone && tableFull c t.length then .error .dropTableFull
    else .ok (openSession id data now n) := by
  have hlen : ¬ ((frameLen data).toNat = 0 ∨ fpMaxLen < (frameLen data).toNat) := by
    change ¬ (byteAt data 1 = 0 ∨ 55 < byteAt data 1)
    omega
  rw [acceptFrame_first _ _ _ _ _ hfirst]
  exact if_neg hlen

theorem acceptFrame_of_full (hnone : lookupSession id t = none) (hfull : tableFull c t.length = true) :
    acceptFrame c t id 8 data now n = .error .dropTableFull := by
  rw [acceptFrame_of_legalLen now n hfirst hpos hle, hnone, hfull]
  rfl

theorem acceptFrame_of_room (hroom : lookupSession id t ≠ none ∨ tableFull c t.length = false) :
    acceptFrame c t id 8 data now n = .ok (openSession id data now n) := by
  rw [acceptFrame_of_legalLen now n hfirst hpos hle, if_neg]
  rw [Bool.and_eq_true, Option.isNone_iff_eq_none]
  rintro ⟨hnone, hfull⟩
  rcases hroom with h | h
  · exact h hnone
  · cases hfull.symm.trans h

end

/-- Whether a frame 0 has all of its message. -/
theorem sessionComplete_openSession (id : Ident) (data : Packet) (now : Ticks) (n : Nat) :
    sessionComplete (openSession id data now n) = true ↔ byteAt data 1 ≤ 6 := by
  have hmask : fullMask (frameLen data) = 2 ^ (byteAt data 1 / 7 + 1) - 1 := rfl
  rw [sessionComplete, decide_eq_true_iff, openSession, hmask, show (seenBit 0).toNat = 1 from rfl]
  constructor
  · intro h
    by_contra hlong
    have hpow : 2 ^ 2 ≤ 2 ^ (byteAt data 1 / 7 + 1) := Nat.pow_le_pow_right two_pos (by omega)
    omega
  · intro h
    rw [Nat.div_eq_of_lt (by omega)]
    rfl

/-! ### A continuation frame against the swept table (R218) -/

section
variable {c : Params} {t : List Session} {id : Ident} {data : Packet} {sn : Session} (now : Ticks) (n : Nat)
  (hcont : frameIndex data ≠ 0)
include hcont

theorem acceptFrame_of_no_session (hnone : lookupSession id t = none) :
    acceptFrame c t id 8 data now n = .error .dropNoSession := by
  rw [acceptFrame_cont _ _ _ _ _ hcont, acceptCont, hnone]

variable (hsome : lookupSession id t = some sn)
include hsome

theorem acceptFrame_of_session : acceptFrame c t id 8 data now n =
    if sn.seq ≠ frameSeq data then .error .dropOutOfSequence
    else if contCount sn.len.toNat < frameIndex data then .error .dropIndexRange
    else if sn.seen.getLsbD (frameIndex data) then .error .dropDuplicate
    else .ok (extendSession sn data now) := by
  rw [acceptFrame_cont _ _ _ _ _ hcont, acceptCont, hsome]

theorem acceptFrame_of_other_seq (hseq : sn.seq.toNat ≠ byteAt data 0 % 32) :
    acceptFrame c t id 8 data now n = .error .dropOutOfSequence := by
  rw [acceptFrame_of_session now n hcont hsome, if_pos]
  rwa [ne_eq, frameSeq_eq_iff]

variable (hseq : sn.seq.toNat = byteAt data 0 % 32)
include hseq

theorem acceptFrame_of_high_index (hindex : sn.len.toNat / 7 < byteAt data 0 / 32) :
    acceptFrame c t id 8 data now n = .error .dropIndexRange := by
  rw [acceptFrame_of_session now n hcont hsome, if_neg (not_not_intro ((frameSeq_eq_iff _ _).mpr hseq)), if_pos]
  rwa [contCount, frameIndex_eq]

variable (hindex : byteAt data 0 / 32 ≤ sn.len.toNat / 7)
include hindex

theorem acceptFrame_of_index_in_range : acceptFrame c t id 8 data now n =
    if sn.seen.getLsbD (byteAt data 0 / 32) then .error .dropDuplicate else .ok (extendSession sn data now) := by
  rw [acceptFrame_of_session now n hcont hsome, if_neg (not_not_intro ((frameSeq_eq_iff _ _).mpr hseq)), contCount,
    frameIndex_eq, if_neg (Nat.not_lt.mpr hindex)]

theorem acceptFrame_of_seen (hseen : sn.seen.getLsbD (byteAt data 0 / 32) = true) :
    acceptFrame c t id 8 data now n = .error .dropDuplicate := by
  rw [acceptFrame_of_index_in_range now n hcont hsome hseq hindex, if_pos hseen]

theorem acceptFrame_of_missing (hmissing : sn.seen.getLsbD (byteAt data 0 / 32) = false) :
    acceptFrame c t id 8 data now n = .ok (extendSession sn data now) := by
  rw [acceptFrame_of_index_in_range now n hcont hsome hseq hindex, hmissing, if_neg Bool.false_ne_true]

end

/-! ### What a frame that is stored leaves (R214, R219) -/

/-- The state in which session `sn` has been stored from a frame. -/
def stored (c : Params) (s : State) (data : Packet) (now : Ticks) (sn : Session) : State :=
  ((s.sweep c now).putSession sn).countOpened data

section
variable {c : Params} {id : Ident} {dlc : Nat} {data : Packet} {now : Ticks} {s : State} {sn : Session}
  (h : acceptFrame c (sweep c now s.sess) id dlc data now s.opened = .ok sn)
include h

theorem fprx_of_accepted (hpartial : sessionComplete sn = false) : fprx c id dlc data now s =
    (stored c s data now sn, ⟨.accepted, sweepCount c now s.sess, id, []⟩) := by
  simp only [fprx, State.sweep_sess, State.sweep_opened, h, finishFrame, hpartial]
  rfl

theorem fprx_of_completed (hcomplete : sessionComplete sn = true) : fprx c id dlc data now s =
    ((stored c s data now sn).dropSession id, ⟨.complete, sweepCount c now s.sess, id, sn.buf.take sn.len.toNat⟩) := by
  simp only [fprx, State.sweep_sess, State.sweep_opened, h, finishFrame, hcomplete]
  rfl

end

section
variable {id : Ident} {dlc : Nat} {data : Packet} {now : Ticks} {s : State} {sn : Session}
  (h : acceptFrame params (sweep params now s.sess) id dlc data now s.opened = .ok sn)
include h

theorem exec_fprx_accepted (hpartial : sessionComplete sn = false) : exec (.fprx id dlc data now) s =
    .next ((stored params s data now sn).respond
      (fprxReply 0x00#8 (s.sess.length - (sweep params now s.sess).length) id [])) := by
  rw [exec_fprx, fprx_of_accepted h hpartial, sweepCount_eq_sub]
  rfl

theorem exec_fprx_completed (hcomplete : sessionComplete sn = true) : exec (.fprx id dlc data now) s =
    .next (((stored params s data now sn).dropSession id).respond
      (fprxReply 0x01#8 (s.sess.length - (sweep params now s.sess).length) id (sn.buf.take sn.len.toNat))) := by
  rw [exec_fprx, fprx_of_completed h hcomplete, sweepCount_eq_sub]
  rfl

end

theorem stored_sess (c : Params) (s : State) (data : Packet) (now : Ticks) (sn : Session) :
    (stored c s data now sn).sess = storeSession sn (sweep c now s.sess) := rfl

/-- Storing a session and deleting it leaves the table without its key. -/
theorem lookupSession_delete_store {sn : Session} {k : Ident} (hk : k ≠ sn.key) (t : List Session) :
    lookupSession k (deleteSession sn.key (storeSession sn t)) = lookupSession k t := by
  rw [lookupSession_deleteSession_other hk, lookupSession_storeSession_other hk]

/-- R221: a frame leaves the sessions of other keys as the sweep left them. -/
theorem lookupSession_fprx_other {k id : Ident} (hk : k ≠ id) (c : Params) (dlc : Nat) (data : Packet) (now : Ticks)
    (s : State) : lookupSession k (fprx c id dlc data now s).1.sess = lookupSession k (sweep c now s.sess) := by
  rcases fprx_cases c id dlc data now s with ⟨d, -, h⟩ | ⟨sn, haccept, -, h⟩ | ⟨sn, haccept, -, h⟩
  · rw [h]
    rfl
  · rw [h]
    exact lookupSession_storeSession_other (acceptFrame_key haccept ▸ hk) _
  · obtain rfl := acceptFrame_key haccept
    rw [h]
    exact lookupSession_delete_store hk _

/-- A frame that is not dropped is no drop in its answer. -/
theorem isDrop_fprx_of_ok {c : Params} {id : Ident} {dlc : Nat} {data : Packet} {now : Ticks} {s : State} {sn : Session}
    (h : acceptFrame c (sweep c now s.sess) id dlc data now s.opened = .ok sn) :
    isDrop (fprx c id dlc data now s).2.disp = false := by
  cases hcomplete : sessionComplete sn with
  | false => rw [fprx_of_accepted h hcomplete]; rfl
  | true => rw [fprx_of_completed h hcomplete]; rfl

/-- Below the end of a frame its bytes from offset `b` on are the frame's. -/
theorem getElem?_take_drop (data : Packet) (b : Nat) {n j : Nat} (hj : j < n) :
    ((data.drop b).take n)[j]? = data[b + j]? := by
  rw [List.getElem?_take_of_lt hj, List.getElem?_drop]

/-- The first bytes of a session are those of its frame 0. -/
theorem getElem?_openSession (id : Ident) {data : Packet} (now : Ticks) (n : Nat) (hlen : data.length = 8)
    {j : Nat} (hj : j < 6) (hjlen : j < byteAt data 1) :
    (openSession id data now n).buf[j]? = data[2 + j]? := by
  have hin : 0 ≤ j ∧ j < 0 + ((data.drop 2).take 6).length ∧ j < (frameLen data).toNat ∧ j < (freshBuf n).length := by
    rw [List.length_take, List.length_drop, hlen, toNat_frameLen, length_freshBuf]
    change _ ∧ _ ∧ _ ∧ j < 55
    omega
  rw [openSession, getElem?_storeBytes, if_pos hin, Nat.sub_zero, getElem?_take_drop data 2 hj]

end Sys2Proof.Reception

open Sys2Proof Sys2Proof.Machine Sys2Proof.Config Sys2Proof.Receiver Sys2Proof.Reception

/-- Settles O40: with `q` the quotient, `7 q - 1 < L ≤ 7 q + 6`. -/
theorem continuationFrameCount : Obligations.ContinuationFrameCount := by
  intro L _
  have hcount : contCount L = L / 7 := rfl
  refine ⟨?_, by omega⟩
  have hlow : (7 : ℚ) * (L / 7 : Nat) ≤ L := by exact_mod_cast Nat.mul_div_le L 7
  have hhigh : (L : ℚ) ≤ 7 * (L / 7 : Nat) + 6 := by exact_mod_cast (show L ≤ 7 * (L / 7) + 6 by omega)
  rw [hcount, eq_comm, Int.ceil_eq_iff, Int.cast_natCast]
  constructor <;> linarith

/-- Settles O42: the sweep is a filter. -/
theorem sweepRemovesExactlyTheExpired : Obligations.SweepRemovesExactlyTheExpired := fun c now t =>
  ⟨fun _ => mem_sweep_iff, List.filter_sublist, (Nat.add_comm _ _).trans (length_sweep_add_count c now t),
    Nat.le_add_right _ _⟩

/-- Settles O44: with the table full the frame is dropped for that reason, and else it is stored. -/
theorem fullTableDropsNewKeys : Obligations.FullTableDropsNewKeys := by
  intro c id data now s hindex hpos hle hnone
  have hfirst : frameIndex data = 0 := (frameIndex_eq data).trans hindex
  rw [← tableFull_eq_true_iff]
  cases hfull : tableFull c (sweep c now s.sess).length with
  | true =>
    rw [fprx_of_error (acceptFrame_of_full now s.opened hfirst hpos hle hnone hfull)]
    exact ⟨⟨fun _ => rfl, fun _ => rfl⟩, fun _ => rfl⟩
  | false =>
    have hstored := isDrop_fprx_of_ok (acceptFrame_of_room (id := id) now s.opened hfirst hpos hle (.inr hfull))
    have hdisp : (fprx c id 8 data now s).2.disp ≠ .dropTableFull := fun h => by
      rw [h] at hstored
      cases hstored
    exact ⟨⟨fun h => absurd h Bool.false_ne_true, fun h => absurd h hdisp⟩, fun h => absurd h hdisp⟩

/-- Settles O45: the four checks in their order, each followed by `afterDrop`. -/
theorem continuationFrameIsDropped : Obligations.ContinuationFrameIsDropped := by
  intro id data now s hindex
  have hcont : frameIndex data ≠ 0 := fun h => hindex ((frameIndex_eq data).symm.trans h)
  refine ⟨fun hnone => exec_fprx_dropped (acceptFrame_of_no_session now s.opened hcont hnone), fun sn hsome =>
    ⟨fun hseq => ?_, fun hseq hhigh => ?_, fun hseq hin hseen => ?_⟩⟩
  · exact exec_fprx_dropped (acceptFrame_of_other_seq now s.opened hcont hsome hseq)
  · exact exec_fprx_dropped (acceptFrame_of_high_index now s.opened hcont hsome hseq hhigh)
  · exact exec_fprx_dropped (acceptFrame_of_seen now s.opened hcont hsome hseq hin hseen)

/-- Settles O46: the stored session is the one that the frame opens, and its message is not complete. -/
theorem firstFrameStartsSession : Obligations.FirstFrameStartsSession := by
  intro id data now s hlen hindex hlong hle hroom
  have hfirst : frameIndex data = 0 := (frameIndex_eq data).trans hindex
  have haccept := acceptFrame_of_room (id := id) now s.opened hfirst (by omega) hle
    (hroom.imp_right tableFull_eq_false_iff.mpr)
  have hpartial : sessionComplete (openSession id data now s.opened) = false := by
    rw [Bool.eq_false_iff, ne_eq, sessionComplete_openSession]
    omega
  refine ⟨_, _, exec_fprx_accepted haccept hpartial, rfl, rfl, rfl,
    lookupSession_storeSession_same (openSession id data now s.opened) _, rfl, toNat_frameSeq data, toNat_frameLen data, rfl,
    rfl, ?_, fun j hj => getElem?_openSession id now s.opened hlen hj (by omega),
    fun k hk => lookupSession_storeSession_other hk _⟩
  rw [openSession, length_storeBytes, length_freshBuf]

/-- Settles O47: the session that the frame opens is complete, so it is deleted in the same command. -/
theorem shortMessageCompletes : Obligations.ShortMessageCompletes := by
  intro id data now s hlen hindex hpos hshort hroom
  have hfirst : frameIndex data = 0 := (frameIndex_eq data).trans hindex
  have haccept := acceptFrame_of_room (id := id) now s.opened hfirst hpos (by omega)
    (hroom.imp_right tableFull_eq_false_iff.mpr)
  have hcomplete := (sessionComplete_openSession id data now s.opened).mpr hshort
  have hpayload : (openSession id data now s.opened).buf.take (openSession id data now s.opened).len.toNat =
      (data.drop 2).take (byteAt data 1) := by
    refine List.ext_getElem? fun j => ?_
    rw [show (openSession id data now s.opened).len.toNat = byteAt data 1 from rfl]
    by_cases hj : j < byteAt data 1
    · rw [List.getElem?_take_of_lt hj, getElem?_openSession id now _ hlen (by omega) hj,
        getElem?_take_drop data 2 hj]
    · rw [List.getElem?_take_eq_none (Nat.not_lt.mp hj), List.getElem?_take_eq_none (Nat.not_lt.mp hj)]
  refine ⟨_, exec_fprx_completed haccept hcomplete, ?_, rfl, rfl, lookupSession_deleteSession_same id _,
    fun k hk => lookupSession_delete_store (sn := openSession id data now s.opened) hk _⟩
  rw [hpayload]
  rfl

end

section
/-! SUPPORT. The invariant of the session table (`10_state.md` R31): the sweep, a deletion and the store of a legal session keep
it, so every step does; and what it gives for continuation frames (`44_fast_packet.md` R218 (e), R219, `60_exceptions.md`
R272). -/

namespace Sys2Proof.TableInvariant

open Sys2Proof Sys2Proof.Machine Sys2Proof.Config Sys2Proof.RequestFormats Sys2Proof.Receiver Sys2Proof.RoundTrip
  Sys2Proof.SystemCommand Sys2Proof.Failures Sys2Proof.Steps Sys2Proof.Reception

/-! ### The operations on the table -/

section
variable {c : Params} {t : List Session}

theorem tableInv_filter (h : TableInv c t) (p : Session → Bool) : TableInv c (t.filter p) where
  rising := tableWf_filter p h.rising
  sessions := fun sn hsn => h.sessions sn (List.mem_of_mem_filter hsn)
  capacity := fun cap hcap => (List.length_filter_le _ _).trans (h.capacity cap hcap)

theorem tableInv_sweep (h : TableInv c t) (now : Ticks) : TableInv c (sweep c now t) := tableInv_filter h _

theorem tableInv_deleteSession (h : TableInv c t) (k : Ident) : TableInv c (deleteSession k t) := tableInv_filter h _

/-- R217: a new key finds room. -/
theorem tableInv_storeSession (h : TableInv c t) {sn : Session} (hsn : SessionOk sn)
    (hroom : (lookupSession sn.key t).isNone = true → tableFull c t.length = false) :
    TableInv c (storeSession sn t) where
  rising := tableWf_storeSession h.rising
  sessions := fun x hx => by
    rcases (mem_storeSession h.rising).mp hx with rfl | ⟨hold, -⟩
    · exact hsn
    · exact h.sessions x hold
  capacity := fun cap hcap => by
    rw [length_storeSession sn h.rising]
    split
    next hnone => exact tableFull_eq_false_iff.mp (hroom hnone) cap hcap
    next => exact h.capacity cap hcap

theorem tableInv_empty (c : Params) : TableInv c [] where
  rising := tableWf_nil
  sessions := List.forall_mem_nil _
  capacity := fun cap _ => Nat.zero_le cap

/-- A session that is deleted as soon as it is stored leaves no trace. -/
theorem deleteSession_storeSession (sn : Session) (t : List Session) :
    deleteSession sn.key (storeSession sn t) = deleteSession sn.key t := by
  induction t with
  | nil => simp [storeSession, deleteSession]
  | cons x t ih =>
    simp only [deleteSession] at ih
    rw [storeSession]
    split
    · simp [deleteSession]
    · split
      next heq => simp [deleteSession, heq]
      next => simp [deleteSession, List.filter_cons, ih]

theorem sessionOk_of_lookup (h : TableInv c t) {k : Ident} {sn : Session} (hsn : lookupSession k t = some sn) :
    SessionOk sn := h.sessions sn (lookupSession_some hsn).1

end

/-! ### A session that is stored -/

theorem sessionOk_openSession {id : Ident} {data : Packet} {now : Ticks} {n : Nat} (hpos : 1 ≤ (frameLen data).toNat)
    (hle : (frameLen data).toNat ≤ fpMaxLen) (hpartial : sessionComplete (openSession id data now n) = false) :
    SessionOk (openSession id data now n) where
  len_pos := hpos
  len_le := hle
  buf_len := by rw [openSession, length_storeBytes, length_freshBuf]
  seen_first := getLsbD_seenBit (by omega) 0
  seen_range := fun i hi => by
    rw [openSession, getLsbD_seenBit (by omega), decide_eq_false_iff_not]
    omega
  not_complete := hpartial

theorem getLsbD_extendSession (sn : Session) (data : Packet) (now : Ticks) (i : Nat) :
    (extendSession sn data now).seen.getLsbD i = (sn.seen.getLsbD i || decide (i = frameIndex data)) := by
  rw [extendSession, BitVec.getLsbD_or, getLsbD_seenBit (frameIndex_lt data)]

theorem sessionOk_extendSession {sn : Session} {data : Packet} {now : Ticks} (h : SessionOk sn)
    (hindex : frameIndex data ≤ contCount sn.len.toNat) (hpartial : sessionComplete (extendSession sn data now) = false) :
    SessionOk (extendSession sn data now) where
  len_pos := h.len_pos
  len_le := h.len_le
  buf_len := (length_storeBytes _ _ _ _).trans h.buf_len
  seen_first := by rw [getLsbD_extendSession, h.seen_first, Bool.true_or]
  seen_range := fun i hi => by
    have hlast : contCount sn.len.toNat < i := hi
    rw [getLsbD_extendSession, h.seen_range i hlast, Bool.false_or, decide_eq_false_iff_not]
    omega
  not_complete := hpartial

/-- Which frames are stored: a frame 0 opens a session, a continuation frame extends one. -/
theorem acceptFrame_ok {c : Params} {t : List Session} {id : Ident} {dlc : Nat} {data : Packet} {now : Ticks} {n : Nat}
    {sn : Session} (h : acceptFrame c t id dlc data now n = .ok sn) :
    (frameIndex data = 0 ∧ acceptFirst c t id data now n = .ok sn) ∨
      (frameIndex data ≠ 0 ∧ acceptCont t id data now = .ok sn) := by
  unfold acceptFrame at h
  split at h
  · cases h
  · split at h
    next hfirst => exact .inl ⟨hfirst, h⟩
    next hcont => exact .inr ⟨hcont, h⟩

section
variable {c : Params} {t : List Session} {id : Ident} {dlc : Nat} {data : Packet} {now : Ticks} {n : Nat} {sn : Session}
  (h : acceptFrame c t id dlc data now n = .ok sn)
include h

theorem sessionOk_of_acceptFrame (hinv : TableInv c t) (hpartial : sessionComplete sn = false) : SessionOk sn := by
  rcases acceptFrame_ok h with ⟨-, hfirst⟩ | ⟨-, hcont⟩
  · obtain ⟨rfl, ⟨hpos, hle⟩, -⟩ := acceptFirst_ok hfirst
    exact sessionOk_openSession hpos hle hpartial
  · obtain ⟨old, hlookup, rfl, -, hindex, -⟩ := acceptCont_ok hcont
    exact sessionOk_extendSession (sessionOk_of_lookup hinv hlookup) hindex hpartial

theorem room_of_acceptFrame (hnone : (lookupSession id t).isNone = true) : tableFull c t.length = false := by
  rcases acceptFrame_ok h with ⟨-, hfirst⟩ | ⟨-, hcont⟩
  · obtain ⟨-, -, hroom⟩ := acceptFirst_ok hfirst
    exact hroom hnone
  · obtain ⟨old, hlookup, -⟩ := acceptCont_ok hcont
    rw [hlookup] at hnone
    cases hnone

end

/-! ### The commands and the step -/

theorem tableInv_fprx {c : Params} {s : State} (hinv : TableInv c s.sess) (id : Ident) (dlc : Nat) (data : Packet)
    (now : Ticks) : TableInv c (fprx c id dlc data now s).1.sess := by
  have hswept := tableInv_sweep hinv now
  rcases fprx_cases c id dlc data now s with ⟨d, -, h⟩ | ⟨sn, haccept, hpartial, h⟩ | ⟨sn, haccept, -, h⟩
  · rw [h]
    exact hswept
  · obtain rfl := acceptFrame_key haccept
    rw [h]
    exact tableInv_storeSession hswept (sessionOk_of_acceptFrame haccept hswept hpartial) (room_of_acceptFrame haccept)
  · obtain rfl := acceptFrame_key haccept
    rw [h]
    change TableInv c (deleteSession sn.key (storeSession sn (sweep c now s.sess)))
    rw [deleteSession_storeSession]
    exact tableInv_deleteSession hswept _

theorem inv_exec {i : Instr} {s t : State} (hinv : Inv s) (h : exec i s = .next t) : Inv t := by
  cases hpure : isPure i with
  | true =>
    obtain ⟨r, hr⟩ := exec_eq_respond_of_isPure hpure
    cases (hr s).symm.trans h
    exact hinv
  | false =>
    rcases eq_of_isPure_eq_false hpure with ⟨id, dlc, data, now, rfl⟩ | ⟨now, rfl⟩ | rfl
    · cases (exec_fprx id dlc data now s).symm.trans h
      exact tableInv_fprx hinv id dlc data now
    · cases (exec_fptick now s).symm.trans h
      exact tableInv_sweep hinv now
    · cases (exec_rdcnt s).symm.trans h
      exact hinv

theorem inv_step {s t : State} (hinv : Inv s) (h : step s = .next t) : Inv t := by
  rcases hin : s.inbox with _ | ⟨p | _, rest⟩
  · simp only [step, hin] at h
    cases h
    exact hinv
  · cases hdec : decode p with
    | ok i => exact inv_exec (s := { s with inbox := rest }) hinv ((step_of_decode_ok hin hdec).symm.trans h)
    | error e =>
      cases (step_of_decode_error hin hdec).symm.trans h
      exact hinv
  · cases (step_of_reset hin).symm.trans h
    exact tableInv_empty params

/-! ### A continuation frame that is stored (R218 (e), R219) -/

/-- Marking an index that was not seen adds its power of two. -/
theorem toNat_or_seenBit {x : BitVec 8} {i : Nat} (hi : i < 8) (h : x.getLsbD i = false) :
    (x ||| seenBit i).toNat = x.toNat + 2 ^ i := by
  have hpow : seenBit i = BitVec.twoPow 8 i := rfl
  have hdisjoint : x &&& BitVec.twoPow 8 i = 0#8 := by
    rw [BitVec.and_twoPow, h]
    rfl
  rw [hpow, ← BitVec.add_eq_or_of_and_eq_zero x _ hdisjoint, BitVec.toNat_add_of_and_eq_zero hdisjoint,
    BitVec.toNat_twoPow_of_lt hi]

theorem toNat_seen_extendSession {sn : Session} {data : Packet} (now : Ticks)
    (h : sn.seen.getLsbD (byteAt data 0 / 32) = false) :
    (extendSession sn data now).seen.toNat = sn.seen.toNat + 2 ^ (byteAt data 0 / 32) := by
  rw [← frameIndex_eq] at h ⊢
  exact toNat_or_seenBit (frameIndex_lt data) h

/-- The buffer after continuation frame `idx`: seven bytes at its offset, as far as they lie below the length. -/
theorem getElem?_extendSession {sn : Session} {data : Packet} (now : Ticks) (hsn : SessionOk sn) (hlen : data.length = 8)
    (hcont : byteAt data 0 / 32 ≠ 0) (p : Nat) :
    (extendSession sn data now).buf[p]? =
      if 6 + 7 * (byteAt data 0 / 32 - 1) ≤ p ∧ p < 6 + 7 * (byteAt data 0 / 32) ∧ p < sn.len.toNat
      then data[1 + (p - (6 + 7 * (byteAt data 0 / 32 - 1)))]? else sn.buf[p]? := by
  have hbytes : ((data.drop 1).take 7).length = 7 := by
    rw [List.length_take, List.length_drop, hlen]
    rfl
  have hle : sn.len.toNat ≤ 55 := hsn.len_le
  have hbuf : sn.buf.length = 55 := hsn.buf_len
  rw [extendSession, getElem?_storeBytes, hbytes, hbuf, contOffset, frameIndex_eq]
  by_cases hin : 6 + 7 * (byteAt data 0 / 32 - 1) ≤ p ∧ p < 6 + 7 * (byteAt data 0 / 32) ∧ p < sn.len.toNat
  · rw [if_pos (by omega), if_pos hin, getElem?_take_drop data 1 (by omega)]
  · rw [if_neg (by omega), if_neg hin]

end Sys2Proof.TableInvariant

open Sys2Proof Sys2Proof.Machine Sys2Proof.Config Sys2Proof.Receiver Sys2Proof.Reception Sys2Proof.TableInvariant

/-- Settles O56: `inv_step`. -/
theorem stepKeepsInvariant : Obligations.StepKeepsInvariant := fun _ _ => inv_step

/-- Settles O57: the table is empty. -/
theorem invariantHoldsAtReset : Obligations.InvariantHoldsAtReset := tableInv_empty params

/-- Settles O48: the stored session is `extendSession`, and it is complete when no index is missing from its mask. -/
theorem continuationFrameIsStored : Obligations.ContinuationFrameIsStored := by
  intro id data now s sn hinv hlen hindex hlookup hseq hin hmissing idx seen'
  have hcont : frameIndex data ≠ 0 := fun h => hindex ((frameIndex_eq data).symm.trans h)
  have hsn : SessionOk sn := sessionOk_of_lookup (tableInv_sweep hinv now) hlookup
  have haccept := acceptFrame_of_missing (c := params) now s.opened hcont hlookup hseq hin hmissing
  obtain rfl := (lookupSession_some hlookup).2
  have hseen : (extendSession sn data now).seen.toNat = seen' := toNat_seen_extendSession now hmissing
  have hcomplete : sessionComplete (extendSession sn data now) = true ↔ seen' = 2 ^ (sn.len.toNat / 7 + 1) - 1 := by
    rw [← hseen]
    exact decide_eq_true_iff
  have hbuf : (extendSession sn data now).buf.length = 55 := (length_storeBytes _ _ _ _).trans hsn.buf_len
  have hbytes := getElem?_extendSession now hsn hlen hindex
  have hfirst : (stored params s data now (extendSession sn data now)).opened = s.opened := if_neg hcont
  by_cases hall : seen' = 2 ^ (sn.len.toNat / 7 + 1) - 1
  · exact ⟨_, _, hbuf, hbytes, exec_fprx_completed haccept (hcomplete.mpr hall), rfl, rfl, hfirst,
      fun k hk => lookupSession_delete_store (sn := extendSession sn data now) hk _, fun h => absurd hall h,
      fun _ => ⟨rfl, lookupSession_deleteSession_same _ _⟩⟩
  · have hpartial : sessionComplete (extendSession sn data now) = false :=
      Bool.eq_false_iff.mpr fun h => hall (hcomplete.mp h)
    refine ⟨_, _, hbuf, hbytes, exec_fprx_accepted haccept hpartial, rfl, rfl, hfirst,
      fun k hk => lookupSession_storeSession_other (sn := extendSession sn data now) hk _, fun _ => ⟨rfl, ?_⟩,
      fun h => absurd h hall⟩
    have hmask : BitVec.ofNat 8 seen' = (extendSession sn data now).seen := by
      rw [← hseen, BitVec.ofNat_toNat, BitVec.setWidth_eq]
    rw [hmask]
    exact lookupSession_storeSession_same (extendSession sn data now) _

/-- Settles O49: the sweep takes the session away before the frame is looked at. -/
theorem expiryComesBeforeTheFrame : Obligations.ExpiryComesBeforeTheFrame := by
  intro c id data now s sn hinv hlookup hlate hindex
  have hcont : frameIndex data ≠ 0 := fun h => hindex ((frameIndex_eq data).symm.trans h)
  have hexpired : expired c now sn = true := expired_iff.mpr (by omega)
  have hswept : lookupSession id (sweep c now s.sess) = none := by
    rw [lookupSession_sweep hinv.rising, hlookup, Option.filter_some, hexpired]
    rfl
  rw [fprx_of_error (acceptFrame_of_no_session now s.opened hcont hswept)]
  exact ⟨rfl, List.countP_pos_iff.mpr ⟨sn, (lookupSession_some hlookup).1, hexpired⟩, hswept⟩

end

section
/-! SUPPORT. What a frame depends on (`10_state.md` R29, `44_fast_packet.md` R221): of the table, the session of its own key and
whether there is room; of that session, its marks and its stored bytes. Related sessions therefore get the same result and
stay related. -/

namespace Sys2Proof.Dependence

open Sys2Proof Sys2Proof.Machine Sys2Proof.Config Sys2Proof.RequestFormats Sys2Proof.Receiver Sys2Proof.RoundTrip
  Sys2Proof.SystemCommand Sys2Proof.Failures Sys2Proof.Steps Sys2Proof.Reception Sys2Proof.TableInvariant
  Sys2Proof.Encodings

/-! ### Related sessions -/

/-- Two sessions that agree on everything but their buffers. -/
structure SameMarks (a b : Session) : Prop where
  key : a.key = b.key
  seq : a.seq = b.seq
  len : a.len = b.len
  seen : a.seen = b.seen
  last : a.last = b.last

/-- Two sessions that agree on everything but bytes that no frame has stored. -/
structure SameSession (a b : Session) : Prop where
  marks : SameMarks a b
  bytes : ∀ p, storedAt a p → a.buf[p]? = b.buf[p]?
  buf_len : a.buf.length = 55
  buf_len' : b.buf.length = 55

theorem SameMarks.refl (a : Session) : SameMarks a a := ⟨rfl, rfl, rfl, rfl, rfl⟩

theorem SameMarks.sessionComplete_eq {a b : Session} (h : SameMarks a b) : sessionComplete a = sessionComplete b := by
  rw [sessionComplete, sessionComplete, h.seen, h.len]

theorem SameSession.sameStored {a b : Session} (h : SameSession a b) : SameStored a b :=
  ⟨h.marks.key, h.marks.seq, h.marks.len, h.marks.seen, h.marks.last, h.bytes⟩

theorem SameSession.of_sameStored {a b : Session} (h : SameStored a b) (ha : SessionOk a) (hb : SessionOk b) :
    SameSession a b := by
  obtain ⟨hkey, hseq, hlen, hseen, hlast, hbytes⟩ := h
  exact ⟨⟨hkey, hseq, hlen, hseen, hlast⟩, hbytes, ha.buf_len, hb.buf_len⟩

theorem SameSession.refl {a : Session} (h : SessionOk a) : SameSession a a :=
  ⟨.refl a, fun _ _ => rfl, h.buf_len, h.buf_len⟩

section
variable {id : Ident} {data : Packet} (now : Ticks)

theorem sameMarks_openSession (id : Ident) (data : Packet) (n n' : Nat) :
    SameMarks (openSession id data now n) (openSession id data now n') := ⟨rfl, rfl, rfl, rfl, rfl⟩

theorem SameMarks.extendSession {a b : Session} (h : SameMarks a b) (data : Packet) :
    SameMarks (Machine.extendSession a data now) (Machine.extendSession b data now) :=
  ⟨h.key, h.seq, h.len, congrArg (· ||| _) h.seen, rfl⟩

/-- The stored bytes of a new session are those of its frame 0. -/
theorem sameSession_openSession (hlen : data.length = 8) (n n' : Nat) :
    SameSession (openSession id data now n) (openSession id data now n') where
  marks := sameMarks_openSession now id data n n'
  bytes := fun p ⟨hp, hseen⟩ => by
    have hframe : frameOf p = 0 := by
      rwa [openSession, getLsbD_seenBit (by omega), decide_eq_true_iff] at hseen
    have hp : p < byteAt data 1 := hp
    rw [frameOf] at hframe
    rw [getElem?_openSession id now n hlen (by omega) hp, getElem?_openSession id now n' hlen (by omega) hp]
  buf_len := by rw [openSession, length_storeBytes, length_freshBuf]
  buf_len' := by rw [openSession, length_storeBytes, length_freshBuf]

/-- A byte that is stored after a continuation frame came with it or was stored before. -/
theorem SameSession.extendSession {a b : Session} (h : SameSession a b) (hlen : data.length = 8)
    (hcont : frameIndex data ≠ 0) :
    SameSession (Machine.extendSession a data now) (Machine.extendSession b data now) where
  marks := h.marks.extendSession now data
  bytes := fun p ⟨hp, hseen⟩ => by
    have hbytes : ((data.drop 1).take 7).length = 7 := by
      rw [List.length_take, List.length_drop, hlen]
      rfl
    have hp : p < a.len.toNat := hp
    simp only [Machine.extendSession, getElem?_storeBytes, hbytes, h.buf_len, h.buf_len', ← h.marks.len]
    split
    next => rfl
    next hout =>
      rw [getLsbD_extendSession, Bool.or_eq_true, decide_eq_true_iff] at hseen
      rcases hseen with hold | hnew
      · exact h.bytes p ⟨hp, hold⟩
      · rw [frameOf] at hnew
        rw [contOffset] at hout
        rw [List.getElem?_eq_none (by rw [h.buf_len]; omega), List.getElem?_eq_none (by rw [h.buf_len']; omega)]
  buf_len := (length_storeBytes _ _ _ _).trans h.buf_len
  buf_len' := (length_storeBytes _ _ _ _).trans h.buf_len'

end

/-- All bytes of a complete message have been stored. -/
theorem SameSession.payload_eq {a b : Session} (h : SameSession a b) (hcomplete : sessionComplete a = true) :
    a.buf.take a.len.toNat = b.buf.take b.len.toNat := by
  rw [← h.marks.len]
  refine List.ext_getElem? fun p => ?_
  rw [List.getElem?_take, List.getElem?_take]
  split
  next hp =>
    refine h.bytes p ⟨hp, ?_⟩
    rw [(sessionComplete_iff a).mp hcomplete, decide_eq_true_iff, frameOf, contCount]
    omega
  next => rfl

/-! ### Related answers of the checks -/

theorem isNone_eq_of_rel {R : Session → Session → Prop} {x y : Option Session} (h : Option.Rel R x y) :
    x.isNone = y.isNone := by cases h <;> rfl

/-- Tables whose sessions of the frame's key are related, and that agree on whether there is room, drop the frame for the same
reason or store related sessions. -/
theorem acceptFrame_related {R : Session → Session → Prop} {c : Params} {t t' : List Session} {id : Ident} {data : Packet}
    {now : Ticks} {n n' : Nat} (dlc : Nat) (hmarks : ∀ a b, R a b → SameMarks a b)
    (hopen : R (openSession id data now n) (openSession id data now n'))
    (hextend : ∀ a b, R a b → frameIndex data ≠ 0 → R (extendSession a data now) (extendSession b data now))
    (hlookup : Option.Rel R (lookupSession id t) (lookupSession id t'))
    (hfull : tableFull c t.length = tableFull c t'.length) :
    (∃ d, acceptFrame c t id dlc data now n = .error d ∧ acceptFrame c t' id dlc data now n' = .error d) ∨
      ∃ a b, acceptFrame c t id dlc data now n = .ok a ∧ acceptFrame c t' id dlc data now n' = .ok b ∧ R a b := by
  unfold acceptFrame
  by_cases hdlc : dlc ≠ 8
  · exact .inl ⟨_, if_pos hdlc, if_pos hdlc⟩
  rw [if_neg hdlc, if_neg hdlc]
  by_cases hfirst : frameIndex data = 0
  · simp only [if_pos hfirst, acceptFirst, isNone_eq_of_rel hlookup, hfull]
    split
    · exact .inl ⟨_, rfl, rfl⟩
    · split
      · exact .inl ⟨_, rfl, rfl⟩
      · exact .inr ⟨_, _, rfl, rfl, hopen⟩
  · rw [if_neg hfirst, if_neg hfirst, acceptCont, acceptCont]
    generalize lookupSession id t = x, lookupSession id t' = y at hlookup ⊢
    cases hlookup with
    | none => exact .inl ⟨_, rfl, rfl⟩
    | @some a b hab =>
      obtain ⟨-, hseq, hlen, hseen, -⟩ := hmarks a b hab
      simp only [hseq, hlen, hseen]
      split
      · exact .inl ⟨_, rfl, rfl⟩
      · split
        · exact .inl ⟨_, rfl, rfl⟩
        · split
          · exact .inl ⟨_, rfl, rfl⟩
          · exact .inr ⟨_, _, rfl, rfl, hextend a b hab hfirst⟩

/-- The same for the sweep's tables of two states and sessions that differ in free bytes only. -/
theorem acceptFrame_sameSession {c : Params} {id : Ident} {data : Packet} {now : Ticks} {s s' : State} (dlc : Nat)
    (hlen : data.length = 8)
    (hlookup : Option.Rel SameSession (lookupSession id (sweep c now s.sess)) (lookupSession id (sweep c now s'.sess)))
    (hfull : tableFull c (sweep c now s.sess).length = tableFull c (sweep c now s'.sess).length) :
    (∃ d, acceptFrame c (sweep c now s.sess) id dlc data now s.opened = .error d ∧
      acceptFrame c (sweep c now s'.sess) id dlc data now s'.opened = .error d) ∨
    ∃ a b, acceptFrame c (sweep c now s.sess) id dlc data now s.opened = .ok a ∧
      acceptFrame c (sweep c now s'.sess) id dlc data now s'.opened = .ok b ∧ SameSession a b :=
  acceptFrame_related dlc (fun _ _ h => h.marks) (sameSession_openSession now hlen _ _)
    (fun _ _ h hcont => h.extendSession now hlen hcont) hlookup hfull

/-- Two states that answer a frame alike give the same result and have related sessions of its key. -/
theorem fprx_related {c : Params} {id : Ident} {data : Packet} {now : Ticks} {s s' : State} (dlc : Nat)
    (hlen : data.length = 8)
    (hlookup : Option.Rel SameSession (lookupSession id (sweep c now s.sess)) (lookupSession id (sweep c now s'.sess)))
    (hfull : tableFull c (sweep c now s.sess).length = tableFull c (sweep c now s'.sess).length)
    (hcount : sweepCount c now s.sess = sweepCount c now s'.sess) :
    (fprx c id dlc data now s).2 = (fprx c id dlc data now s').2 ∧
      Option.Rel SameSession (lookupSession id (fprx c id dlc data now s).1.sess)
        (lookupSession id (fprx c id dlc data now s').1.sess) := by
  rcases acceptFrame_sameSession dlc hlen hlookup hfull with ⟨d, ha, hb⟩ | ⟨a, b, ha, hb, hab⟩
  · rw [fprx_of_error ha, fprx_of_error hb, hcount]
    exact ⟨rfl, hlookup⟩
  · cases hcomplete : sessionComplete a with
    | false =>
      rw [fprx_of_accepted ha hcomplete, fprx_of_accepted hb (hab.marks.sessionComplete_eq ▸ hcomplete), hcount]
      refine ⟨rfl, ?_⟩
      simp only [stored_sess]
      rw [← acceptFrame_key ha, lookupSession_storeSession_same, acceptFrame_key ha, ← acceptFrame_key hb,
        lookupSession_storeSession_same]
      exact .some hab
    | true =>
      rw [fprx_of_completed ha hcomplete, fprx_of_completed hb (hab.marks.sessionComplete_eq ▸ hcomplete), hcount,
        hab.payload_eq hcomplete]
      refine ⟨rfl, ?_⟩
      simp only [State.dropSession_sess, lookupSession_deleteSession_same]
      exact .none

/-! ### Tables of related sessions (R29) -/

section
variable {t t' : List Session} (h : List.Forall₂ SameSession t t')
include h

theorem forall₂_filter {p : Session → Bool} (hp : ∀ a b, SameMarks a b → p a = p b) :
    List.Forall₂ SameSession (t.filter p) (t'.filter p) :=
  List.rel_filter (fun a b hab => iff_of_eq (congrArg (· = true) (hp a b hab.marks))) h

theorem forall₂_sweep (c : Params) (now : Ticks) : List.Forall₂ SameSession (sweep c now t) (sweep c now t') :=
  forall₂_filter h fun a b hab => by rw [expired, expired, hab.last]

theorem forall₂_deleteSession (k : Ident) : List.Forall₂ SameSession (deleteSession k t) (deleteSession k t') :=
  forall₂_filter h fun a b hab => by rw [hab.key]

theorem rel_lookupSession (k : Ident) : Option.Rel SameSession (lookupSession k t) (lookupSession k t') := by
  induction h with
  | nil => exact .none
  | @cons a b _ _ hab _ ih =>
    rw [lookupSession_cons, lookupSession_cons, hab.marks.key]
    split
    · exact .some hab
    · exact ih

theorem forall₂_storeSession {a b : Session} (hab : SameSession a b) :
    List.Forall₂ SameSession (storeSession a t) (storeSession b t') := by
  induction h with
  | nil => exact .cons hab .nil
  | cons hxy hrest ih =>
    rw [storeSession, storeSession, hab.marks.key, hxy.marks.key]
    split
    · exact .cons hab (.cons hxy hrest)
    · split
      · exact .cons hab hrest
      · exact .cons hxy ih

theorem sweepCount_eq_of_forall₂ (c : Params) (now : Ticks) : sweepCount c now t = sweepCount c now t' := by
  rw [sweepCount_eq_sub, sweepCount_eq_sub, h.length_eq, (forall₂_sweep h c now).length_eq]

end

theorem forall₂_sameSession {t t' : List Session} (h : List.Forall₂ SameStored t t') (ht : ∀ x ∈ t, SessionOk x)
    (ht' : ∀ x ∈ t', SessionOk x) : List.Forall₂ SameSession t t' := by
  induction h with
  | nil => exact .nil
  | cons hab _ ih =>
    rw [List.forall_mem_cons] at ht ht'
    exact .cons (.of_sameStored hab ht.1 ht'.1) (ih ht.2 ht'.2)

/-! ### Commands on states that differ in free bytes only -/

/-- Two states with related sessions: `SameUpToFree` between states that meet the invariant. -/
structure SameStates (s t : State) : Prop where
  sess : List.Forall₂ SameSession s.sess t.sess
  dropped : s.dropped = t.dropped
  inbox : s.inbox = t.inbox
  responses : s.responses = t.responses

theorem SameStates.of_sameUpToFree {s t : State} (h : SameUpToFree s t) (hs : Inv s) (ht : Inv t) : SameStates s t := by
  obtain ⟨hsess, hdropped, hinbox, hresponses⟩ := h
  exact ⟨forall₂_sameSession hsess hs.sessions ht.sessions, hdropped, hinbox, hresponses⟩

section
variable {s t : State} (h : SameStates s t)
include h

theorem SameStates.sameUpToFree : SameUpToFree s t :=
  ⟨h.sess.imp fun _ _ => SameSession.sameStored, h.dropped, h.inbox, h.responses⟩

theorem SameStates.respond (p : Packet) : SameStates (s.respond p) (t.respond p) :=
  ⟨h.sess, h.dropped, h.inbox, congrArg (· ++ [p]) h.responses⟩

theorem SameStates.sweep (c : Params) (now : Ticks) : SameStates (s.sweep c now) (t.sweep c now) :=
  ⟨forall₂_sweep h.sess c now, h.dropped, h.inbox, h.responses⟩

theorem SameStates.stored (c : Params) (data : Packet) (now : Ticks) {a b : Session} (hab : SameSession a b) :
    SameStates (stored c s data now a) (stored c t data now b) :=
  ⟨forall₂_storeSession (forall₂_sweep h.sess c now) hab, h.dropped, h.inbox, h.responses⟩

theorem SameStates.dropSession (k : Ident) : SameStates (s.dropSession k) (t.dropSession k) :=
  ⟨forall₂_deleteSession h.sess k, h.dropped, h.inbox, h.responses⟩

theorem SameStates.countDrop : SameStates s.countDrop t.countDrop :=
  ⟨h.sess, congrArg bump h.dropped, h.inbox, h.responses⟩

theorem SameStates.withInbox (rest : List HostAction) :
    SameStates { s with inbox := rest } { t with inbox := rest } := ⟨h.sess, h.dropped, rfl, h.responses⟩

theorem SameStates.fprx (c : Params) (id : Ident) (dlc : Nat) {data : Packet} (hlen : data.length = 8) (now : Ticks) :
    (fprx c id dlc data now s).2 = (fprx c id dlc data now t).2 ∧
      SameStates (fprx c id dlc data now s).1 (fprx c id dlc data now t).1 := by
  have hsweep := forall₂_sweep h.sess c now
  have hlookup := rel_lookupSession hsweep id
  have hfull := congrArg (tableFull c) hsweep.length_eq
  refine ⟨(fprx_related dlc hlen hlookup hfull (sweepCount_eq_of_forall₂ h.sess c now)).1, ?_⟩
  rcases acceptFrame_sameSession dlc hlen hlookup hfull with ⟨d, ha, hb⟩ | ⟨a, b, ha, hb, hab⟩
  · rw [fprx_of_error ha, fprx_of_error hb]
    exact (h.sweep c now).countDrop
  · cases hcomplete : sessionComplete a with
    | false =>
      rw [fprx_of_accepted ha hcomplete, fprx_of_accepted hb (hab.marks.sessionComplete_eq ▸ hcomplete)]
      exact h.stored c data now hab
    | true =>
      rw [fprx_of_completed ha hcomplete, fprx_of_completed hb (hab.marks.sessionComplete_eq ▸ hcomplete)]
      exact (h.stored c data now hab).dropSession id

theorem SameStates.exec {i : Instr} (hwf : i.wellFormed = true) {s' : State} (hexec : exec i s = .next s') :
    ∃ t', exec i t = .next t' ∧ SameStates s' t' := by
  cases hpure : isPure i with
  | true =>
    obtain ⟨r, hr⟩ := exec_eq_respond_of_isPure hpure
    cases (hr s).symm.trans hexec
    exact ⟨_, hr t, h.respond r⟩
  | false =>
    rcases eq_of_isPure_eq_false hpure with ⟨id, dlc, data, now, rfl⟩ | ⟨now, rfl⟩ | rfl
    · have hlen : data.length = 8 := of_decide_eq_true (Bool.and_eq_true_iff.mp hwf).2
      obtain ⟨hresult, hstates⟩ := h.fprx params id dlc hlen now
      cases (exec_fprx id dlc data now s).symm.trans hexec
      rw [hresult]
      exact ⟨_, exec_fprx id dlc data now t, hstates.respond _⟩
    · cases (exec_fptick now s).symm.trans hexec
      rw [sweepCount_eq_of_forall₂ h.sess]
      exact ⟨_, exec_fptick now t, (h.sweep params now).respond _⟩
    · cases (exec_rdcnt s).symm.trans hexec
      rw [h.dropped, h.sess.length_eq]
      exact ⟨_, exec_rdcnt t, h.respond _⟩

theorem SameStates.step {s' : State} (hstep : step s = .next s') : ∃ t', step t = .next t' ∧ SameStates s' t' := by
  have hinbox := h.inbox
  rcases hs : s.inbox with _ | ⟨p | _, rest⟩ <;> rw [hs, eq_comm] at hinbox
  · have hidle {u : State} (hu : u.inbox = []) : Machine.step u = .next u := by simp only [Machine.step, hu]
    cases (hidle hs).symm.trans hstep
    exact ⟨t, hidle hinbox, h⟩
  · cases hdec : decode p with
    | ok i =>
      rw [step_of_decode_ok hs hdec] at hstep
      rw [step_of_decode_ok hinbox hdec]
      exact (h.withInbox rest).exec (wellFormed_of_decode hdec) hstep
    | error e =>
      cases (step_of_decode_error hs hdec).symm.trans hstep
      exact ⟨_, step_of_decode_error hinbox hdec, (h.withInbox rest).respond _⟩
  · cases (step_of_reset hs).symm.trans hstep
    exact ⟨_, step_of_reset hinbox, .nil, rfl, rfl, h.responses⟩

end

end Sys2Proof.Dependence

open Sys2Proof Sys2Proof.Machine Sys2Proof.Config Sys2Proof.Receiver Sys2Proof.Reception Sys2Proof.Dependence

/-- Settles O58: a step reads stored bytes only, and a message is complete only when all its bytes are. -/
theorem unstoredBytesAreUnobservable : Obligations.UnstoredBytesAreUnobservable := by
  intro s t s' hs ht hsame hstep
  obtain ⟨t', ht', hsame'⟩ := (SameStates.of_sameUpToFree hsame hs ht).step hstep
  exact ⟨t', ht', hsame'.sameUpToFree⟩

/-- Settles O53: the checks read the frame's own session and the number of sessions (`acceptFrame_related`). -/
theorem framesDoNotInterfere : Obligations.FramesDoNotInterfere := by
  intro c id data now s hcount
  have hkeep {u : State} (hu : sweepCount c now u.sess = 0) : sweep c now u.sess = u.sess :=
    List.filter_eq_self.mpr fun x hx => by
      simpa using List.countP_eq_zero.mp hu x hx
  refine ⟨fun k hk => ?_, fun s' hcount' hlookup hlength => ?_⟩
  · rw [lookupSession_fprx_other hk, hkeep hcount]
  · have hrel : Option.Rel SameMarks (lookupSession id (sweep c now s'.sess)) (lookupSession id (sweep c now s.sess)) := by
      rw [hkeep hcount, hkeep hcount', hlookup]
      cases lookupSession id s.sess with
      | none => exact .none
      | some sn => exact .some (.refl sn)
    have hfull : tableFull c (sweep c now s'.sess).length = tableFull c (sweep c now s.sess).length := by
      rw [hkeep hcount, hkeep hcount', hlength]
    rcases acceptFrame_related 8 (fun _ _ h => h) (sameMarks_openSession now id data s'.opened s.opened)
      (fun _ _ h _ => h.extendSession now data) hrel hfull with ⟨d, ha, hb⟩ | ⟨a, b, ha, hb, hab⟩
    · rw [fprx_of_error ha, fprx_of_error hb]
    · cases hcomplete : sessionComplete a with
      | false => rw [fprx_of_accepted ha hcomplete, fprx_of_accepted hb (hab.sessionComplete_eq ▸ hcomplete)]
      | true => rw [fprx_of_completed ha hcomplete, fprx_of_completed hb (hab.sessionComplete_eq ▸ hcomplete)]

end

section
/-! SUPPORT. Interleaved messages (`44_fast_packet.md` R221): while nothing expires and the table has room, the session of one
identifier follows the frames of that identifier, whatever comes between them. -/

namespace Sys2Proof.Interleaving

open Sys2Proof Sys2Proof.Machine Sys2Proof.Config Sys2Proof.Receiver Sys2Proof.Reception Sys2Proof.TableInvariant
  Sys2Proof.Dependence

/-! ### What a frame adds to the table -/

theorem last_of_acceptFrame {c : Params} {t : List Session} {id : Ident} {dlc : Nat} {data : Packet} {now : Ticks} {n : Nat}
    {sn : Session} (h : acceptFrame c t id dlc data now n = .ok sn) : sn.last = now := by
  rcases acceptFrame_ok h with ⟨-, hfirst⟩ | ⟨-, hcont⟩
  · obtain ⟨rfl, -⟩ := acceptFirst_ok hfirst
    rfl
  · obtain ⟨old, -, rfl, -⟩ := acceptCont_ok hcont
    rfl

section
variable {c : Params} {s : State} (hinv : TableInv c s.sess) (id : Ident) (dlc : Nat) (data : Packet) (now : Ticks)
include hinv

/-- A session after a frame stood there before, or has just received that frame. -/
theorem mem_fprx {x : Session} (hx : x ∈ (fprx c id dlc data now s).1.sess) : x ∈ s.sess ∨ x.last = now := by
  have hrising := tableWf_sweep (c := c) (now := now) hinv.rising
  have hswept {y : Session} (hy : y ∈ sweep c now s.sess) : y ∈ s.sess := (mem_sweep.mp hy).1
  rcases fprx_cases c id dlc data now s with ⟨d, -, h⟩ | ⟨sn, haccept, -, h⟩ | ⟨sn, haccept, -, h⟩ <;> rw [h] at hx
  · exact .inl (hswept hx)
  · rcases (mem_storeSession hrising).mp hx with rfl | ⟨hold, -⟩
    · exact .inr (last_of_acceptFrame haccept)
    · exact .inl (hswept hold)
  · rcases (mem_storeSession hrising).mp (mem_deleteSession.mp hx).1 with rfl | ⟨hold, -⟩
    · exact .inr (last_of_acceptFrame haccept)
    · exact .inl (hswept hold)

theorem length_fprx_le : (fprx c id dlc data now s).1.sess.length ≤ s.sess.length + 1 := by
  have hrising := tableWf_sweep (c := c) (now := now) hinv.rising
  have hswept := length_sweep_le c now s.sess
  have hstore (sn : Session) : (storeSession sn (sweep c now s.sess)).length ≤ s.sess.length + 1 := by
    rw [length_storeSession sn hrising]
    split <;> omega
  rcases fprx_cases c id dlc data now s with ⟨d, -, h⟩ | ⟨sn, -, -, h⟩ | ⟨sn, -, -, h⟩ <;> rw [h]
  · exact hswept.trans (Nat.le_succ _)
  · exact hstore sn
  · exact (List.length_filter_le _ _).trans (hstore sn)

end

/-! ### Frames that meet no expiry and no full table -/

/-- While the frames `fs` are offered from `s` on, nothing expires and the table has room. -/
structure Undisturbed (c : Params) (fs : List (Ident × Packet × Ticks)) (s : State) : Prop where
  inv : TableInv c s.sess
  sizes : ∀ f ∈ fs, f.2.1.length = 8
  live : ∀ sn ∈ s.sess, ∀ f ∈ fs, f.2.2.toNat ≤ sn.last.toNat + c.fpTimeout
  close : ∀ g ∈ fs, ∀ f ∈ fs, f.2.2.toNat ≤ g.2.2.toNat + c.fpTimeout
  room : ∀ cap, c.fpSessions = some cap → s.sess.length + fs.length ≤ cap

section
variable {c : Params} {f : Ident × Packet × Ticks} {fs : List (Ident × Packet × Ticks)} {s : State}

theorem Undisturbed.filter (h : Undisturbed c fs s) (p : Ident × Packet × Ticks → Bool) :
    Undisturbed c (fs.filter p) s where
  inv := h.inv
  sizes := fun f hf => h.sizes f (List.mem_of_mem_filter hf)
  live := fun sn hsn f hf => h.live sn hsn f (List.mem_of_mem_filter hf)
  close := fun g hg f hf => h.close g (List.mem_of_mem_filter hg) f (List.mem_of_mem_filter hf)
  room := fun cap hcap => (Nat.add_le_add_left (List.length_filter_le p fs) _).trans (h.room cap hcap)

variable (h : Undisturbed c (f :: fs) s)
include h

theorem Undisturbed.length_data : f.2.1.length = 8 := h.sizes f List.mem_cons_self

theorem Undisturbed.sweep_eq : sweep c f.2.2 s.sess = s.sess :=
  List.filter_eq_self.mpr fun sn hsn => by
    have hlive := h.live sn hsn f List.mem_cons_self
    have hkept : expired c f.2.2 sn = false := Bool.eq_false_iff.mpr fun hexpired => by
      have hold := expired_iff.mp hexpired
      omega
    rw [hkept]
    rfl

theorem Undisturbed.sweepCount_eq : sweepCount c f.2.2 s.sess = 0 := by
  rw [sweepCount_eq_sub, h.sweep_eq, Nat.sub_self]

theorem Undisturbed.not_full : tableFull c (sweep c f.2.2 s.sess).length = false := by
  rw [h.sweep_eq, tableFull_eq_false_iff]
  intro cap hcap
  have hroom := h.room cap hcap
  rw [List.length_cons] at hroom
  omega

theorem Undisturbed.next : Undisturbed c fs (fprx c f.1 8 f.2.1 f.2.2 s).1 where
  inv := tableInv_fprx h.inv _ _ _ _
  sizes := fun g hg => h.sizes g (List.mem_cons_of_mem f hg)
  live := fun sn hsn g hg => by
    rcases mem_fprx h.inv _ _ _ _ hsn with hold | hnew
    · exact h.live sn hold g (List.mem_cons_of_mem f hg)
    · rw [hnew]
      exact h.close f List.mem_cons_self g (List.mem_cons_of_mem f hg)
  close := fun g hg g' hg' => h.close g (List.mem_cons_of_mem f hg) g' (List.mem_cons_of_mem f hg')
  room := fun cap hcap => by
    have hroom := h.room cap hcap
    have hle := length_fprx_le h.inv f.1 8 f.2.1 f.2.2
    rw [List.length_cons] at hroom
    omega

end

/-! ### The mixed run beside the run of one identifier -/

theorem offerAll_cons (c : Params) (f : Ident × Packet × Ticks) (fs : List (Ident × Packet × Ticks)) (s : State) :
    (offerAll c (f :: fs) s).2 =
      (f.1, (fprx c f.1 8 f.2.1 f.2.2 s).2) :: (offerAll c fs (fprx c f.1 8 f.2.1 f.2.2 s).1).2 := rfl

/-- A frame of the identifier gives the same result in both runs, and another frame leaves the identifier's session. -/
theorem filter_offerAll {c : Params} {id : Ident} (fs : List (Ident × Packet × Ticks)) {mixed alone : State}
    (hmixed : Undisturbed c fs mixed) (halone : Undisturbed c (fs.filter fun f => f.1 = id) alone)
    (hsession : Option.Rel SameSession (lookupSession id mixed.sess) (lookupSession id alone.sess)) :
    (offerAll c fs mixed).2.filter (fun r => r.1 = id) = (offerAll c (fs.filter fun f => f.1 = id) alone).2 := by
  induction fs generalizing mixed alone with
  | nil => rfl
  | cons f fs ih =>
    by_cases hid : f.1 = id
    · rw [List.filter_cons_of_pos (by simpa using hid)] at halone ⊢
      have hlookup : Option.Rel SameSession (lookupSession f.1 (sweep c f.2.2 mixed.sess))
          (lookupSession f.1 (sweep c f.2.2 alone.sess)) := by
        rwa [hmixed.sweep_eq, halone.sweep_eq, hid]
      obtain ⟨hresult, hnext⟩ := fprx_related 8 hmixed.length_data hlookup
        (hmixed.not_full.trans halone.not_full.symm) (hmixed.sweepCount_eq.trans halone.sweepCount_eq.symm)
      rw [offerAll_cons, offerAll_cons, List.filter_cons_of_pos (by simpa using hid), hresult,
        ih hmixed.next halone.next (hid ▸ hnext)]
    · rw [List.filter_cons_of_neg (by simpa using hid)] at halone ⊢
      rw [offerAll_cons, List.filter_cons_of_neg (by simpa using hid)]
      refine ih hmixed.next halone ?_
      rwa [lookupSession_fprx_other (Ne.symm hid), hmixed.sweep_eq]

theorem rel_lookupSession_self {c : Params} {t : List Session} (h : TableInv c t) (id : Ident) :
    Option.Rel SameSession (lookupSession id t) (lookupSession id t) := by
  cases hlookup : lookupSession id t with
  | none => exact .none
  | some sn => exact .some (.refl (sessionOk_of_lookup h hlookup))

end Sys2Proof.Interleaving

open Sys2Proof.Interleaving

/-- Settles O54: both runs start in the same state, so with the same session of the identifier (`filter_offerAll`). -/
theorem interleavingIsHarmless : Obligations.InterleavingIsHarmless := by
  intro c id fs s hinv hsizes htimes hroom
  have hstart : Undisturbed c fs s :=
    { inv := hinv, sizes := hsizes, room := hroom
      live := fun sn hsn => htimes _ (List.mem_append_left _ (List.mem_map_of_mem hsn))
      close := fun g hg => htimes _ (List.mem_append_right _ (List.mem_map_of_mem hg)) }
  exact filter_offerAll fs hstart (hstart.filter _) (rel_lookupSession_self hinv id)

end

section
/-! SUPPORT. The byte primitives (`00_scope.md` R15, `20_memory.md` R44) byte by byte: a read is the sum of its bytes at their
weights, and a write puts the bytes of its value between what stood before and after them. -/

namespace Sys2Proof.ByteAccess

open Sys2Proof Sys2Proof.Machine Sys2Proof.WholeBytes

/-! ### Bytes of a string -/

theorem byteAt_cons_zero (b : Byte) (bs : Packet) : byteAt (b :: bs) 0 = b.toNat := rfl

theorem byteAt_cons_succ (b : Byte) (bs : Packet) (k : Nat) : byteAt (b :: bs) (k + 1) = byteAt bs k := rfl

theorem byteAt_append (A B : Packet) (k : Nat) :
    byteAt (A ++ B) k = if k < A.length then byteAt A k else byteAt B (k - A.length) := by
  unfold byteAt
  split
  next hlow => rw [List.getD_append _ _ _ _ hlow]
  next hhigh => rw [List.getD_append_right _ _ _ _ (Nat.not_lt.mp hhigh)]

theorem byteAt_drop (B : Packet) (a k : Nat) : byteAt (B.drop a) k = byteAt B (a + k) := by
  rw [byteAt, byteAt, List.getD_eq_getElem?_getD, List.getElem?_drop, ← List.getD_eq_getElem?_getD]

theorem byteAt_take {B : Packet} {n k : Nat} (h : k < n) : byteAt (B.take n) k = byteAt B k := by
  rw [byteAt, byteAt, List.getD_eq_getElem?_getD, List.getElem?_take_of_lt h, ← List.getD_eq_getElem?_getD]

theorem byteAt_leBytes {n k : Nat} (v : Nat) (h : k < n) : byteAt (leBytes n v) k = v / 2 ^ (8 * k) % 256 := by
  induction n generalizing v k with
  | zero => omega
  | succ n ih =>
    rw [leBytes]
    cases k with
    | zero => rw [byteAt_cons_zero, BitVec.toNat_ofNat, Nat.mul_zero, pow_zero, Nat.div_one]
    | succ k =>
      rw [byteAt_cons_succ, ih (v / 256) (by omega), Nat.div_div_eq_div_mul, show (256 : Nat) = 2 ^ 8 from rfl, ← pow_add,
        Nat.mul_succ, Nat.add_comm 8]

/-! ### The two primitives -/

theorem ofLe_eq_sum (bs : Packet) :
    ofLe bs = ((List.range bs.length).map fun k => byteAt bs k * 2 ^ (8 * k)).sum := by
  induction bs with
  | nil => rfl
  | cons b bs ih =>
    have hweight (k : Nat) : byteAt (b :: bs) (k + 1) * 2 ^ (8 * (k + 1)) = 256 * (byteAt bs k * 2 ^ (8 * k)) := by
      rw [byteAt_cons_succ, Nat.mul_succ, pow_add, show (2 : Nat) ^ 8 = 256 from rfl]
      ring
    rw [List.length_cons, List.range_succ_eq_map, List.map_cons, List.map_map, List.sum_cons, Function.comp_def]
    simp only [hweight]
    rw [List.sum_map_mul_left, ← ih, byteAt_cons_zero, Nat.mul_zero, pow_zero, Nat.mul_one, ofLe]

theorem memRead_eq_sum {B : Packet} {a n : Nat} (h : a + n ≤ B.length) :
    memRead B a n = ((List.range n).map fun k => byteAt B (a + k) * 2 ^ (8 * k)).sum := by
  have hlen : ((B.drop a).take n).length = n := List.length_take_of_le (by rw [List.length_drop]; omega)
  rw [memRead, ofLe_eq_sum, hlen]
  refine congrArg List.sum (List.map_congr_left fun k hk => ?_)
  rw [byteAt_take (List.mem_range.mp hk), byteAt_drop]

theorem length_memWrite {B : Packet} {a n : Nat} (h : a + n ≤ B.length) (v : Nat) :
    (memWrite B a n v).length = B.length := by
  rw [memWrite, List.length_append, List.length_append, leBytes_length, List.length_take, List.length_drop]
  omega

theorem byteAt_memWrite {B : Packet} {a n : Nat} (h : a + n ≤ B.length) (v p : Nat) :
    byteAt (memWrite B a n v) p = if a ≤ p ∧ p < a + n then v / 2 ^ (8 * (p - a)) % 256 else byteAt B p := by
  have hlen : (B.take a).length = a := List.length_take_of_le (by omega)
  rw [memWrite, byteAt_append, byteAt_append, List.length_append, leBytes_length, hlen]
  by_cases hbefore : p < a
  · rw [if_pos (by omega), if_pos hbefore, if_neg (by omega), byteAt_take hbefore]
  · by_cases hinside : p < a + n
    · rw [if_pos hinside, if_neg hbefore, if_pos (by omega), byteAt_leBytes v (by omega)]
    · rw [if_neg hinside, if_neg (by omega), byteAt_drop, Nat.add_sub_cancel' (by omega)]

theorem bitWrite_eq_memWrite {B : Packet} {a n : Nat} (h : a + n ≤ B.length) (v : Nat) :
    bitWrite B (8 * a) (8 * n) v = memWrite B a n v := by
  have hfront : (B.take a).length = a := List.length_take_of_le (by omega)
  have hfield : ((B.drop a).take n).length = n := List.length_take_of_le (by rw [List.length_drop]; omega)
  have hwrite := bitWrite_bytes (B.take a) ((B.drop a).take n) ((B.drop a).drop n) v
  rwa [List.append_assoc, List.take_append_drop, List.take_append_drop, hfront, hfield, List.drop_drop] at hwrite

end Sys2Proof.ByteAccess

open Sys2Proof.Machine Sys2Proof.WholeBytes Sys2Proof.ByteAccess

/-- Settles O25: `memRead_eq_sum` and `byteAt_memWrite`. -/
theorem memoryIsLittleEndian : Obligations.MemoryIsLittleEndian :=
  ⟨fun _ _ _ => memRead_eq_sum, fun _ _ _ v h _ => ⟨length_memWrite h v, byteAt_memWrite h v⟩⟩

/-- Settles O26: the bits of a number are the bits of its little-endian bytes. -/
theorem bitAccessIsByteAccess : Obligations.BitAccessIsByteAccess :=
  fun B a n h => ⟨bitRead_bytes B a n, fun v _ => bitWrite_eq_memWrite h v⟩

end

section
/-! SUPPORT. Payload round trips (`43_pgn_codecs.md` R178). A field of whole bytes reads the code that was written into it; a code
goes through the scaler and back unchanged, and a value comes back as near as its field allows. -/

namespace Sys2Proof.PayloadRoundTrip

open Sys2Proof Sys2Proof.Machine Sys2Proof.Config Sys2Proof.RequestFormats Sys2Proof.Rounding Sys2Proof.Scaler
  Sys2Proof.WholeBytes Sys2Proof.PgnCodecs Sys2Proof.PgnDecoders

/-! ### Fields with a sentinel in whole bytes -/

/-- A field of `n` whole bytes with a sentinel, as all `phys` and `rawopt` fields of R152 are. -/
structure ByteField (d : FieldDesc) (n : Nat) : Prop where
  width : d.width = 8 * n
  pos : 1 ≤ n
  scale : 0 < d.scale
  unit : 0 < d.unit
  sentinel : d.hasSentinel = true

theorem byteField_physField {pos w n : Nat} {isSigned : Bool} {scale offset unit : ℚ} (hw : w = 8 * n) (hn : 1 ≤ n)
    (hscale : 0 < scale) (hunit : 0 < unit) : ByteField (physField pos w isSigned scale offset unit) n :=
  ⟨hw, hn, hscale, hunit, rfl⟩

/-- Such a field of integer codes: its values are the integers themselves (R153). -/
structure CodeField (d : FieldDesc) (n : Nat) : Prop extends ByteField d n where
  plain : ∃ pos w isSigned, d = rawOptField pos w isSigned

theorem codeField_rawOptField {pos w n : Nat} {isSigned : Bool} (hw : w = 8 * n) (hn : 1 ≤ n) :
    CodeField (rawOptField pos w isSigned) n := ⟨⟨hw, hn, one_pos, one_pos, rfl⟩, _, _, _, rfl⟩

theorem deg2rad_pos : 0 < deg2rad := by norm_num [deg2rad]
theorem mps2kmh_pos : 0 < mps2kmh := by norm_num [mps2kmh]

theorem byteField_posrLat : ByteField posrLat 4 := byteField_physField rfl (by omega) (by norm_num) one_pos
theorem byteField_posrLon : ByteField posrLon 4 := byteField_physField rfl (by omega) (by norm_num) one_pos
theorem byteField_vpLat : ByteField vpLat 4 := byteField_physField rfl (by omega) (by norm_num) one_pos
theorem byteField_vpLon : ByteField vpLon 4 := byteField_physField rfl (by omega) (by norm_num) one_pos
theorem byteField_csCog : ByteField csCog 2 := byteField_physField rfl (by omega) (by norm_num) deg2rad_pos
theorem byteField_csSog : ByteField csSog 2 := byteField_physField rfl (by omega) (by norm_num) one_pos
theorem byteField_vdBearing : ByteField vdBearing 2 := byteField_physField rfl (by omega) (by norm_num) one_pos
theorem byteField_vdSpeed : ByteField vdSpeed 2 := byteField_physField rfl (by omega) (by norm_num) mps2kmh_pos
theorem byteField_gTod : ByteField gTod 4 := byteField_physField rfl (by omega) (by norm_num) one_pos
theorem byteField_gLat : ByteField gLat 8 := byteField_physField rfl (by omega) (by norm_num) one_pos
theorem byteField_gLon : ByteField gLon 8 := byteField_physField rfl (by omega) (by norm_num) one_pos
theorem byteField_gAlt : ByteField gAlt 8 := byteField_physField rfl (by omega) (by norm_num) one_pos
theorem codeField_vdPitch : CodeField vdPitch 2 := codeField_rawOptField rfl (by omega)
theorem codeField_vdAlt : CodeField vdAlt 2 := codeField_rawOptField rfl (by omega)
theorem codeField_gDate : CodeField gDate 2 := codeField_rawOptField rfl (by omega)
theorem codeField_gNumsv : CodeField gNumsv 1 := codeField_rawOptField rfl (by omega)
theorem codeField_gHdop : CodeField gHdop 2 := codeField_rawOptField rfl (by omega)
theorem codeField_gPdop : CodeField gPdop 2 := codeField_rawOptField rfl (by omega)
theorem codeField_gGeoid : CodeField gGeoid 4 := codeField_rawOptField rfl (by omega)
theorem codeField_gTid (j : Nat) : CodeField (gTid j) 2 := codeField_rawOptField rfl (by omega)
theorem codeField_gAge (j : Nat) : CodeField (gAge j) 2 := codeField_rawOptField rfl (by omega)

section
variable {d : FieldDesc} {n : Nat} (h : ByteField d n)
include h

theorem ByteField.one_le_width : 1 ≤ d.width := by
  have hwidth := h.width
  have hpos := h.pos
  omega

theorem ByteField.fenc_lt (t : RoundTies) (v : Option PhysInput) : fenc t d v < 2 ^ (8 * n) := by
  rw [← h.width]
  cases v with
  | none => exact sentinel_lt d
  | some x =>
    rw [fenc_some_eq_tc h.one_le_width]
    exact tc_lt _ _

/-- R178 (a) for one field. -/
theorem ByteField.recovered (t : RoundTies) (v : Option PhysInput) : Recovered t d v (fdec d (fenc t d v)) := by
  refine ⟨fun hnone => ?_, fun q hq hlo hhi => ?_⟩
  · rw [hnone]
    exact fdec_sentinel h.sentinel
  · rw [hq, fdec_fenc h.one_le_width, fencInt_of_mem_range h.one_le_width hlo hhi]
    exact ⟨_, rfl, abs_unscale_roundTo_sub_le h.scale h.unit t q⟩

/-- R178 (b) for one field. -/
theorem ByteField.fenc_fdec_memRead (t : RoundTies) (P : Packet) (a : Nat) :
    fenc t d ((fdec d (memRead P a n)).map .rat) = memRead P a n :=
  fenc_fdec h.one_le_width h.scale h.unit t (h.width ▸ memRead_lt P a n)

end

section
variable {d : FieldDesc} {n : Nat} (h : CodeField d n)
include h

theorem CodeField.quotient_eq (q : ℚ) : quotient d q = q := by
  obtain ⟨pos, w, isSigned, rfl⟩ := h.plain
  exact quotient_rawOptField q

theorem CodeField.unscale_eq (k : Int) : unscale d k = k := by
  obtain ⟨pos, w, isSigned, rfl⟩ := h.plain
  exact unscale_rawOptField k

/-- R178 (a) for one field of integer codes. -/
theorem CodeField.recoveredCode (t : RoundTies) (v : Option Int) : RecoveredCode d v (fdecInt d (fenc t d (intNum v))) := by
  have hw := h.one_le_width
  refine ⟨fun hnone => ?_, fun k hk hlo hhi => ?_⟩
  · rw [hnone]
    exact fdecInt_sentinel h.sentinel
  · have hround : roundTo t (quotient d k) = k := by rw [h.quotient_eq, roundTo_intCast]
    rw [hk, intNum_some, fenc, fencInt_of_mem_range hw (hround.symm ▸ hlo) (hround.symm ▸ hhi), hround,
      fdecInt_codeOf hw hlo hhi]

/-- R178 (b) for one field of integer codes. -/
theorem CodeField.fenc_intNum_memRead (t : RoundTies) (P : Packet) (a : Nat) :
    fenc t d (intNum (fdecInt d (memRead P a n))) = memRead P a n := by
  have hvalue (k : Option Int) : intNum k = (k.map (unscale d)).map .rat := by
    cases k with
    | none => rfl
    | some m => rw [intNum_some, Option.map_some, Option.map_some, h.unscale_eq]
  rw [hvalue]
  exact h.fenc_fdec_memRead t P a

end

/-! ### Reading a payload that was written field by field -/

section
variable (B : Packet) {k n : Nat}

theorem memRead_cons_zero (b : Byte) : memRead (b :: B) 0 1 = b.toNat := memRead_one _ 0

theorem memRead_cons_skip (b : Byte) (h : 1 ≤ k) : memRead (b :: B) k n = memRead B (k - 1) n := by
  obtain ⟨k, rfl⟩ := Nat.exists_eq_add_of_le' h
  rfl

theorem memRead_append_skip {A : Packet} (h : A.length ≤ k) : memRead (A ++ B) k n = memRead B (k - A.length) n := by
  rw [memRead, memRead, List.drop_append, List.drop_eq_nil_of_le h, List.nil_append]

theorem memRead_leBytes_skip {m : Nat} (c : Nat) (h : m ≤ k) : memRead (leBytes m c ++ B) k n = memRead B (k - m) n := by
  rw [memRead_append_skip B (by rwa [leBytes_length]), leBytes_length]

theorem ByteField.memRead_fenc {d : FieldDesc} (h : ByteField d n) (t : RoundTies) (v : Option PhysInput) :
    memRead (leBytes n (fenc t d v) ++ B) 0 n = fenc t d v := by
  have hlt := h.fenc_lt t v
  rw [pow_mul] at hlt
  rw [memRead, List.drop_zero, List.take_left' (leBytes_length n _), ofLe_leBytes hlt]

theorem ByteField.memRead_fenc_last {d : FieldDesc} (h : ByteField d n) (t : RoundTies) (v : Option PhysInput) :
    memRead (leBytes n (fenc t d v)) 0 n = fenc t d v := by
  rw [← List.append_nil (leBytes n _)]
  exact h.memRead_fenc [] t v

end

/-! ### Writing back what was read -/

theorem leBytes_memRead {P : Packet} {a n : Nat} (h : a + n ≤ P.length) :
    leBytes n (memRead P a n) = (P.drop a).take n := by
  have hlen : ((P.drop a).take n).length = n := List.length_take_of_le (by rw [List.length_drop]; omega)
  have hbytes := leBytes_ofLe ((P.drop a).take n)
  rwa [hlen] at hbytes

/-- The bytes of a field, followed by the rest of the payload. -/
theorem leBytes_memRead_append {P : Packet} {a n : Nat} (h : a + n ≤ P.length) :
    leBytes n (memRead P a n) ++ P.drop (a + n) = P.drop a := by
  rw [leBytes_memRead h, ← List.drop_drop, List.take_append_drop]

/-- One byte, followed by the rest of the payload. -/
theorem getD_cons_drop {P : Packet} {a : Nat} (h : a < P.length) : P.getD a 0#8 :: P.drop (a + 1) = P.drop a := by
  rw [List.getD_eq_getElem _ _ h, List.drop_eq_getElem_cons h]

/-- The last field of a payload. -/
theorem leBytes_memRead_last {P : Packet} {a n : Nat} (h : a + n = P.length) : leBytes n (memRead P a n) = P.drop a := by
  rw [leBytes_memRead h.le, List.take_of_length_le (by rw [List.length_drop]; omega)]

/-! ### Integer fields -/

theorem getInt_bytes (P : Packet) (a : Nat) {n pos w : Nat} {isSigned : Bool} (hpos : pos = 8 * a) (hwidth : w = 8 * n) :
    getInt P (rawOptField pos w isSigned) = fdecInt (rawOptField pos w isSigned) (memRead P a n) := by
  rw [getInt_rawOptField, hpos, hwidth, bitRead_bytes]

theorem pdecVds_ok {P : Packet} (h : P.length = 8) : pdecVds P =
    .ok ⟨fdec vdBearing (memRead P 0 2), fdec vdSpeed (memRead P 2 2), fdecInt vdPitch (memRead P 4 2),
      fdecInt vdAlt (memRead P 6 2)⟩ := by
  have hpitch : getInt P vdPitch = fdecInt vdPitch (memRead P 4 2) := getInt_bytes P 4 rfl rfl
  have halt : getInt P vdAlt = fdecInt vdAlt (memRead P 6 2) := getInt_bytes P 6 rfl rfl
  rw [pdecVds, if_neg (not_not_intro h), getField_bytes P 0 2 rfl rfl, getField_bytes P 2 2 rfl rfl, hpitch, halt]

/-- The fields of a GNSS payload by their bytes. -/
theorem gnssFields_eq (P : Packet) (n : Nat) : gnssFields P n =
    { sid := P.getD 0 0#8, date := fdecInt gDate (memRead P 1 2), tod := fdec gTod (memRead P 3 4),
      lat := fdec gLat (memRead P 7 8), lon := fdec gLon (memRead P 15 8), alt := fdec gAlt (memRead P 23 8),
      fixtype := BitVec.ofNat 4 (byteAt P 31 % 16), method := BitVec.ofNat 4 (byteAt P 31 / 16),
      integ := P.getD 32 0#8, numsv := fdecInt gNumsv (memRead P 33 1), hdop := fdecInt gHdop (memRead P 34 2),
      pdop := fdecInt gPdop (memRead P 36 2), geoid := fdecInt gGeoid (memRead P 38 4), nref := P.getD 42 0#8,
      stations := (List.range n).map fun j =>
        (fdecInt (gTid j) (memRead P (43 + 4 * j) 2), fdecInt (gAge j) (memRead P (45 + 4 * j) 2)) } := by
  have hdate : getInt P gDate = fdecInt gDate (memRead P 1 2) := getInt_bytes P 1 rfl rfl
  have hnumsv : getInt P gNumsv = fdecInt gNumsv (memRead P 33 1) := getInt_bytes P 33 rfl rfl
  have hhdop : getInt P gHdop = fdecInt gHdop (memRead P 34 2) := getInt_bytes P 34 rfl rfl
  have hpdop : getInt P gPdop = fdecInt gPdop (memRead P 36 2) := getInt_bytes P 36 rfl rfl
  have hgeoid : getInt P gGeoid = fdecInt gGeoid (memRead P 38 4) := getInt_bytes P 38 rfl rfl
  have htid (j : Nat) : getInt P (gTid j) = fdecInt (gTid j) (memRead P (43 + 4 * j) 2) :=
    getInt_bytes P (43 + 4 * j) (by omega) rfl
  have hage (j : Nat) : getInt P (gAge j) = fdecInt (gAge j) (memRead P (45 + 4 * j) 2) :=
    getInt_bytes P (45 + 4 * j) (by omega) rfl
  simp only [gnssFields, hdate, hnumsv, hhdop, hpdop, hgeoid, htid, hage, getField_bytes P (d := gTod) 3 4 rfl rfl,
    getField_bytes P (d := gLat) 7 8 rfl rfl, getField_bytes P (d := gLon) 15 8 rfl rfl,
    getField_bytes P (d := gAlt) 23 8 rfl rfl, getRaw_byte P (d := gSid) 0 rfl rfl, getRaw_byte P (d := gInteg) 32 rfl rfl,
    getRaw_byte P (d := gNref) 42 rfl rfl, getRaw_lowNibble P (d := gFixtype) 31 rfl rfl,
    getRaw_highNibble P (d := gMethod) 31 rfl rfl, ofNat_byteAt]

/-! ### The short payloads -/

section
variable (t : RoundTies)

theorem length_pencPosr (lat lon : Option PhysInput) : (pencPosr t lat lon).length = 8 := by
  rw [pencPosr_eq, List.length_append, leBytes_length, leBytes_length]

theorem length_pencVpos (lat lon : Option PhysInput) : (pencVpos t lat lon).length = 8 := by
  rw [pencVpos_eq, List.length_append, leBytes_length, leBytes_length]

theorem length_pencCogsog (sid ref : Byte) (cog sog : Option PhysInput) : (pencCogsog t sid ref cog sog).length = 8 := by
  rw [pencCogsog_eq]
  simp only [List.length_cons, List.length_append, leBytes_length, List.length_nil]

theorem length_pencVds (bearing speed : Option PhysInput) (pitch alt : Option Int) :
    (pencVds t bearing speed pitch alt).length = 8 := by
  rw [pencVds_eq]
  simp only [List.length_append, leBytes_length]

theorem pdecPosr_pencPosr (lat lon : Option PhysInput) :
    pdecPosr (pencPosr t lat lon) = .ok (fdec posrLat (fenc t posrLat lat), fdec posrLon (fenc t posrLon lon)) := by
  rw [pdecPosr_ok (length_pencPosr t lat lon), pencPosr_eq, byteField_posrLat.memRead_fenc,
    memRead_leBytes_skip _ _ le_rfl, Nat.sub_self, byteField_posrLon.memRead_fenc_last]

theorem pdecVpos_pencVpos (lat lon : Option PhysInput) :
    pdecVpos (pencVpos t lat lon) = .ok (fdec vpLat (fenc t vpLat lat), fdec vpLon (fenc t vpLon lon)) := by
  rw [pdecVpos_ok (length_pencVpos t lat lon), pencVpos_eq, byteField_vpLat.memRead_fenc,
    memRead_leBytes_skip _ _ le_rfl, Nat.sub_self, byteField_vpLon.memRead_fenc_last]

theorem pdecCogsog_pencCogsog (sid ref : Byte) (cog sog : Option PhysInput) :
    pdecCogsog (pencCogsog t sid ref cog sog) =
      .ok ⟨sid, ref, fdec csCog (fenc t csCog cog), fdec csSog (fenc t csSog sog)⟩ := by
  rw [pdecCogsog_ok (length_pencCogsog t sid ref cog sog), pencCogsog_eq]
  simp [memRead_cons_skip, memRead_leBytes_skip, byteField_csCog.memRead_fenc, byteField_csSog.memRead_fenc]

theorem pdecVds_pencVds (bearing speed : Option PhysInput) (pitch alt : Option Int) :
    pdecVds (pencVds t bearing speed pitch alt) =
      .ok ⟨fdec vdBearing (fenc t vdBearing bearing), fdec vdSpeed (fenc t vdSpeed speed),
        fdecInt vdPitch (fenc t vdPitch (intNum pitch)), fdecInt vdAlt (fenc t vdAlt (intNum alt))⟩ := by
  rw [pdecVds_ok (length_pencVds t bearing speed pitch alt), pencVds_eq]
  simp [memRead_leBytes_skip, byteField_vdBearing.memRead_fenc, byteField_vdSpeed.memRead_fenc,
    codeField_vdPitch.memRead_fenc, codeField_vdAlt.memRead_fenc_last]

end

/-! ### The GNSS payload -/

section
variable (t : RoundTies) (v : GnssValues)

theorem drop_leBytes_append {k m : Nat} (c : Nat) (B : Packet) (h : m ≤ k) : (leBytes m c ++ B).drop k = B.drop (k - m) := by
  rw [List.drop_append, List.drop_eq_nil_of_le (by rwa [leBytes_length]), leBytes_length, List.nil_append]

theorem drop_gnssBytes : (gnssBytes t v).drop 43 = v.stations.flatMap (stationBytes t) := by
  simp [gnssBytes, drop_leBytes_append]

/-- What stands behind the fixed part of a GNSS payload. -/
theorem memRead_gnssBytes_stations (k n : Nat) :
    memRead (gnssBytes t v) (43 + k) n = memRead (v.stations.flatMap (stationBytes t)) k n := by
  rw [memRead, ← List.drop_drop, drop_gnssBytes, memRead]

theorem byteAt_gnssBytes_nref (h : v.stations.length ≤ 3) : byteAt (gnssBytes t v) 42 = v.stations.length := by
  rw [← memRead_one]
  simp [gnssBytes, memRead_cons_skip, memRead_leBytes_skip, memRead_cons_zero]
  omega

theorem byteAt_gnssBytes_fix : byteAt (gnssBytes t v) 31 = v.fixtype.toNat + 16 * v.method.toNat := by
  rw [← memRead_one]
  simp [gnssBytes, memRead_cons_skip, memRead_leBytes_skip, memRead_cons_zero]
  omega

theorem getD_gnssBytes_sid : (gnssBytes t v).getD 0 0#8 = v.sid := rfl

theorem getD_gnssBytes_integ : (gnssBytes t v).getD 32 0#8 = v.integ := by
  rw [← ofNat_byteAt, ← memRead_one]
  simp [gnssBytes, memRead_cons_skip, memRead_leBytes_skip, memRead_cons_zero]

/-- The two fields of a station are read from its record. -/
theorem memRead_stations {l : List (Option Int × Option Int)} {j : Nat} {st : Option Int × Option Int}
    (h : l[j]? = some st) :
    memRead (l.flatMap (stationBytes t)) (4 * j) 2 = fenc t (gTid j) (intNum st.1) ∧
      memRead (l.flatMap (stationBytes t)) (2 + 4 * j) 2 = fenc t (gAge j) (intNum st.2) := by
  rw [fenc_gTid, fenc_gAge]
  induction l generalizing j with
  | nil => simp at h
  | cons a l ih =>
    cases j with
    | zero =>
      rw [List.getElem?_cons_zero, Option.some.injEq] at h
      subst h
      rw [List.flatMap_cons, stationBytes, List.append_assoc, Nat.mul_zero, Nat.add_zero, (codeField_gTid 0).memRead_fenc,
        memRead_leBytes_skip _ _ le_rfl, Nat.sub_self, (codeField_gAge 0).memRead_fenc]
      exact ⟨rfl, rfl⟩
    | succ j =>
      have htid : 4 * (j + 1) - (stationBytes t a).length = 4 * j := by rw [length_stationBytes]; omega
      have hage : 2 + 4 * (j + 1) - (stationBytes t a).length = 2 + 4 * j := by rw [length_stationBytes]; omega
      rw [List.flatMap_cons, memRead_append_skip _ (by rw [length_stationBytes]; omega), htid,
        memRead_append_skip _ (by rw [length_stationBytes]; omega), hage]
      exact ih h

/-- The fields of an encoded GNSS payload hold the values that were encoded. -/
theorem recoveredGnss_gnssFields (h : v.stations.length ≤ 3) :
    RecoveredGnss t v (gnssFields (gnssBytes t v) v.stations.length) := by
  have hnref := byteAt_gnssBytes_nref t v h
  rw [gnssFields_eq, getD_gnssBytes_sid, getD_gnssBytes_integ, byteAt_gnssBytes_fix]
  have hdate : memRead (gnssBytes t v) 1 2 = fenc t gDate (intNum v.date) := by
    simp [gnssBytes, memRead_cons_skip, codeField_gDate.memRead_fenc]
  have htod : memRead (gnssBytes t v) 3 4 = fenc t gTod v.tod := by
    simp [gnssBytes, memRead_cons_skip, memRead_leBytes_skip, byteField_gTod.memRead_fenc]
  have hlat : memRead (gnssBytes t v) 7 8 = fenc t gLat v.lat := by
    simp [gnssBytes, memRead_cons_skip, memRead_leBytes_skip, byteField_gLat.memRead_fenc]
  have hlon : memRead (gnssBytes t v) 15 8 = fenc t gLon v.lon := by
    simp [gnssBytes, memRead_cons_skip, memRead_leBytes_skip, byteField_gLon.memRead_fenc]
  have halt : memRead (gnssBytes t v) 23 8 = fenc t gAlt v.alt := by
    simp [gnssBytes, memRead_cons_skip, memRead_leBytes_skip, byteField_gAlt.memRead_fenc]
  have hnumsv : memRead (gnssBytes t v) 33 1 = fenc t gNumsv (intNum v.numsv) := by
    simp [gnssBytes, memRead_cons_skip, memRead_leBytes_skip, codeField_gNumsv.memRead_fenc]
  have hhdop : memRead (gnssBytes t v) 34 2 = fenc t gHdop (intNum v.hdop) := by
    simp [gnssBytes, memRead_cons_skip, memRead_leBytes_skip, codeField_gHdop.memRead_fenc]
  have hpdop : memRead (gnssBytes t v) 36 2 = fenc t gPdop (intNum v.pdop) := by
    simp [gnssBytes, memRead_cons_skip, memRead_leBytes_skip, codeField_gPdop.memRead_fenc]
  have hgeoid : memRead (gnssBytes t v) 38 4 = fenc t gGeoid (intNum v.geoid) := by
    simp [gnssBytes, memRead_cons_skip, memRead_leBytes_skip, codeField_gGeoid.memRead_fenc]
  have hfixtype : BitVec.ofNat 4 ((v.fixtype.toNat + 16 * v.method.toNat) % 16) = v.fixtype := by bv_omega
  have hmethod : BitVec.ofNat 4 ((v.fixtype.toNat + 16 * v.method.toNat) / 16) = v.method := by bv_omega
  rw [hdate, htod, hlat, hlon, halt, hnumsv, hhdop, hpdop, hgeoid, hfixtype, hmethod]
  refine ⟨⟨rfl, rfl, rfl, rfl, hnref⟩,
    ⟨byteField_gTod.recovered _ _, byteField_gLat.recovered _ _, byteField_gLon.recovered _ _, byteField_gAlt.recovered _ _⟩,
    ⟨codeField_gDate.recoveredCode _ _, codeField_gNumsv.recoveredCode _ _, codeField_gHdop.recoveredCode _ _,
      codeField_gPdop.recoveredCode _ _, codeField_gGeoid.recoveredCode _ _⟩, by simp, fun j a b ha hb => ?_⟩
  obtain ⟨-, rfl⟩ : j < v.stations.length ∧ _ := by simpa [List.getElem?_range, List.getElem?_eq_some_iff] using hb
  have hage : 45 + 4 * j = 43 + (2 + 4 * j) := by omega
  obtain ⟨htid, hage'⟩ := memRead_stations t ha
  rw [memRead_gnssBytes_stations, hage, memRead_gnssBytes_stations, htid, hage']
  exact ⟨(codeField_gTid j).recoveredCode _ _, (codeField_gAge j).recoveredCode _ _⟩

theorem pdecGnss_gnssBytes (h : v.stations.length ≤ 3) :
    pdecGnss (gnssBytes t v) = .ok (gnssFields (gnssBytes t v) v.stations.length) := by
  have hcount : (if v.stations.length = 255 then 0 else v.stations.length) = v.stations.length := if_neg (by omega)
  rw [pdecGnss_eq, byteAt_gnssBytes_nref t v h, length_gnssBytes, hcount, if_neg (by omega)]

end

/-! ### Decoded payloads -/

section
variable (t : RoundTies) {P : Packet}

theorem pencPosr_of_pdecPosr {lat lon : Option ℚ} (h : pdecPosr P = .ok (lat, lon)) :
    pencPosr t (lat.map .rat) (lon.map .rat) = P := by
  by_cases hlen : P.length = 8
  · rw [pdecPosr_ok hlen] at h
    cases h
    rw [pencPosr_eq, byteField_posrLat.fenc_fdec_memRead, byteField_posrLon.fenc_fdec_memRead,
      leBytes_memRead_last (a := 4) (by omega)]
    exact leBytes_memRead_append (a := 0) (by omega)
  · rw [pdecPosr_malformed hlen] at h
    cases h

theorem pencVpos_of_pdecVpos {lat lon : Option ℚ} (h : pdecVpos P = .ok (lat, lon)) :
    pencVpos t (lat.map .rat) (lon.map .rat) = P := by
  by_cases hlen : P.length = 8
  · rw [pdecVpos_ok hlen] at h
    cases h
    rw [pencVpos_eq, byteField_vpLat.fenc_fdec_memRead, byteField_vpLon.fenc_fdec_memRead,
      leBytes_memRead_last (a := 4) (by omega)]
    exact leBytes_memRead_append (a := 0) (by omega)
  · rw [pdecVpos_malformed hlen] at h
    cases h

/-- The reserved word of PGN 129026 is written as all ones, whatever stood there. -/
theorem pencCogsog_of_pdecCogsog {r : CogsogResult} (h : pdecCogsog P = .ok r) :
    pencCogsog t r.sid r.ref (r.cog.map .rat) (r.sog.map .rat) = P.take 6 ++ [0xFF#8, 0xFF#8] := by
  by_cases hlen : P.length = 8
  · rw [pdecCogsog_ok hlen] at h
    cases h
    have hsog : leBytes 2 (memRead P 4 2) = (P.take 6).drop 4 := by
      rw [leBytes_memRead (by omega), List.take_drop]
    have hcog : leBytes 2 (memRead P 2 2) ++ (P.take 6).drop 4 = (P.take 6).drop 2 := by
      have hsame : memRead P 2 2 = memRead (P.take 6) 2 2 := by
        rw [memRead, memRead, List.drop_take, List.take_take]; rfl
      rw [hsame]
      exact leBytes_memRead_append (a := 2) (by rw [List.length_take]; omega)
    rw [pencCogsog_eq, byteField_csCog.fenc_fdec_memRead, byteField_csSog.fenc_fdec_memRead, hsog, hcog]
    match P, hlen with
    | b0 :: b1 :: P, _ => rfl
  · rw [pdecCogsog_malformed hlen] at h
    cases h

theorem pencVds_of_pdecVds {r : VdsResult} (h : pdecVds P = .ok r) :
    pencVds t (r.bearing.map .rat) (r.speed.map .rat) r.pitch r.alt = P := by
  by_cases hlen : P.length = 8
  · rw [pdecVds_ok hlen] at h
    cases h
    dsimp only
    rw [pencVds_eq, byteField_vdBearing.fenc_fdec_memRead, byteField_vdSpeed.fenc_fdec_memRead,
      codeField_vdPitch.fenc_intNum_memRead, codeField_vdAlt.fenc_intNum_memRead, List.append_assoc, List.append_assoc,
      leBytes_memRead_last (a := 6) (by omega), leBytes_memRead_append (a := 4) (by omega),
      leBytes_memRead_append (a := 2) (by omega)]
    exact leBytes_memRead_append (a := 0) (by omega)
  · rw [pdecVds_malformed hlen] at h
    cases h

theorem stationBytes_of_read {a : Nat} (j : Nat) (h : a + 4 ≤ P.length) :
    stationBytes t (fdecInt (gTid j) (memRead P a 2), fdecInt (gAge j) (memRead P (a + 2) 2)) = (P.drop a).take 4 := by
  rw [stationBytes, ← fenc_gTid t j, ← fenc_gAge t j, (codeField_gTid j).fenc_intNum_memRead,
    (codeField_gAge j).fenc_intNum_memRead, leBytes_memRead (by omega), leBytes_memRead (by omega), ← List.drop_drop,
    ← List.take_add]

theorem flatMap_take_four (k n : Nat) :
    (List.range n).flatMap (fun j => (P.drop (k + 4 * j)).take 4) = (P.drop k).take (4 * n) := by
  induction n with
  | zero => rfl
  | succ n ih =>
    rw [List.range_succ, List.flatMap_append, ih, List.flatMap_singleton, ← List.drop_drop, ← List.take_add, Nat.mul_succ]

/-- Station records that were read from `P` are the bytes they were read from. -/
theorem flatMap_stationBytes_of_read {n : Nat} (h : P.length = 43 + 4 * n) :
    (gnssFields P n).stations.flatMap (stationBytes t) = P.drop 43 := by
  have hrecord : ∀ j ∈ List.range n, stationBytes t (fdecInt (gTid j) (memRead P (43 + 4 * j) 2),
      fdecInt (gAge j) (memRead P (45 + 4 * j) 2)) = (P.drop (43 + 4 * j)).take 4 := by
    intro j hj
    have hage : 45 + 4 * j = 43 + 4 * j + 2 := by omega
    rw [hage]
    exact stationBytes_of_read t j (by have := List.mem_range.mp hj; omega)
  rw [gnssFields_eq, List.flatMap_map, List.flatMap_congr hrecord, flatMap_take_four,
    List.take_of_length_le (by rw [List.length_drop]; omega)]

/-- The values of a decoded GNSS message, as operands of the encoder. -/
def asOperands (r : GnssResult) : GnssValues :=
  ⟨r.sid, r.date, r.tod.map .rat, r.lat.map .rat, r.lon.map .rat, r.alt.map .rat, r.fixtype, r.method, r.integ, r.numsv,
    r.hdop, r.pdop, r.geoid, r.stations⟩

theorem nibbles_byteAt (P : Packet) (a : Nat) :
    BitVec.ofNat 8 ((BitVec.ofNat 4 (byteAt P a % 16)).toNat + 16 * (BitVec.ofNat 4 (byteAt P a / 16)).toNat) =
      P.getD a 0#8 := by
  have hle := byteAt_le P a
  rw [← ofNat_byteAt]
  congr 1
  rw [BitVec.toNat_ofNat, BitVec.toNat_ofNat]
  omega

theorem gnssBytes_asOperands {n : Nat} (h : P.length = 43 + 4 * n) (hn : P.getD 42 0#8 = BitVec.ofNat 8 n) :
    gnssBytes t (asOperands (gnssFields P n)) = P := by
  have hstations := flatMap_stationBytes_of_read t h
  rw [gnssFields_eq] at hstations ⊢
  have hcount : BitVec.ofNat 8 ((List.range n).map fun j =>
      (fdecInt (gTid j) (memRead P (43 + 4 * j) 2), fdecInt (gAge j) (memRead P (45 + 4 * j) 2))).length =
      P.getD 42 0#8 := by rw [List.length_map, List.length_range, hn]
  rw [gnssBytes, asOperands]
  dsimp only at hstations ⊢
  rw [hstations, hcount, getD_cons_drop (by omega), nibbles_byteAt, codeField_gDate.fenc_intNum_memRead,
    byteField_gTod.fenc_fdec_memRead, byteField_gLat.fenc_fdec_memRead, byteField_gLon.fenc_fdec_memRead,
    byteField_gAlt.fenc_fdec_memRead, codeField_gNumsv.fenc_intNum_memRead, codeField_gHdop.fenc_intNum_memRead,
    codeField_gPdop.fenc_intNum_memRead, codeField_gGeoid.fenc_intNum_memRead]
  simp only [List.append_assoc]
  rw [leBytes_memRead_append (a := 38) (by omega), leBytes_memRead_append (a := 36) (by omega),
    leBytes_memRead_append (a := 34) (by omega), leBytes_memRead_append (a := 33) (by omega),
    getD_cons_drop (a := 32) (by omega), getD_cons_drop (a := 31) (by omega), leBytes_memRead_append (a := 23) (by omega),
    leBytes_memRead_append (a := 15) (by omega), leBytes_memRead_append (a := 7) (by omega),
    leBytes_memRead_append (a := 3) (by omega), leBytes_memRead_append (a := 1) (by omega)]
  exact getD_cons_drop (a := 0) (by omega)

theorem pencGnss_of_pdecGnss {r : GnssResult} (h : pdecGnss P = .ok r) (hnref : r.nref ≠ 0xFF#8) :
    pencGnss t (asOperands r) = .ok P := by
  by_cases hmalformed : P.length < 43 ∨ (4 ≤ byteAt P 42 ∧ byteAt P 42 ≤ 254) ∨
      P.length ≠ 43 + 4 * (if byteAt P 42 = 255 then 0 else byteAt P 42)
  · rw [pdecGnss_eq, if_pos hmalformed] at h
    cases h
  · rw [pdecGnss_eq, if_neg hmalformed, Except.ok.injEq] at h
    subst h
    have hknown : byteAt P 42 ≠ 255 := fun hall => hnref (by rw [gnssFields_eq, ← ofNat_byteAt P 42, hall])
    rw [if_neg hknown] at hmalformed ⊢
    have hle := byteAt_le P 42
    have hfew : (asOperands (gnssFields P (byteAt P 42))).stations.length ≤ 3 := by
      rw [gnssFields_eq, asOperands, List.length_map, List.length_range]
      omega
    rw [pencGnss_eq t hfew, gnssBytes_asOperands t (by omega) (ofNat_byteAt P 42).symm]

end

end Sys2Proof.PayloadRoundTrip

open Sys2Proof Sys2Proof.Machine Sys2Proof.PgnCodecs Sys2Proof.PayloadRoundTrip

/-- Settles O37: each field reads the code that was written into it. -/
theorem shortPayloadsComeBack : Obligations.ShortPayloadsComeBack := by
  intro t
  refine ⟨fun lat lon => ⟨length_pencPosr t lat lon, _, _, pdecPosr_pencPosr t lat lon, ?_, ?_⟩,
    fun sid ref cog sog => ⟨length_pencCogsog t sid ref cog sog, _, pdecCogsog_pencCogsog t sid ref cog sog, rfl, rfl, ?_, ?_⟩,
    fun lat lon => ⟨length_pencVpos t lat lon, _, _, pdecVpos_pencVpos t lat lon, ?_, ?_⟩,
    fun bearing speed pitch alt => ⟨length_pencVds t bearing speed pitch alt, _, pdecVds_pencVds t bearing speed pitch alt,
      ?_, ?_, ?_, ?_⟩⟩
  · exact byteField_posrLat.recovered t lat
  · exact byteField_posrLon.recovered t lon
  · exact byteField_csCog.recovered t cog
  · exact byteField_csSog.recovered t sog
  · exact byteField_vpLat.recovered t lat
  · exact byteField_vpLon.recovered t lon
  · exact byteField_vdBearing.recovered t bearing
  · exact byteField_vdSpeed.recovered t speed
  · exact codeField_vdPitch.recoveredCode t pitch
  · exact codeField_vdAlt.recoveredCode t alt

/-- Settles O38: the fields of `gnssBytes` hold the values. -/
theorem gnssPayloadComesBack : Obligations.GnssPayloadComesBack := fun t v h =>
  ⟨_, _, pencGnss_eq t h, length_gnssBytes t v, pdecGnss_gnssBytes t v h, recoveredGnss_gnssFields t v h⟩

/-- Settles O39: each field writes back the code it was read from, and the fields fill the payload. -/
theorem decodedPayloadsReencode : Obligations.DecodedPayloadsReencode := fun t _ =>
  ⟨fun _ _ h => pencPosr_of_pdecPosr t h, fun _ h => pencCogsog_of_pdecCogsog t h,
    fun _ h hnref => pencGnss_of_pdecGnss t h hnref, fun _ _ h => pencVpos_of_pdecVpos t h,
    fun _ h => pencVds_of_pdecVds t h⟩

end

section
/-! SUPPORT. The system commands (`45_system.md` R241 to R244): whole days and seconds of an instant, and a message from its values
through `TXMSG` and `RXFRAME` back to its values. A short message is one frame, which is decoded as it is; a GNSS message is
received frame by frame (`Receiving`), and its last frame delivers it. -/

namespace Sys2Proof.Delivering

open Sys2Proof Sys2Proof.Machine Sys2Proof.Config Sys2Proof.Identifier Sys2Proof.PgnCodecs Sys2Proof.PayloadRoundTrip
  Sys2Proof.Sender Sys2Proof.Receiver Sys2Proof.RoundTrip Sys2Proof.Reception

/-! ### The identifier of a message -/

theorem clearFlagBits_zeroExtend (id : Ident) : clearFlagBits (id.zeroExtend 32) = id := by
  have hid : id.toNat < 2 ^ 29 := id.isLt
  apply BitVec.eq_of_toNat_eq
  rw [clearFlagBits, toNat_extractLsb'_div, BitVec.zeroExtend, BitVec.toNat_setWidth]
  omega

/-- The five PGNs are PDU2. -/
theorem le_pduFormat_messagePgn (m : Message) : 240 ≤ (messagePgn m).toNat / 256 % 256 := by
  cases m <;> simp [messagePgn]

/-- The identifier that `TXMSG` builds. -/
def sentId (m : Message) (priority : BitVec 3) (sa : Byte) : CanId :=
  builtId (messagePgn m) priority sa ((messagePgn m).extractLsb' 0 8)

theorem idbuild_sentId (m : Message) (priority : BitVec 3) (sa : Byte) :
    idbuild (messagePgn m) priority sa 0xFF#8 = .ok (sentId m priority sa) :=
  idbuild_pdu2 priority sa (le_pduFormat_messagePgn m)

theorem idpgn_sentId (m : Message) (priority : BitVec 3) (sa : Byte) :
    (idpgn (sentId m priority sa)).1 = messagePgn m := by
  rw [sentId, idpgn_builtId_pdu2 priority sa (le_pduFormat_messagePgn m)]

theorem txmsg_of_encoded {t : RoundTies} {m : Message} {P : Packet} (h : encodeMessage t m = .ok P)
    (priority : BitVec 3) (sa : Byte) (S : SeqCounter) : txmsg t m priority sa S =
      if P.length ≤ 8 then .ok [⟨idpack (sentId m priority sa), P⟩] else fptx (idpack (sentId m priority sa)) S P := by
  have hbuild : idbuild (messagePgn m) priority sa broadcast = .ok (sentId m priority sa) := idbuild_sentId m priority sa
  rw [txmsg, h]
  simp only [bind, Except.bind, hbuild]

/-! ### The payload of a message -/

/-- The payload of a message decodes to its values (R178), and is one frame long, or a Fast Packet message if the PGN is that of
Fast Packet. -/
theorem exists_payload (t : RoundTies) {m : Message} (hfits : messageFits m = true) :
    ∃ (P : Packet) (v : Delivered), encodeMessage t m = .ok P ∧ decodeMessage (messagePgn m) P = some v ∧
      RecoveredMessage t m v ∧
      (messagePgn m ≠ 129029#17 ∧ P.length = 8 ∨ messagePgn m = 129029#17 ∧ 9 ≤ P.length ∧ P.length ≤ 55) := by
  obtain ⟨hposr, hcogsog, hvpos, hvds⟩ := shortPayloadsComeBack t
  cases m with
  | posr lat lon =>
    obtain ⟨hlen, lat', lon', hdec, hrec⟩ := hposr lat lon
    refine ⟨_, .posr lat' lon', rfl, ?_, hrec, .inl ⟨by simp [messagePgn], hlen⟩⟩
    simp [decodeMessage, messagePgn, hdec, Except.toOption]
  | cogsog sid ref cog sog =>
    obtain ⟨hlen, r, hdec, hrec⟩ := hcogsog sid ref cog sog
    refine ⟨_, .cogsog r, rfl, ?_, hrec, .inl ⟨by simp [messagePgn], hlen⟩⟩
    simp [decodeMessage, messagePgn, hdec, Except.toOption]
  | gnss values =>
    obtain ⟨P, r, henc, hlen, hdec, hrec⟩ := gnssPayloadComesBack t values (of_decide_eq_true hfits)
    have hfew : values.stations.length ≤ 3 := of_decide_eq_true hfits
    refine ⟨P, .gnss r, henc, ?_, hrec, .inr ⟨rfl, by omega, by omega⟩⟩
    simp [decodeMessage, messagePgn, hdec, Except.toOption]
  | vpos lat lon =>
    obtain ⟨hlen, lat', lon', hdec, hrec⟩ := hvpos lat lon
    refine ⟨_, .vpos lat' lon', rfl, ?_, hrec, .inl ⟨by simp [messagePgn], hlen⟩⟩
    simp [decodeMessage, messagePgn, hdec, Except.toOption]
  | vds bearing speed pitch alt =>
    obtain ⟨hlen, r, hdec, hrec⟩ := hvds bearing speed pitch alt
    refine ⟨_, .vds r, rfl, ?_, hrec, .inl ⟨by simp [messagePgn], hlen⟩⟩
    simp [decodeMessage, messagePgn, hdec, Except.toOption]

/-! ### One frame offered to `RXFRAME` (R242) -/

section
variable {k : Params} {c : CanId} {data : Packet} {now : Ticks} {s : State}

theorem rxframe_single (hpgn : (idpgn c).1 ≠ 129029#17) (dlc : Nat) :
    rxframe k ((idpack c).zeroExtend 32) dlc data now s =
      (s, (decodeMessage (idpgn c).1 (data.take dlc)).map fun v => ⟨c, (idpgn c).1, v⟩) := by
  rw [rxframe, clearFlagBits_zeroExtend, idparse_idpack]
  exact if_neg hpgn

theorem rxframe_fastPacket (hpgn : (idpgn c).1 = 129029#17) (dlc : Nat) :
    rxframe k ((idpack c).zeroExtend 32) dlc data now s =
      ((fprx k (idpack c) dlc data now s).1,
        if (fprx k (idpack c) dlc data now s).2.disp = .complete then
          (decodeMessage (idpgn c).1 (fprx k (idpack c) dlc data now s).2.payload).map fun v => ⟨c, (idpgn c).1, v⟩
        else none) := by
  rw [rxframe, clearFlagBits_zeroExtend, idparse_idpack]
  exact if_pos hpgn

variable {sn : Session} (hpgn : (idpgn c).1 = 129029#17) (hlen : data.length = 8)
  (haccept : acceptFrame k (sweep k now s.sess) (idpack c) 8 data now s.opened = .ok sn)
include hpgn hlen haccept

theorem rxframe_accepted (hpartial : sessionComplete sn = false) :
    rxframe k ((idpack c).zeroExtend 32) data.length data now s = (stored k s data now sn, none) := by
  rw [rxframe_fastPacket hpgn, hlen, fprx_of_accepted haccept hpartial]
  rfl

theorem rxframe_completed (hcomplete : sessionComplete sn = true) :
    rxframe k ((idpack c).zeroExtend 32) data.length data now s = ((stored k s data now sn).dropSession (idpack c),
      (decodeMessage (idpgn c).1 (sn.buf.take sn.len.toNat)).map fun v => ⟨c, (idpgn c).1, v⟩) := by
  rw [rxframe_fastPacket hpgn, hlen, fprx_of_completed haccept hcomplete]
  rfl

end

/-! ### All the frames -/

/-- If the next frame is stored and leaves `pending`, and the frames of `pending` follow it, one result is delivered: the message
of the payload. -/
theorem rxframes_of_receiving {c : CanId} {S : SeqCounter} {P : Packet} {v : Delivered} (hpgn : (idpgn c).1 = 129029#17)
    (hdecode : decodeMessage (idpgn c).1 P = some v) (pending : List Nat) {data : Packet} {now : Ticks} {times : List Ticks}
    {s : State} {sn : Session} (hlen : data.length = 8)
    (haccept : acceptFrame params (sweep params now s.sess) (idpack c) 8 data now s.opened = .ok sn)
    (hreceiving : Receiving (idpack c) S P pending sn) (hlast : sn.last = now) (hw : tableWf s.sess = true)
    (htimes : times.length = pending.length) (hsteady : steadyTimes params (now :: times)) :
    ∃ t : State, rxframes params
        ((⟨idpack c, data⟩ :: pending.map fun i => ⟨idpack c, contFrame S P i⟩).zip (now :: times)) s =
        (t, [⟨c, (idpgn c).1, v⟩]) ∧
      t.dropped = s.dropped ∧ lookupSession (idpack c) t.sess = none := by
  induction pending generalizing data now times s sn with
  | nil =>
    have hcomplete : sessionComplete sn = true := hreceiving.complete_iff.mpr rfl
    refine ⟨(stored params s data now sn).dropSession (idpack c), ?_, rfl, lookupSession_deleteSession_same _ _⟩
    rw [List.map_nil, List.zip_cons_cons, List.zip_nil_left, rxframes, rxframe_completed hpgn hlen haccept hcomplete,
      hreceiving.payload, hdecode]
    rfl
  | cons i pending ih =>
    obtain ⟨next, times, rfl⟩ : ∃ next times', times = next :: times' := List.exists_cons_of_length_eq_add_one htimes
    have hpartial : sessionComplete sn = false := Bool.eq_false_iff.mpr fun h => by
      cases hreceiving.complete_iff.mp h
    obtain ⟨⟨-, hnext⟩, hsteady⟩ := List.isChain_cons_cons.mp hsteady
    have hsess := stored_sess params s data now sn
    have hstored : lookupSession (idpack c) (stored params s data now sn).sess = some sn :=
      hreceiving.key ▸ lookupSession_storeSession_same sn _
    have hw' : tableWf (stored params s data now sn).sess = true := hsess ▸ tableWf_storeSession (tableWf_sweep hw)
    have hlive := lookupSession_sweep_of_live hw' hstored (hlast ▸ hnext)
    have haccept' : acceptFrame params (sweep params next (stored params s data now sn).sess) (idpack c) 8
        (contFrame S P i) next (stored params s data now sn).opened = .ok (extendSession sn (contFrame S P i) next) :=
      (acceptFrame_cont _ _ _ _ _ hreceiving.frameIndex_ne_zero).trans (hreceiving.acceptCont hlive next)
    obtain ⟨t, hrest, hdropped, hnone⟩ := ih (length_contFrame S P i) haccept' (hreceiving.extendSession next) rfl hw'
      (Nat.succ.inj htimes) hsteady
    refine ⟨t, ?_, hdropped, hnone⟩
    rw [List.zip_cons_cons, rxframes, rxframe_accepted hpgn hlen haccept hpartial, List.map_cons]
    exact congrArg (fun q => (q.1, q.2)) hrest

/-- A Fast Packet message is delivered by its frames in order. -/
theorem rxframes_fastPacket {c : CanId} (S : SeqCounter) {P : Packet} {v : Delivered} {s : State} {times : List Ticks}
    (hpgn : (idpgn c).1 = 129029#17) (hdecode : decodeMessage (idpgn c).1 P = some v) (hpos : 1 ≤ P.length)
    (hle : P.length ≤ 55) (hinv : Inv s)
    (hroom : tableFull params (sweep params (times.getD 0 0#64) s.sess).length = false)
    (htimes : times.length = contCount P.length + 1) (hsteady : steadyTimes params times) :
    ∃ t : State, rxframes params ((⟨idpack c, headerFrame S P⟩ ::
        (List.range (contCount P.length)).map fun j => ⟨idpack c, contFrame S P (j + 1)⟩).zip times) s =
        (t, [⟨c, (idpgn c).1, v⟩]) ∧
      t.dropped = s.dropped ∧ lookupSession (idpack c) t.sess = none := by
  obtain ⟨now, times, rfl⟩ : ∃ now times', times = now :: times' := List.exists_cons_of_length_eq_add_one htimes
  have hresult := rxframes_of_receiving hpgn hdecode _ (length_headerFrame S P)
    (acceptFrame_headerFrame now s.opened hpos hle (.inr hroom))
    (receiving_openSession (idpack c) S now s.opened hle (.refl _)) rfl hinv.rising
    (by simpa using htimes) hsteady
  rwa [List.map_map] at hresult

end Sys2Proof.Delivering

open Sys2Proof Sys2Proof.Machine Sys2Proof.Config Sys2Proof.Sender Sys2Proof.Delivering

/-- Settles O60: the payload of the message decodes to its values (`exists_payload`), and the frames deliver that payload. -/
theorem messageIsDelivered : Obligations.MessageIsDelivered := by
  intro m priority sa S hfits
  obtain ⟨P, v, hencode, hdecode, hrecovered, hsize⟩ := exists_payload params.roundTies hfits
  have htxmsg := txmsg_of_encoded hencode priority sa S
  have hpgn := idpgn_sentId m priority sa
  rcases hsize with ⟨hshort, hlen⟩ | ⟨hgnss, hpos, hle⟩
  · rw [if_pos hlen.le] at htxmsg
    refine ⟨_, _, htxmsg, idbuild_sentId m priority sa, fun s times _ hnone _ htimes _ => ⟨s, v, ?_, hrecovered, rfl, hnone⟩⟩
    obtain ⟨now, rfl⟩ := List.length_eq_one_iff.mp htimes
    rw [List.zip_cons_cons, List.zip_nil_left, rxframes, rxframe_single (hpgn ▸ hshort), List.take_length, hpgn, hdecode]
    rfl
  · rw [if_neg (by omega), fptx_ok _ S (by omega) hle] at htxmsg
    refine ⟨_, _, htxmsg, idbuild_sentId m priority sa, fun s times hinv _ hroom htimes hsteady => ?_⟩
    obtain ⟨t, hrun, hdropped, hnone⟩ := rxframes_fastPacket S (hpgn.trans hgnss) (hpgn.symm ▸ hdecode) (by omega) hle hinv hroom
      (by simpa using htimes) hsteady
    exact ⟨t, v, hpgn ▸ hrun, hrecovered, hdropped, hnone⟩

/-- Settles O59: the day count is the quotient rounded down, and the time of day what it leaves. -/
theorem timestampSplitsAndJoins : Obligations.TimestampSplitsAndJoins := by
  intro t ht
  have hdays : (0 : ℚ) ≤ t / 86400 := by positivity
  have hlow := Int.floor_le (t / 86400)
  have hhigh := Int.lt_floor_add_one (t / 86400)
  refine ⟨Int.floor_nonneg.mpr hdays, ?_, ?_, ?_⟩
  · rw [tssplit]
    linarith
  · rw [tssplit]
    linarith
  · rw [tssplit, tsjoin]
    ring

end

section
/-! SUPPORT. The packet boundary (`00_scope.md` R13). The 63 lower bits of a finite pattern are `u * 2^52 + m`, and denote `m` units of
the last place `2^(u - 1074)`; a carry of `m` into `2^53` steps the exponent field by itself. A positive number fits one such unit
(`Fits`), and its pattern is the nearest multiple of that unit. -/

namespace Sys2Proof.Binary64

open Sys2Proof Sys2Proof.Machine Sys2Proof.Config Sys2Proof.Identifier Sys2Proof.Rounding

/-! ### Rounding to the nearest integer, ties to even (R12) -/

theorem roundTo_nonneg {x : ℚ} (t : RoundTies) (h : 0 ≤ x) : 0 ≤ roundTo t x := by
  have hzero : roundTo t ((0 : Int) : ℚ) = 0 := roundTo_intCast t 0
  rw [← hzero]
  exact roundTo_mono t (by rwa [Int.cast_zero])

/-- No integer is nearer, and where another is as near the answer is even. -/
theorem roundTo_even_nearest (x : ℚ) (j : Int) : |(roundTo .even x : ℚ) - x| ≤ |(j : ℚ) - x| ∧
    (|(roundTo .even x : ℚ) - x| = |(j : ℚ) - x| → j ≠ roundTo .even x → roundTo .even x % 2 = 0) := by
  have hhalf := abs_roundTo_sub_le .even x
  by_cases hnear : |(j : ℚ) - x| < 1 / 2
  · rw [roundTo_eq_of_abs_sub_lt .even hnear]
    exact ⟨le_rfl, fun _ hne => absurd rfl hne⟩
  · refine ⟨hhalf.trans (not_lt.mp hnear), fun heq _ => ?_⟩
    have htie : |(roundTo .even x : ℚ) - x| = 1 / 2 := le_antisymm hhalf (heq ▸ not_lt.mp hnear)
    rcases (abs_eq one_half_pos.le).mp htie with hup | hdown
    · have heven := (roundTo_of_tie (q := x) (k := roundTo .even x - 1) (by push_cast; linarith)).2.1
      split at heven <;> omega
    · have heven := (roundTo_of_tie (q := x) (k := roundTo .even x) (by linarith)).2.1
      split at heven <;> omega

/-! ### The unit in the last place -/

/-- The unit in the last place of the finite patterns with index `u`. -/
def ulp (u : Nat) : ℚ := 2 ^ ((u : ℤ) - 1074)

theorem ulp_pos (u : Nat) : 0 < ulp u := by
  rw [ulp]
  positivity

theorem ulp_add (u v : Nat) : ulp (u + v) = 2 ^ v * ulp u := by
  rw [ulp, ulp, Nat.cast_add, add_sub_right_comm, zpow_add₀ two_ne_zero, zpow_natCast, mul_comm]

theorem ulp_succ (u : Nat) : ulp (u + 1) = 2 * ulp u := by rw [ulp_add, pow_one]

theorem ulp_mono : Monotone ulp := monotone_nat_of_le_succ fun u => by
  have hpos := ulp_pos u
  rw [ulp_succ]
  linarith

/-! ### The fields of a pattern -/

section
variable (b : BitVec 64)

theorem f64Exp_eq : f64Exp b = b.toNat % 2 ^ 63 / 2 ^ 52 := by
  rw [f64Exp, toNat_extractLsb'_div]
  omega

theorem f64Frac_eq : f64Frac b = b.toNat % 2 ^ 63 % 2 ^ 52 := by
  rw [f64Frac, toNat_extractLsb'_div]
  omega

theorem f64Sign_eq_true_iff : f64Sign b = true ↔ 2 ^ 63 ≤ b.toNat := by
  rw [f64Sign, BitVec.getLsbD, Nat.testBit_eq_decide_div_mod_eq, decide_eq_true_iff]
  omega

/-- The magnitude of the pattern with `m` in units of index `u`. -/
theorem f64Mag_of_significand {u m : Nat} (hb : b.toNat % 2 ^ 63 = u * 2 ^ 52 + m) (hm : m ≤ 2 ^ 53)
    (hlow : u = 0 ∨ 2 ^ 52 ≤ m) : f64Mag b = m * ulp u := by
  rw [f64Mag, f64Exp_eq, f64Frac_eq, hb]
  rcases hm.lt_or_eq with hlt | rfl
  · by_cases hsub : m < 2 ^ 52
    · obtain rfl : u = 0 := hlow.resolve_right (by omega)
      rw [if_pos (by omega), show (0 * 2 ^ 52 + m) % 2 ^ 52 = m by omega]
      rfl
    · have hexp : (u * 2 ^ 52 + m) / 2 ^ 52 = u + 1 := by omega
      have hsig : 2 ^ 52 + (u * 2 ^ 52 + m) % 2 ^ 52 = m := by omega
      rw [hexp, hsig, if_neg (by omega), ulp]
      push_cast
      ring_nf
  · have hexp : (u * 2 ^ 52 + 2 ^ 53) / 2 ^ 52 = u + 1 + 1 := by omega
    have hsig : 2 ^ 52 + (u * 2 ^ 52 + 2 ^ 53) % 2 ^ 52 = 2 ^ 52 := by omega
    have hunit : (2 : ℚ) ^ (((u + 1 + 1 : Nat) : ℤ) - 1075) = 2 * ulp u := by
      rw [← ulp_succ, ulp]
      push_cast
      ring_nf
    rw [hexp, hsig, if_neg (by omega), hunit]
    push_cast
    ring

theorem exists_significand : ∃ u m : Nat, b.toNat % 2 ^ 63 = u * 2 ^ 52 + m ∧ m < 2 ^ 53 ∧ (u = 0 ∨ 2 ^ 52 ≤ m) :=
  ⟨b.toNat % 2 ^ 63 / 2 ^ 52 - 1, b.toNat % 2 ^ 63 - (b.toNat % 2 ^ 63 / 2 ^ 52 - 1) * 2 ^ 52, by omega, by omega, by omega⟩

/-- A pattern with a sign, whose other bits are those of a finite magnitude. -/
theorem f64val_of_finite (h : b.toNat % 2 ^ 63 < 0x7FF * 2 ^ 52) :
    f64val b = .rat (if f64Sign b then - f64Mag b else f64Mag b) := by
  rw [f64val, if_neg]
  rw [f64Exp_eq]
  omega

theorem f64val_of_infinite (h : b.toNat % 2 ^ 63 = 0x7FF * 2 ^ 52) :
    f64val b = if f64Sign b then .negInf else .posInf := by
  have hexp : f64Exp b = 0x7FF := by rw [f64Exp_eq, h]; rfl
  have hfrac : ¬ f64Frac b ≠ 0 := by rw [f64Frac_eq, h]; decide
  rw [f64val, if_pos hexp, if_neg hfrac]

theorem finite_of_f64val {q : ℚ} (h : f64val b = .rat q) :
    b.toNat % 2 ^ 63 < 0x7FF * 2 ^ 52 ∧ q = if f64Sign b then - f64Mag b else f64Mag b := by
  by_cases hexp : f64Exp b = 0x7FF
  · rw [f64val, if_pos hexp] at h
    split_ifs at h
  · rw [f64val, if_neg hexp, F64.rat.injEq] at h
    rw [f64Exp_eq] at hexp
    exact ⟨by omega, h.symm⟩

end

/-- A finite value counts in the unit of index `u`, or its magnitude is below all that have this unit. -/
theorem multiple_or_small {b : BitVec 64} {r : ℚ} (h : f64val b = .rat r) (u : Nat) :
    (∃ j : Int, r = j * ulp u) ∨ (0 < u ∧ |r| < 2 ^ 52 * ulp u) := by
  obtain ⟨u', m, hb, hm, hlow⟩ := exists_significand b
  obtain ⟨-, hr⟩ := finite_of_f64val b h
  rw [f64Mag_of_significand b hb hm.le hlow] at hr
  rcases le_or_gt u u' with hle | hlt
  · obtain ⟨v, rfl⟩ := Nat.exists_eq_add_of_le hle
    rw [ulp_add] at hr
    left
    split at hr
    · exact ⟨-(m * 2 ^ v), by rw [hr]; push_cast; ring⟩
    · exact ⟨m * 2 ^ v, by rw [hr]; push_cast; ring⟩
  · have habs : |r| = m * ulp u' := by
      have hnonneg : 0 ≤ m * ulp u' := mul_nonneg (Nat.cast_nonneg m) (ulp_pos u').le
      rw [hr]
      split
      · rw [abs_neg, abs_of_nonneg hnonneg]
      · exact abs_of_nonneg hnonneg
    have hm' : (m : ℚ) < 2 ^ 53 := by exact_mod_cast hm
    refine .inr ⟨by omega, ?_⟩
    calc |r|
      _ = m * ulp u' := habs
      _ < 2 ^ 53 * ulp u' := mul_lt_mul_of_pos_right hm' (ulp_pos u')
      _ = 2 ^ 52 * ulp (u' + 1) := by rw [ulp_succ]; ring
      _ ≤ 2 ^ 52 * ulp u := mul_le_mul_of_nonneg_left (ulp_mono hlt) (by positivity)

theorem multiple_or_small_of_either {b : BitVec 64} {r : ℚ} (h : f64val b = .rat r ∨ f64val b = .rat (-r)) (u : Nat) :
    (∃ j : Int, r = j * ulp u) ∨ (0 < u ∧ |r| < 2 ^ 52 * ulp u) := by
  rcases h with h | h
  · exact multiple_or_small h u
  · rcases multiple_or_small h u with ⟨j, hj⟩ | hsmall
    · exact .inl ⟨-j, by rw [Int.cast_neg, neg_mul, ← hj, neg_neg]⟩
    · rw [abs_neg] at hsmall
      exact .inr hsmall

/-! ### The unit that a positive number fits -/

/-- `a` is written in units of index `u`: below `2^53` of them, and at least `2^52` unless there are no smaller units. -/
def Fits (a : ℚ) (u : Nat) : Prop := a < 2 ^ 53 * ulp u ∧ (u = 0 ∨ 2 ^ 52 * ulp u ≤ a)

/-- The index of the unit that the model takes. -/
def ulpIndex (a : ℚ) : Nat := (f64UlpExp a + 1074).toNat

theorem two_zpow_f64UlpExp (a : ℚ) : (2 : ℚ) ^ f64UlpExp a = ulp (ulpIndex a) := by
  have hlow : -1074 ≤ f64UlpExp a := le_max_right _ _
  rw [ulp, ulpIndex]
  congr 1
  omega

theorem fits_ulpIndex {a : ℚ} (ha : 0 < a) : Fits a (ulpIndex a) := by
  have hbelow : a < 2 ^ (Int.log 2 a + 1) := by exact_mod_cast Int.lt_zpow_succ_log_self one_lt_two a
  have habove : (2 : ℚ) ^ Int.log 2 a ≤ a := by exact_mod_cast Int.zpow_log_le_self one_lt_two ha
  have hscale (n : Nat) (e : ℤ) : (2 : ℚ) ^ n * 2 ^ e = 2 ^ ((n : ℤ) + e) := by
    rw [zpow_add₀ two_ne_zero, zpow_natCast]
  rw [Fits, ← two_zpow_f64UlpExp, hscale, hscale]
  constructor
  · refine hbelow.trans_le (zpow_le_zpow_right₀ one_le_two ?_)
    have hexp : Int.log 2 a - 52 ≤ f64UlpExp a := le_max_left _ _
    push_cast
    omega
  · rcases max_choice (Int.log 2 a - 52) (-1074) with hlog | hmin
    · right
      rw [f64UlpExp, hlog, Nat.cast_ofNat, add_sub_cancel]
      exact habove
    · left
      rw [ulpIndex, f64UlpExp, hmin]
      rfl

theorem Fits.le {a : ℚ} {u v : Nat} (hu : Fits a u) (hv : Fits a v) : u ≤ v := by
  by_contra hlt
  have hlow := hu.2.resolve_left (by omega)
  have hstep : ulp (v + 1) ≤ ulp u := ulp_mono (by omega)
  have hhigh := hv.1
  rw [ulp_succ] at hstep
  linarith

theorem Fits.eq_ulpIndex {a : ℚ} {u : Nat} (ha : 0 < a) (h : Fits a u) : ulpIndex a = u :=
  le_antisymm ((fits_ulpIndex ha).le h) (h.le (fits_ulpIndex ha))

/-! ### The significand -/

/-- How often the unit goes into `a`, rounded. -/
def significand (a : ℚ) : Nat := (roundTo .even (a / ulp (ulpIndex a))).toNat

theorem f64MagBits_eq (a : ℚ) : f64MagBits a = min (ulpIndex a * 2 ^ 52 + significand a) (0x7FF * 2 ^ 52) := by
  rw [significand, ← two_zpow_f64UlpExp]
  rfl

/-- The bound from which on numbers are written as infinity, in units of the largest numbers. -/
theorem overflow_eq : (2 ^ 1024 - 2 ^ 970 : ℚ) = (2 ^ 53 - 1 / 2) * ulp 2045 := by
  have hunit : ulp 2045 = 2 * 2 ^ 970 := by
    rw [ulp, ← pow_succ', ← zpow_natCast]
    rfl
  have htop : (2 : ℚ) ^ 1024 = 2 ^ 54 * 2 ^ 970 := by rw [← pow_add]
  rw [hunit, htop]
  generalize (2 : ℚ) ^ 970 = z
  ring

section
variable {a : ℚ} (ha : 0 < a)
include ha

theorem cast_significand : (significand a : Int) = roundTo .even (a / ulp (ulpIndex a)) :=
  Int.toNat_of_nonneg (roundTo_nonneg _ (div_pos ha (ulp_pos _)).le)

/-- From a bound of integer or half-integer units on `a` to a bound on the significand. -/
theorem le_significand {x : ℚ} (h : x * ulp (ulpIndex a) ≤ a) : roundTo .even x ≤ significand a := by
  rw [cast_significand ha]
  exact roundTo_mono _ ((le_div_iff₀ (ulp_pos _)).mpr h)

theorem significand_le : significand a ≤ 2 ^ 53 := by
  have hle : a / ulp (ulpIndex a) ≤ ((2 ^ 53 : Int) : ℚ) := by
    rw [div_le_iff₀ (ulp_pos _)]
    exact_mod_cast (fits_ulpIndex ha).1.le
  have hround := roundTo_mono .even hle
  rw [roundTo_intCast, ← cast_significand ha] at hround
  exact_mod_cast hround

theorem le_significand_of_ne_zero : ulpIndex a = 0 ∨ 2 ^ 52 ≤ significand a := by
  refine (fits_ulpIndex ha).2.imp_right fun hlow => ?_
  have hround := le_significand ha (x := ((2 ^ 52 : Int) : ℚ)) (by exact_mod_cast hlow)
  rw [roundTo_intCast] at hround
  exact_mod_cast hround

/-- No finite value of either sign is nearer to `a`, and where another is as near the significand is even. -/
theorem significand_nearest {b : BitVec 64} {r : ℚ} (hr : f64val b = .rat r ∨ f64val b = .rat (-r)) :
    |significand a * ulp (ulpIndex a) - a| ≤ |r - a| ∧
      (|significand a * ulp (ulpIndex a) - a| = |r - a| → r ≠ significand a * ulp (ulpIndex a) → significand a % 2 = 0) := by
  have hpos := ulp_pos (ulpIndex a)
  have hdist (j : Int) : |(j : ℚ) * ulp (ulpIndex a) - a| = |(j : ℚ) - a / ulp (ulpIndex a)| * ulp (ulpIndex a) := by
    rw [← abs_of_pos hpos, ← abs_mul, abs_of_pos hpos, sub_mul, div_mul_cancel₀ _ hpos.ne']
  have hcast : (significand a : ℚ) = (roundTo .even (a / ulp (ulpIndex a)) : ℚ) := by
    rw [← cast_significand ha, Int.cast_natCast]
  have hnearest := roundTo_even_nearest (a / ulp (ulpIndex a))
  rcases multiple_or_small_of_either hr (ulpIndex a) with ⟨j, rfl⟩ | ⟨hindex, hsmall⟩
  · obtain ⟨hle, heven⟩ := hnearest j
    rw [hcast, hdist, hdist]
    refine ⟨mul_le_mul_of_nonneg_right hle hpos.le, fun heq hne => ?_⟩
    have hparity := heven (mul_right_cancel₀ hpos.ne' heq) fun h => hne (by rw [h])
    rw [← cast_significand ha] at hparity
    omega
  · have hlow := (fits_ulpIndex ha).2.resolve_left (by omega)
    have hbound := (hnearest (2 ^ 52)).1
    have hstrict : |significand a * ulp (ulpIndex a) - a| < |r - a| := by
      calc |significand a * ulp (ulpIndex a) - a|
        _ ≤ |((2 ^ 52 : Int) : ℚ) * ulp (ulpIndex a) - a| := by
          rw [hcast, hdist, hdist]
          exact mul_le_mul_of_nonneg_right hbound hpos.le
        _ = a - 2 ^ 52 * ulp (ulpIndex a) := by
          rw [Int.cast_pow, Int.cast_ofNat, abs_sub_comm, abs_of_nonneg (by linarith)]
        _ < a - r := by linarith [le_abs_self r]
        _ ≤ |r - a| := by
          rw [abs_sub_comm]
          exact le_abs_self _
    exact ⟨hstrict.le, fun heq => absurd heq hstrict.ne⟩

/-! ### The largest finite number -/

theorem f64MagBits_of_lt (h : a < 2 ^ 1024 - 2 ^ 970) :
    f64MagBits a = ulpIndex a * 2 ^ 52 + significand a ∧ f64MagBits a < 0x7FF * 2 ^ 52 := by
  obtain ⟨hhigh, hlow⟩ := fits_ulpIndex ha
  have hunit := ulp_pos 2045
  rw [overflow_eq] at h
  have hindex : ulpIndex a ≤ 2045 := by
    by_contra hlarge
    have hle := hlow.resolve_left (by omega)
    have hstep : ulp (2045 + 1) ≤ ulp (ulpIndex a) := ulp_mono (by omega)
    rw [ulp_succ] at hstep
    linarith
  have hsig := significand_le ha
  have htop : ulpIndex a = 2045 → significand a < 2 ^ 53 := by
    intro heq
    have hnear := (abs_le.mp (abs_roundTo_sub_le .even (a / ulp (ulpIndex a)))).2
    rw [← cast_significand ha, Int.cast_natCast, heq] at hnear
    have hquot : a / ulp 2045 < 2 ^ 53 - 1 / 2 := (div_lt_iff₀ hunit).mpr h
    have hlt : (significand a : ℚ) < 2 ^ 53 := by linarith
    exact_mod_cast hlt
  rw [f64MagBits_eq]
  omega

theorem f64MagBits_of_ge (h : 2 ^ 1024 - 2 ^ 970 ≤ a) : f64MagBits a = 0x7FF * 2 ^ 52 := by
  obtain ⟨hhigh, -⟩ := fits_ulpIndex ha
  have hunit := ulp_pos 2045
  rw [overflow_eq] at h
  have hindex : 2045 ≤ ulpIndex a := by
    by_contra hsmall
    have hstep : ulp (ulpIndex a + 1) ≤ ulp 2045 := ulp_mono (by omega)
    rw [ulp_succ] at hstep
    linarith
  have hlow := le_significand_of_ne_zero ha
  have htop : ulpIndex a = 2045 → 2 ^ 53 ≤ significand a := by
    intro heq
    have hround := le_significand ha (x := 2 ^ 53 - 1 / 2) (by rw [heq]; exact h)
    rw [(roundTo_of_tie (k := 2 ^ 53 - 1) (by norm_num)).2.1] at hround
    norm_num at hround
    exact_mod_cast hround
  rw [f64MagBits_eq]
  omega

end

/-- A multiple of its unit is written as it is. -/
theorem f64MagBits_of_significand {u m : Nat} (hm : m < 2 ^ 53) (hpos : 0 < m) (hlow : u = 0 ∨ 2 ^ 52 ≤ m)
    (hfinite : u * 2 ^ 52 + m < 0x7FF * 2 ^ 52) : f64MagBits (m * ulp u) = u * 2 ^ 52 + m := by
  have hunit := ulp_pos u
  have hposq : (0 : ℚ) < m := by exact_mod_cast hpos
  have hfits : Fits (m * ulp u) u := by
    have hlt : (m : ℚ) < 2 ^ 53 := by exact_mod_cast hm
    refine ⟨mul_lt_mul_of_pos_right hlt hunit, hlow.imp_right fun hle => ?_⟩
    have hleq : (2 : ℚ) ^ 52 ≤ m := by exact_mod_cast hle
    exact mul_le_mul_of_nonneg_right hleq hunit.le
  have hindex := hfits.eq_ulpIndex (mul_pos hposq hunit)
  have hsig : significand (m * ulp u) = m := by
    have hround : roundTo .even ((m : Int) : ℚ) = m := roundTo_intCast .even m
    rw [significand, hindex, mul_div_cancel_right₀ _ hunit.ne', ← Int.cast_natCast, hround, Int.toNat_natCast]
  rw [f64MagBits_eq, hindex, hsig]
  omega

/-! ### The whole pattern -/

theorem f64MagBits_le (a : ℚ) : f64MagBits a ≤ 0x7FF * 2 ^ 52 := min_le_right _ _

theorem f64OfRat_zero : f64OfRat 0 = 0#64 := if_pos rfl

theorem f64val_zero : f64val (f64OfRat 0) = .rat 0 := by
  have hmag : f64Mag 0#64 = 0 := by
    rw [f64Mag_of_significand 0#64 (u := 0) (m := 0) (by decide) (by decide) (.inl rfl), Nat.cast_zero, zero_mul]
  rw [f64OfRat_zero, f64val_of_finite _ (by decide), hmag, neg_zero, ite_self]

/-- The pattern of a number is its sign and the bits of its magnitude. -/
theorem f64OfRat_eq {q : ℚ} (hq : q ≠ 0) :
    f64OfRat q = BitVec.ofNat 64 ((if q < 0 then 2 ^ 63 else 0) + f64MagBits |q|) := by
  rw [f64OfRat, if_neg hq]
  split
  next hneg => rw [abs_of_neg hneg]
  next hpos => rw [abs_of_nonneg (not_lt.mp hpos), Nat.zero_add]

theorem toNat_f64OfRat {q : ℚ} (hq : q ≠ 0) :
    (f64OfRat q).toNat = (if q < 0 then 2 ^ 63 else 0) + f64MagBits |q| := by
  have hle := f64MagBits_le |q|
  rw [f64OfRat_eq hq, BitVec.toNat_ofNat]
  split <;> omega

theorem magnitude_f64OfRat {q : ℚ} (hq : q ≠ 0) : (f64OfRat q).toNat % 2 ^ 63 = f64MagBits |q| := by
  have hle := f64MagBits_le |q|
  rw [toNat_f64OfRat hq]
  split <;> omega

theorem f64Sign_f64OfRat {q : ℚ} (hq : q ≠ 0) : f64Sign (f64OfRat q) = true ↔ q < 0 := by
  have hle := f64MagBits_le |q|
  rw [f64Sign_eq_true_iff, toNat_f64OfRat hq]
  split
  next hneg => exact iff_of_true (by omega) hneg
  next hpos => exact iff_of_false (by omega) hpos

section
variable {q : ℚ} (hq : q ≠ 0)
include hq

/-- The parity of the fraction is that of the significand. -/
theorem f64Frac_f64OfRat (h : |q| < 2 ^ 1024 - 2 ^ 970) : f64Frac (f64OfRat q) % 2 = significand |q| % 2 := by
  rw [f64Frac_eq, magnitude_f64OfRat hq, (f64MagBits_of_lt (abs_pos.mpr hq) h).1]
  omega

/-- Below the bound the pattern denotes the number rounded to the unit it fits. -/
theorem f64val_f64OfRat_of_lt (h : |q| < 2 ^ 1024 - 2 ^ 970) : f64val (f64OfRat q) =
    .rat (if q < 0 then -(significand |q| * ulp (ulpIndex |q|)) else significand |q| * ulp (ulpIndex |q|)) := by
  have ha := abs_pos.mpr hq
  obtain ⟨hbits, hfinite⟩ := f64MagBits_of_lt ha h
  have hmag := magnitude_f64OfRat hq
  rw [f64val_of_finite _ (hmag.symm ▸ hfinite),
    f64Mag_of_significand _ (hmag.trans hbits) (significand_le ha) (le_significand_of_ne_zero ha)]
  simp only [f64Sign_f64OfRat hq]

theorem f64val_f64OfRat_of_ge (h : 2 ^ 1024 - 2 ^ 970 ≤ |q|) :
    f64val (f64OfRat q) = if q < 0 then .negInf else .posInf := by
  rw [f64val_of_infinite _ ((magnitude_f64OfRat hq).trans (f64MagBits_of_ge (abs_pos.mpr hq) h))]
  simp only [f64Sign_f64OfRat hq]

end

theorem overflow_pos : (0 : ℚ) < 2 ^ 1024 - 2 ^ 970 := by
  have hunit := ulp_pos 2045
  rw [overflow_eq]
  exact mul_pos (by norm_num) hunit

/-- The number written is as near to `q` as any finite value, and its fraction is even where another is as near. -/
theorem f64OfRat_nearest {q : ℚ} (h : |q| < 2 ^ 1024 - 2 ^ 970) : ∃ r : ℚ, f64val (f64OfRat q) = .rat r ∧
    ∀ (b : BitVec 64) (r' : ℚ), f64val b = .rat r' →
      |r - q| ≤ |r' - q| ∧ (|r - q| = |r' - q| → r' ≠ r → f64Frac (f64OfRat q) % 2 = 0) := by
  by_cases hq : q = 0
  · subst hq
    refine ⟨0, f64val_zero, fun b r' _ => ⟨?_, fun _ _ => by rw [f64OfRat_zero]; decide⟩⟩
    rw [sub_self, abs_zero]
    exact abs_nonneg _
  have ha := abs_pos.mpr hq
  refine ⟨_, f64val_f64OfRat_of_lt hq h, fun b r' hr' => ?_⟩
  rw [f64Frac_f64OfRat hq h]
  split
  next hneg =>
    rw [abs_of_neg hneg] at ha ⊢
    obtain ⟨hle, heven⟩ := significand_nearest ha (r := -r') (.inr (by rwa [neg_neg]))
    have hflip (x : ℚ) : |-x - q| = |x - -q| := by
      rw [← abs_neg, neg_sub, sub_neg_eq_add, sub_neg_eq_add, add_comm]
    have hr := hflip (-r')
    rw [neg_neg] at hr
    rw [hflip, hr]
    exact ⟨hle, fun heq hne => heven heq fun h => hne (by rw [← h, neg_neg])⟩
  next hpos =>
    rw [abs_of_nonneg (not_lt.mp hpos)] at ha ⊢
    exact significand_nearest ha (.inl hr')

/-- The pattern of a finite value that is not zero is read back. -/
theorem f64OfRat_of_f64val {b : BitVec 64} {q : ℚ} (hb : f64val b = .rat q) (hq : q ≠ 0) : f64OfRat q = b := by
  obtain ⟨u, m, hbits, hm, hlow⟩ := exists_significand b
  obtain ⟨hfinite, hval⟩ := finite_of_f64val b hb
  have hunit := ulp_pos u
  rw [f64Mag_of_significand b hbits hm.le hlow] at hval
  have hpos : 0 < m := by
    by_contra hzero
    obtain rfl : m = 0 := by omega
    exact hq (by rw [hval]; simp)
  have hvalue : 0 < (m : ℚ) * ulp u := mul_pos (by exact_mod_cast hpos) hunit
  have hmag : f64MagBits (m * ulp u) = b.toNat % 2 ^ 63 :=
    (f64MagBits_of_significand hm hpos hlow (hbits ▸ hfinite)).trans hbits.symm
  have hlt := b.isLt
  apply BitVec.eq_of_toNat_eq
  rw [toNat_f64OfRat hq]
  by_cases hsign : f64Sign b = true
  · rw [if_pos hsign] at hval
    rw [hval, abs_neg, abs_of_pos hvalue, hmag, if_pos (neg_neg_of_pos hvalue)]
    rw [f64Sign_eq_true_iff] at hsign
    omega
  · rw [if_neg hsign] at hval
    rw [hval, abs_of_pos hvalue, hmag, if_neg hvalue.not_gt]
    rw [f64Sign_eq_true_iff] at hsign
    omega

end Sys2Proof.Binary64

open Sys2Proof Sys2Proof.Machine Sys2Proof.Config Sys2Proof.Rounding Sys2Proof.Binary64

/-- Settles O21: `round` is never off by more than one half, so no other integer is nearer, and at a tie it is the rule of its
`ROUND_TIES`. -/
theorem roundGoesToNearest : Obligations.RoundGoesToNearest := by
  intro t q
  refine ⟨abs_roundTo_sub_le t q, fun k => ⟨roundTo_eq_of_abs_sub_lt t, fun htie => ?_⟩⟩
  obtain ⟨haway, heven, hup⟩ := roundTo_of_tie htie
  rw [if_congr (pos_iff_of_tie htie) rfl rfl]
  exact ⟨haway, hup, heven⟩

/-- Settles O23: a finite value is a multiple of the unit it fits. -/
theorem binary64RoundTrip : Obligations.Binary64RoundTrip :=
  ⟨f64OfRat_zero, fun _ _ hb hq => f64OfRat_of_f64val hb hq⟩

/-- Settles O24: other finite values are multiples of the unit too, or smaller than all that have this unit
(`significand_nearest`); from the bound on the pattern is cut to that of infinity. -/
theorem binary64IsNearest : Obligations.Binary64IsNearest := by
  intro q
  have hbound := overflow_pos
  refine ⟨f64OfRat_nearest, fun hge => ?_, fun hle => ?_⟩
  · have hpos : 0 < q := hbound.trans_le hge
    rw [f64val_f64OfRat_of_ge hpos.ne' (hge.trans (le_abs_self q)), if_neg hpos.not_gt]
  · have hneg : q < 0 := hle.trans_lt (neg_neg_of_pos hbound)
    rw [f64val_f64OfRat_of_ge hneg.ne ((le_neg_of_le_neg hle).trans (neg_le_abs q)), if_pos hneg]

end
